-- ==== Sys2Proof/Word.lean ====
section
/-!
DEFINITION. The words of the engine: a byte, the host command word, a decimal digit, and a bit field.
Every quantity of the block is unsigned and nothing wraps (spec/42_encoders.md R177; spec/00_scope.md R13).
-/
namespace Sys2Proof

/-- A byte, bit 0 its least significant bit (00_scope.md R13; `BYTE_W = 8`, R9). -/
abbrev Byte := BitVec 8

/-- The `u32` operand of SEND_NUMBER, and the argument of the delay primitive (`NUM_W`, `DELAY_W`; 00_scope.md R9). -/
abbrev Word32 := BitVec 32

/-- The operand field of the host word, `AW = max(32, 8 * PAYLOAD_MAX)` bits: 120 at the widest, `PAYLOAD_MAX = 15`
(30_encoding.md R91; 00_scope.md R11). An instantiation's own field is narrower (log 6). -/
abbrev HostArg := BitVec 120

/-- The host command word `HOSTW`, `8 + AW` bits: 128 at the widest, 40 at the default `PAYLOAD_MAX = 4`
(30_encoding.md R91; log 6). -/
abbrev HostWord := BitVec 128

/-- A digit value, 0 to 9 (00_scope.md R9, `DIGIT_MAX = 9`): the domain of SEG (42_encoders.md R170). -/
abbrev Digit := Fin 10

end Sys2Proof
end

