-- ==== Sys2Proof/Config.lean ====
section
/-!
DEFINITION. What an instantiation of the block fixes: the constants of spec/00_scope.md R9, the parameters of R10 with
the spec's defaults and constraints (R11), the parameters the spec leaves OPEN, and the free values. An `opaque` constant has no body:
no proof can see its value, so a theorem holds whatever it is.
-/
namespace Sys2Proof

/-- A value of `E`, the platform's error type, by its number: an opaque token the engine copies and never inspects
(00_scope.md R12, 92_eei_decisions.md D22). Which numbers are values of `E` is the parameter `Params.errors` (log 5). -/
structure ErrVal where
  token : Nat
  deriving DecidableEq, Repr, Inhabited

/-- One draw of the environment, made when a fallible line action is performed (40_line_actions.md R137): the
action ends `ok`, and `level` is what a sample reads then (`true` = high; a drive ignores it, 20_memory.md R72), or it
fails with an error value. -/
inductive Draw where
  | ok (level : Bool)
  | err (e : ErrVal)
  deriving DecidableEq, Repr, Inhabited

namespace Config

/-- Digits on the display (00_scope.md R9). -/
abbrev digits : Nat := 4

/-- `ACK_POLL_MAX`, the bound of the acknowledgment poll (00_scope.md R9). -/
abbrev ackPollMax : Nat := 255

/-- `IND_MASK`, the auxiliary indicator bit (00_scope.md R9). -/
abbrev indMask : Byte := 0x80

/-- `BR_MAX` (00_scope.md R9). -/
abbrev brMax : Nat := 7

/-- `DIGIT_MAX` (00_scope.md R9). -/
abbrev digitMax : Nat := 9

/-- The largest `PAYLOAD_MAX` an instantiation may have: the length field of the host word is four bits (00_scope.md R11). -/
abbrev payloadTop : Nat := 15

/-- `BRIGHTNESS_INIT`, the value of `BR` after INIT: OPEN, in 0 to 7 (00_scope.md R10, 92_eei_decisions.md D9; log 7). -/
opaque brightnessInit : BitVec 3

/-- `GLASS_ORDER`, the physical digit each display register lights: OPEN, read by no rule (00_scope.md R10,
92_eei_decisions.md D20; log 8). -/
opaque glassOrder : Nat → Nat

/-- `E` of the machine that `State.reset` describes: OPEN, so opaque. `none`: one value for every number; `some n`: the `n`
values numbered below `n` (00_scope.md R10, R12; log 5). -/
opaque errorCount : Option Nat

/-- The free value of the environment: the draw with this number, where no scripted draw is left in the state
(40_line_actions.md R137, 92_eei_decisions.md D18, D22; log 2). -/
opaque freeDraw : Nat → Draw

/-- The free value of everything the spec calls unspecified: `freeNat event place` is the value that the place
numbered `place` holds from the event numbered `event` on (93_implementation_defined.md U5, U16; log 3). -/
opaque freeNat : Nat → Nat → Nat

end Config

/-- The parameters of 00_scope.md R10 that an instantiation of the block fixes. The model takes them as an argument: a
constant of the state (log 27), so a statement about every state holds of every instantiation. `BRIGHTNESS_INIT` and
`GLASS_ORDER` are the opaque constants of `Config`. -/
structure Params where
  /-- `T_FULL_US`: one full period, the argument of the delay primitive for WAIT_FULL (10_state.md R35) -/
  tFullUs : Word32
  /-- `T_HALF_US`: one half period, the argument of the delay primitive for WAIT_HALF (10_state.md R35) -/
  tHalfUs : Word32
  /-- `SEG_TABLE`, the content of `SEGROM`: the pattern of each digit, bits 0 to 6 the segments a to g (20_memory.md R61) -/
  segTable : Vector Byte 10
  /-- `DATA_CMD`, the data command with automatic address increment (30_encoding.md R98) -/
  dataCmd : Byte
  /-- `ADDR_CMD`, the address command that selects the first display register (30_encoding.md R98) -/
  addrCmd : Byte
  /-- `CTRL_ON_MASK`, bits 7 to 3 of the "on" display-control byte (30_encoding.md R97) -/
  ctrlOnMask : Byte
  /-- `CTRL_OFF`, the "off" display-control byte (30_encoding.md R97) -/
  ctrlOff : Byte
  /-- `PAYLOAD_MAX`, the capacity of the payload buffer in bytes (92_eei_decisions.md D11) -/
  payloadMax : Nat
  /-- `E`, up to the names of its values: `none` a value for every number, `some n` the `n` values numbered below `n`, so
  `some 0` the empty type of a platform whose pins cannot fail (00_scope.md R12; log 5) -/
  errors : Option Nat
  deriving DecidableEq, Repr

/-- The defaults of 00_scope.md R10 (log 15); `E` has none and stays open. -/
def Params.default : Params where
  tFullUs := 3
  tHalfUs := 2
  segTable := #v[0x3F, 0x06, 0x5B, 0x4F, 0x66, 0x6D, 0x7D, 0x07, 0x7F, 0x6F]
  dataCmd := 0x40
  addrCmd := 0xC0
  ctrlOnMask := 0x88
  ctrlOff := 0x80
  payloadMax := 4
  errors := Config.errorCount

/-- The constraints every instantiation meets (00_scope.md R11). -/
def Params.ok (p : Params) : Bool :=
  1 ≤ p.tHalfUs.toNat && p.tHalfUs.toNat ≤ p.tFullUs.toNat && (List.finRange 10).all (fun d => !(p.segTable[d]).getLsbD 7) &&
    p.ctrlOnMask &&& 0x07 == 0 && 1 ≤ p.payloadMax && p.payloadMax ≤ Config.payloadTop

/-- `AW`, the width of the operand field of the host word (30_encoding.md R91). -/
def Params.argBits (p : Params) : Nat := max 32 (8 * p.payloadMax)

/-- A value of `E` (00_scope.md R12). -/
def Params.isErr (p : Params) (e : ErrVal) : Bool :=
  match p.errors with
  | none => true
  | some n => e.token < n

end Sys2Proof
end

