-- ==== Sys2Proof/Syntax.lean ====
section
/-!
DEFINITION. The operations of the engine: one constructor for each row of spec/opcode_table.json, in the table's order.
Host commands (30_encoding.md R92), line actions (R100), transport routines (R101), the bytes of the wire (R95 to R98)
and the operations that have no code (R101).
-/
namespace Sys2Proof

/-- The operations, one constructor per row of the table. -/
inductive Instr where
  /-- INIT (44_lifecycle.md R210). -/
  | init
  /-- SEND_BYTES: `len` bytes, byte `i` at `arg[8i+7:8i]` (43_framing.md R193). -/
  | sendBytes (len : BitVec 4) (arg : HostArg)
  /-- SEND_DIGITS: the indicator bit, `len` digit items, item `i` at `arg[8i+7:8i]` (43_framing.md R194). -/
  | sendDigits (ind : Bool) (len : BitVec 4) (arg : HostArg)
  /-- SEND_NUMBER (43_framing.md R195). -/
  | sendNumber (value : Word32)
  /-- ENABLE (44_lifecycle.md R211). -/
  | enable
  /-- DISABLE (44_lifecycle.md R212). -/
  | disable
  /-- SET_BRIGHTNESS: the operand is 8 bits wide, so that 8 to 255 can be presented (44_lifecycle.md R213). -/
  | setBrightness (b : Byte)
  /-- TEARDOWN (44_lifecycle.md R215). -/
  | teardown
  /-- CLK_LO (40_line_actions.md R130). -/
  | clkLo
  /-- CLK_HI (40_line_actions.md R131). -/
  | clkHi
  /-- DIO_LO (40_line_actions.md R132). -/
  | dioLo
  /-- DIO_HI (40_line_actions.md R133). -/
  | dioHi
  /-- DIO_SAMPLE (40_line_actions.md R134). -/
  | dioSample
  /-- WAIT_HALF (40_line_actions.md R135). -/
  | waitHalf
  /-- WAIT_FULL (40_line_actions.md R136). -/
  | waitFull
  /-- START (41_transport.md R150). -/
  | start
  /-- STOP (41_transport.md R151). -/
  | stop
  /-- SEND_BYTE, with its operand, which is not part of the routine's id (41_transport.md R152). -/
  | sendByte (v : Byte)
  /-- WAIT_ACK (41_transport.md R153). -/
  | waitAck
  /-- The wire byte `DATA_CMD` (30_encoding.md R98). -/
  | dataCmd
  /-- The wire byte `ADDR_CMD` (30_encoding.md R98). -/
  | addrCmd
  /-- The "on" display-control byte with a brightness in bits 2 to 0 (30_encoding.md R97). -/
  | ctrlOn (brightness : BitVec 3)
  /-- The "off" display-control byte (30_encoding.md R97). -/
  | ctrlOff
  /-- The segment byte of digit 0, bit 7 the indicator (30_encoding.md R95, R96; so the next nine). -/
  | seg0 (ind : Bool)
  | seg1 (ind : Bool)
  | seg2 (ind : Bool)
  | seg3 (ind : Bool)
  | seg4 (ind : Bool)
  | seg5 (ind : Bool)
  | seg6 (ind : Bool)
  | seg7 (ind : Bool)
  | seg8 (ind : Bool)
  | seg9 (ind : Bool)
  /-- The encoder SEG (42_encoders.md R170), on its whole domain and on nothing else. -/
  | seg (d : Digit)
  /-- The encoder IND (42_encoders.md R171). -/
  | ind (s : Byte) (bit : Bool)
  /-- The encoder ENC (42_encoders.md R172). -/
  | enc (ds : List Digit) (bit : Bool)
  /-- The decomposition DEC (42_encoders.md R174). -/
  | dec (v : Word32)
  /-- The encoder CTRL, which reads `BR` (42_encoders.md R176). -/
  | ctrl
  /-- The sub-operation FRAME, on `PB`, `PLEN` and `BR` (43_framing.md R190). -/
  | frame
  /-- The sub-operation PHASE_C with its display-control byte (43_framing.md R191). -/
  | phaseC (c : Byte)
  deriving DecidableEq, Repr

end Sys2Proof
end

