-- ==== Sys2Proof/WellFormed.lean ====
section
/-!
DEFINITION. Which terms of `Instr` are operations of the spec. The field types already hold every other bound (a digit
is 0 to 9, a length four bits, a brightness field three bits); operand values that the spec REJECTS (a digit item of 10, a
brightness of 8, a length above `PAYLOAD_MAX`) are well formed, because the engine accepts such a command and answers it.
-/
namespace Sys2Proof

/-- A display-control byte: `CTRL_OFF`, or the on-mask with a brightness in bits 2 to 0 (30_encoding.md R97). -/
def isControlByte (p : Params) (c : Byte) : Bool :=
  c == p.ctrlOff || c &&& 0xF8 == p.ctrlOnMask

/-- The operations of an instantiation: PHASE_C's operand is `CTRL()` or `CTRL_OFF` (43_framing.md R191), and an operand fits the
`AW` bits of the host word (30_encoding.md R91); every other term is an operation as it stands. -/
def Instr.wellFormed (p : Params) : Instr → Bool
  | .phaseC c => isControlByte p c
  | .sendBytes _ arg | .sendDigits _ _ arg => arg.toNat < 2 ^ p.argBits
  | .init | .sendNumber _ | .enable | .disable | .setBrightness _ | .teardown
  | .clkLo | .clkHi | .dioLo | .dioHi | .dioSample | .waitHalf | .waitFull
  | .start | .stop | .sendByte _ | .waitAck
  | .dataCmd | .addrCmd | .ctrlOn _ | .ctrlOff
  | .seg0 _ | .seg1 _ | .seg2 _ | .seg3 _ | .seg4 _ | .seg5 _ | .seg6 _ | .seg7 _ | .seg8 _ | .seg9 _
  | .seg _ | .ind _ _ | .enc _ _ | .dec _ | .ctrl | .frame => true

end Sys2Proof
end

