-- ==== Sys2Proof/Decode.lean ====
section
/-!
DEFINITION. The encodings of spec/30_encoding.md: decoding a coded word to its operation, total and rejecting by name,
and the encoder. A word is read in the FORMAT of the place it stands in (R90): the same bits are different operations
in different formats.
-/
namespace Sys2Proof

/-- The formats that carry a code (30_encoding.md R90). -/
inductive Format where
  /-- the host command word (R91) -/
  | hostw
  /-- the code of a line action (R100) -/
  | uop
  /-- the id of a transport routine (R101), with SEND_BYTE's operand above it (log 9) -/
  | top
  /-- a constant command byte (R98) -/
  | cmdb
  /-- a display-control byte (R97) -/
  | ctrlb
  /-- a segment byte (R95) -/
  | segb
  deriving DecidableEq, Repr

/-- A word in a format. Bit 0 of `word` is the least significant bit of the format's word. -/
structure Code where
  fmt : Format
  word : Nat
  deriving DecidableEq, Repr

/-- Why a code is no operation. -/
inductive DecodeError where
  /-- bits above the format's width -/
  | tooWide
  /-- `UOP` code 7, reserved and never produced (30_encoding.md R100) -/
  | reservedUop
  /-- an operand on a routine that takes none (30_encoding.md R101) -/
  | strayOperand
  /-- no command byte of the engine (30_encoding.md R98) -/
  | notACommandByte
  /-- no display-control byte (30_encoding.md R97) -/
  | notAControlByte
  /-- no entry of the segment table in bits 6 to 0 (30_encoding.md R96) -/
  | notASegmentByte
  deriving DecidableEq, Repr

/-- The fields of the host word (30_encoding.md R91). -/
def HostWord.op (w : HostWord) : BitVec 3 := w.extractLsb' 0 3

def HostWord.ind (w : HostWord) : Bool := w.getLsbD 3

def HostWord.len (w : HostWord) : BitVec 4 := w.extractLsb' 4 4

def HostWord.arg (w : HostWord) : HostArg := w.extractLsb' 8 120

/-- What the command port carries of a word: its `8 + AW` wires (10_state.md R36; 30_encoding.md R91). -/
def Params.onPort (p : Params) (w : HostWord) : HostWord := BitVec.ofNat 128 (w.toNat % 2 ^ (8 + p.argBits))

/-- The eight op codes, none reserved; a field a command does not use is not looked at (30_encoding.md R91, R92). -/
def decodeHost (w : HostWord) : Instr :=
  match w.op.toNat with
  | 0 => .init
  | 1 => .sendBytes w.len w.arg
  | 2 => .sendDigits w.ind w.len w.arg
  | 3 => .sendNumber (w.arg.setWidth 32)
  | 4 => .enable
  | 5 => .disable
  | 6 => .setBrightness (w.arg.setWidth 8)
  | _ => .teardown

/-- The seven line-action codes (30_encoding.md R100). -/
def decodeUop : Nat → Except DecodeError Instr
  | 0 => .ok .clkLo
  | 1 => .ok .clkHi
  | 2 => .ok .dioLo
  | 3 => .ok .dioHi
  | 4 => .ok .dioSample
  | 5 => .ok .waitHalf
  | 6 => .ok .waitFull
  | 7 => .error .reservedUop
  | _ => .error .tooWide

/-- The routine ids (30_encoding.md R101): the id in the low byte, SEND_BYTE's operand in the byte above (log 9). -/
def decodeTop (w : Nat) : Except DecodeError Instr :=
  let operand := w / 256
  let plain (i : Instr) : Except DecodeError Instr := if operand = 0 then .ok i else .error .strayOperand
  match w % 256 with
  | 0 => plain .start
  | 1 => plain .stop
  | 2 => if operand < 256 then .ok (.sendByte (BitVec.ofNat 8 operand)) else .error .tooWide
  | 3 => plain .waitAck
  | _ => .error .tooWide

/-- The two command bytes (30_encoding.md R98). DESIGN CHOICE (log 28): where an instantiation gives both one value, the byte is
read as DATA_CMD. -/
def decodeCmdb (p : Params) (b : Byte) : Except DecodeError Instr :=
  if b = p.dataCmd then .ok .dataCmd
  else if b = p.addrCmd then .ok .addrCmd
  else .error .notACommandByte

/-- The display-control bytes (30_encoding.md R97). DESIGN CHOICE (log 28): where an instantiation's `CTRL_OFF` is also an "on"
byte, the byte is read as CTRL_OFF. -/
def decodeCtrlb (p : Params) (b : Byte) : Except DecodeError Instr :=
  if b = p.ctrlOff then .ok .ctrlOff
  else if b &&& 0xF8 = p.ctrlOnMask then .ok (.ctrlOn (b.setWidth 3))
  else .error .notAControlByte

/-- The row of the segment byte of a digit. -/
def segByteInstr (d : Digit) (ind : Bool) : Instr :=
  match d with
  | 0 => .seg0 ind
  | 1 => .seg1 ind
  | 2 => .seg2 ind
  | 3 => .seg3 ind
  | 4 => .seg4 ind
  | 5 => .seg5 ind
  | 6 => .seg6 ind
  | 7 => .seg7 ind
  | 8 => .seg8 ind
  | 9 => .seg9 ind

/-- The segment bytes: bits 6 to 0 an entry of the table, bit 7 the indicator (30_encoding.md R95, R96). DESIGN CHOICE (log 28):
where an instantiation gives several digits one pattern, the byte is read as the lowest of them. -/
def decodeSegb (p : Params) (b : Byte) : Except DecodeError Instr :=
  match (List.finRange 10).find? (fun d => p.segTable[d] == b &&& 0x7F) with
  | some d => .ok (segByteInstr d (b.getLsbD 7))
  | none => .error .notASegmentByte

/-- Decoding is total: an operation or a refusal by name. The parameters give the width of the host word and the bytes of
the wire. -/
def decode (p : Params) (c : Code) : Except DecodeError Instr :=
  match c.fmt with
  | .hostw =>
    if c.word < 2 ^ (8 + p.argBits) ∧ c.word < 2 ^ 128 then .ok (decodeHost (BitVec.ofNat 128 c.word)) else .error .tooWide
  | .uop => decodeUop c.word
  | .top => decodeTop c.word
  | .cmdb => if c.word < 256 then decodeCmdb p (BitVec.ofNat 8 c.word) else .error .tooWide
  | .ctrlb => if c.word < 256 then decodeCtrlb p (BitVec.ofNat 8 c.word) else .error .tooWide
  | .segb => if c.word < 256 then decodeSegb p (BitVec.ofNat 8 c.word) else .error .tooWide

/-- The bytes of each wire format are told apart: the command bytes differ, the "off" byte is no "on" byte, and no two digits
have one pattern. The spec asks it of no instantiation (00_scope.md R11); the defaults have it. Without it `decode` picks by
the order of log 28. -/
def Params.distinct (p : Params) : Bool :=
  p.dataCmd != p.addrCmd && p.ctrlOff &&& 0xF8 != p.ctrlOnMask &&
    (List.finRange 10).all fun d => (List.finRange 10).all fun e => d == e || p.segTable[d] != p.segTable[e]

/-- Packing a host word from its fields (30_encoding.md R91). -/
def hostWord (op : BitVec 3) (ind : Bool) (len : BitVec 4) (arg : HostArg) : HostWord :=
  arg ++ len ++ BitVec.ofBool ind ++ op

/-- The segment byte of a digit with its indicator bit in place (30_encoding.md R95, R96). -/
def segByteOf (p : Params) (d : Digit) (ind : Bool) : Byte :=
  p.segTable[d] ||| (if ind then Config.indMask else 0)

def hostCode (op : BitVec 3) (ind : Bool) (len : BitVec 4) (arg : HostArg) : Option Code :=
  some ⟨.hostw, (hostWord op ind len arg).toNat⟩

def segCode (p : Params) (d : Digit) (ind : Bool) : Option Code :=
  some ⟨.segb, (segByteOf p d ind).toNat⟩

/-- The encoder: fields a command does not use are written 0 (30_encoding.md R91); the operations with no code
(30_encoding.md R101) have none. -/
def encode (p : Params) : Instr → Option Code
  | .init => hostCode 0 false 0 0
  | .sendBytes len arg => hostCode 1 false len arg
  | .sendDigits ind len arg => hostCode 2 ind len arg
  | .sendNumber v => hostCode 3 false 0 (v.setWidth 120)
  | .enable => hostCode 4 false 0 0
  | .disable => hostCode 5 false 0 0
  | .setBrightness b => hostCode 6 false 0 (b.setWidth 120)
  | .teardown => hostCode 7 false 0 0
  | .clkLo => some ⟨.uop, 0⟩
  | .clkHi => some ⟨.uop, 1⟩
  | .dioLo => some ⟨.uop, 2⟩
  | .dioHi => some ⟨.uop, 3⟩
  | .dioSample => some ⟨.uop, 4⟩
  | .waitHalf => some ⟨.uop, 5⟩
  | .waitFull => some ⟨.uop, 6⟩
  | .start => some ⟨.top, 0⟩
  | .stop => some ⟨.top, 1⟩
  | .sendByte v => some ⟨.top, 256 * v.toNat + 2⟩
  | .waitAck => some ⟨.top, 3⟩
  | .dataCmd => some ⟨.cmdb, p.dataCmd.toNat⟩
  | .addrCmd => some ⟨.cmdb, p.addrCmd.toNat⟩
  | .ctrlOn b => some ⟨.ctrlb, (p.ctrlOnMask ||| b.setWidth 8).toNat⟩
  | .ctrlOff => some ⟨.ctrlb, p.ctrlOff.toNat⟩
  | .seg0 i => segCode p 0 i
  | .seg1 i => segCode p 1 i
  | .seg2 i => segCode p 2 i
  | .seg3 i => segCode p 3 i
  | .seg4 i => segCode p 4 i
  | .seg5 i => segCode p 5 i
  | .seg6 i => segCode p 6 i
  | .seg7 i => segCode p 7 i
  | .seg8 i => segCode p 8 i
  | .seg9 i => segCode p 9 i
  | .seg _ | .ind _ _ | .enc _ _ | .dec _ | .ctrl | .frame | .phaseC _ => none

/-- The byte that a wire row puts on the data line (formats `CMDB`, `CTRLB`, `SEGB`); none for the other rows. -/
def wireByteOf (p : Params) : Instr → Option Byte
  | .dataCmd => some p.dataCmd
  | .addrCmd => some p.addrCmd
  | .ctrlOn b => some (p.ctrlOnMask ||| b.setWidth 8)
  | .ctrlOff => some p.ctrlOff
  | .seg0 i => some (segByteOf p 0 i)
  | .seg1 i => some (segByteOf p 1 i)
  | .seg2 i => some (segByteOf p 2 i)
  | .seg3 i => some (segByteOf p 3 i)
  | .seg4 i => some (segByteOf p 4 i)
  | .seg5 i => some (segByteOf p 5 i)
  | .seg6 i => some (segByteOf p 6 i)
  | .seg7 i => some (segByteOf p 7 i)
  | .seg8 i => some (segByteOf p 8 i)
  | .seg9 i => some (segByteOf p 9 i)
  | .init | .sendBytes _ _ | .sendDigits _ _ _ | .sendNumber _ | .enable | .disable | .setBrightness _ | .teardown
  | .clkLo | .clkHi | .dioLo | .dioHi | .dioSample | .waitHalf | .waitFull
  | .start | .stop | .sendByte _ | .waitAck
  | .seg _ | .ind _ _ | .enc _ _ | .dec _ | .ctrl | .frame | .phaseC _ => none

/-- A code of a wire-byte format that decodes. -/
def isWireCode (p : Params) (f : Format) (w : Nat) : Bool :=
  match decode p ⟨f, w⟩ with
  | .ok _ => true
  | .error _ => false

/-- The format in which a table word is read when only its width and its bits are given (log 10). The command port is
the one place where the engine takes an operation from outside, so a word is a host word, the bits above `nbits`
zero; a single byte above 7 that is a byte of the wire is read as that byte; widths 2 and 3 are `TOP` and `UOP`.A byte that
belongs to several wire formats is read in the first of `CMDB`, `CTRLB`, `SEGB` (log 28). -/
def tableFormat (p : Params) (nbits w : Nat) : Format :=
  if nbits = 2 then .top
  else if nbits = 3 then .uop
  else if nbits = 8 ∧ 7 < w then
    if isWireCode p .cmdb w then .cmdb
    else if isWireCode p .ctrlb w then .ctrlb
    else if isWireCode p .segb w then .segb
    else .hostw
  else .hostw

/-- The operation of a table word numbered as spec/opcode_table.json numbers its bits, the table being written at the
default parameters; no code is the empty word. -/
def decodeTableWord (nbits w : Nat) : Option Instr :=
  if nbits = 0 then none
  else match decode Params.default ⟨tableFormat Params.default nbits w, w⟩ with
    | .ok i => some i
    | .error _ => none

end Sys2Proof
end

