-- ==== Sys2Proof/Machine/State.lean ====
section
/-!
DEFINITION. The state of the engine: every piece of state of spec/10_state.md (R44), the ports of R22 and R36, and the
model's own fields (the parameters of the instantiation, the inputs still to come, the counters of the free values, the
value an operation returned).
Plain data throughout.
-/
namespace Sys2Proof.Machine

/-- A three-valued line level: `x` is "not known to the engine" (00_scope.md R14). -/
inductive Level where
  | lo
  | hi
  | x
  deriving DecidableEq, Repr

/-- `LIFE`: UNBUILT is 0, LIVE is 1 (10_state.md R32). -/
inductive Life where
  | unbuilt
  | live
  deriving DecidableEq, Repr

/-- `SEQ.cmd`, the host command in progress (10_state.md R33). -/
inductive CmdName where
  | idle
  | init
  | sendBytes
  | sendDigits
  | sendNumber
  | enable
  | disable
  | setBrightness
  | teardown
  deriving DecidableEq, Repr

/-- `SEQ.phase` (10_state.md R33). -/
inductive Phase where
  | none
  | a
  | b
  | c
  deriving DecidableEq, Repr

/-- `SEQ.rt`, the transport routine in progress (10_state.md R33). -/
inductive Routine where
  | none
  | start
  | sendByte
  | waitAck
  | stop
  | initSeq
  deriving DecidableEq, Repr

/-- `SEQ`, the sequencer, which stands where a program counter would (10_state.md R33). `payload` is the model's own
bit: the byte of phase (b) now on the wire is a payload byte and not the address command (log 11). -/
structure Seq where
  cmd : CmdName
  phase : Phase
  rt : Routine
  step : Nat
  payload : Bool
  deriving DecidableEq, Repr

/-- `SEQ` between commands: IDLE, NONE, NONE, 0 (10_state.md R33). -/
def Seq.idle : Seq := ⟨.idle, .none, .none, 0, false⟩

/-- The response statuses (60_exceptions.md R230); code 7 is never produced and is left out of the type. -/
inductive Status where
  | ok
  | lineFault
  | ackTimeout
  | badBrightness
  | badDigit
  | badLength
  | badLifecycle
  deriving DecidableEq, Repr

/-- The exceptions (60_exceptions.md R231 to R234). -/
inductive Exn where
  | lineFault (e : ErrVal)
  | ackTimeout
  | badBrightness
  | badDigit
  | badLength
  | badLifecycle
  deriving DecidableEq, Repr

/-- One response: the status, and `e` on LINE_FAULT (10_state.md R36; 60_exceptions.md R230). -/
structure Response where
  status : Status
  err : Option ErrVal
  deriving DecidableEq, Repr

/-- One entry of the trace, named by the tokens of 00_scope.md R16. -/
inductive Tok where
  | c0
  | c1
  | d0
  | d1
  | s0
  | s1
  | wh
  | wf
  | c0e (e : ErrVal)
  | c1e (e : ErrVal)
  | d0e (e : ErrVal)
  | d1e (e : ErrVal)
  | se (e : ErrVal)
  deriving DecidableEq, Repr

/-- The seven line actions (40_line_actions.md). -/
inductive Act where
  | clkLo
  | clkHi
  | dioLo
  | dioHi
  | dioSample
  | waitHalf
  | waitFull
  deriving DecidableEq, Repr

/-- The value the last operation with a result returned to its caller (`return b` of 40_line_actions.md R134, the
results of 42_encoders.md). The model's own field: the spec gives a returned value no register (log 12). -/
inductive Ret where
  | none
  | bit (b : Bool)
  | byte (b : Byte)
  | bytes (bs : List Byte)
  | digits (ds : List Digit)
  deriving DecidableEq, Repr

/-- The state of the engine. -/
@[ext]
structure State where
  /-- MODEL'S OWN, a constant: the parameters of the instantiation, which no operation writes (00_scope.md R10; log 27) -/
  cfg : Params
  /-- `LIFE` (10_state.md R32) -/
  life : Life
  /-- `SEQ` (10_state.md R33) -/
  seq : Seq
  /-- `CLK`, the clock line's shadow register (10_state.md R24) -/
  clk : Level
  /-- `DIO`, the data line's shadow register (10_state.md R24) -/
  dio : Level
  /-- `clk_o`, the level on the clock output (10_state.md R22) -/
  clkO : Bool
  /-- `dio_o`, the level on the data output (10_state.md R22) -/
  dioO : Bool
  /-- `BR`, the brightness (10_state.md R34) -/
  br : BitVec 3
  /-- `EN`, the engine's belief that the display is on (10_state.md R39) -/
  en : Bool
  /-- `LF`, the sticky line-fault flag (10_state.md R40) -/
  lf : Bool
  /-- `ST`, the status of the last response, presented as `rsp_status` (10_state.md R37) -/
  st : Status
  /-- `ERRV`, the error value of the last LINE_FAULT, presented as `rsp_err` (10_state.md R37) -/
  errv : ErrVal
  /-- `SR`, the shift register (10_state.md R26) -/
  sr : Byte
  /-- `BC`, the bit counter (10_state.md R27) -/
  bc : BitVec 4
  /-- `AC`, the acknowledgment poll counter (10_state.md R28) -/
  ac : Byte
  /-- `PB`, the payload buffer: its bytes are those below `PAYLOAD_MAX`, the others do not exist (10_state.md R29; log 6) -/
  pb : Vector Byte Config.payloadTop
  /-- `PLEN`, the number of valid bytes in `PB` (10_state.md R30) -/
  plen : BitVec 4
  /-- `PI`, the payload index (10_state.md R31) -/
  pi : BitVec 4
  /-- `CMD`, the captured host word (10_state.md R31, R36) -/
  cmd : HostWord
  /-- `TR`, the trace, oldest entry first (10_state.md R38) -/
  tr : List Tok
  /-- `rsp_valid` (10_state.md R36, R42; log 13) -/
  rspValid : Bool
  /-- The responses given since power-on, oldest first: part of a run's result (70_reset_and_hazards.md R292; log 13) -/
  responses : List Response
  /-- MODEL'S OWN, an input: the words the host has still to present, next first. `cmd_valid` is "there is one",
  `cmd_word` is the first (10_state.md R21, R36; log 1) -/
  host : List HostWord
  /-- MODEL'S OWN, an input: the scripted draws of the environment, next first (10_state.md R21; log 2) -/
  draws : List Draw
  /-- MODEL'S OWN: how many draws have been made (log 2) -/
  drawn : Nat
  /-- MODEL'S OWN: how many events have left a value unspecified (log 3) -/
  fresh : Nat
  /-- MODEL'S OWN: the value last returned to a caller (log 12) -/
  ret : Ret
  deriving DecidableEq, Repr

/-- Why a step stops. -/
inductive Fault where
  /-- `SEQ` names a command in progress and a step that is in no step table (spec/41_transport.md, 44_lifecycle.md R210):
  raised by the sequencer. Safe: the machine stops where the spec has no position; no run reaches such a state. -/
  | sequencerLost
  /-- The word at the command port decoded to an operation that is no host command: raised at acceptance. Safe, and never
  reached: all eight op codes are host commands (spec/30_encoding.md R92). -/
  | notAHostCommand
  deriving DecidableEq, Repr

/-- Why an operation has no meaning. -/
inductive Refusal where
  /-- An operation of the table that is not modelled yet: raised by exec's arm of that name. Safe. No arm raises it. -/
  | notModelled (mnemonic : String)
  deriving DecidableEq, Repr

/-- Power-on (10_state.md R42). The registers R42 leaves unspecified (`BR`, `SR`, `BC`, `AC`, `PB`, `PLEN`, `PI`, `CMD`,
`ERRV`) and the two output wires hold zero: DESIGN CHOICE, unsafe, log 4. The parameters are the defaults of 00_scope.md R10
(log 15), no host word waits and no draw is scripted. -/
def State.reset : State where
  cfg := Params.default
  life := .unbuilt
  seq := Seq.idle
  clk := .x
  dio := .x
  clkO := false
  dioO := false
  br := 0
  en := false
  lf := false
  st := .ok
  errv := ⟨0⟩
  sr := 0
  bc := 0
  ac := 0
  pb := Vector.replicate Config.payloadTop 0
  plen := 0
  pi := 0
  cmd := 0
  tr := []
  rspValid := false
  responses := []
  host := []
  draws := []
  drawn := 0
  fresh := 0
  ret := .none

end Sys2Proof.Machine
end

