-- ==== Sys2Proof/Machine/Flags.lean ====
section
/-!
DEFINITION. Status, flags and codes: the 3-bit status codes, the fixed effect of a response on the ports and on `ST`,
and the updates of `EN`, `LF` and `LIFE`. There are no condition codes (spec/10_state.md R41); the conditions the
sequencer tests are tested where its rules test them.
-/
namespace Sys2Proof.Machine

/-- The code of a status on `rsp_status` (60_exceptions.md R230). -/
def Status.code : Status → BitVec 3
  | .ok => 0
  | .lineFault => 1
  | .ackTimeout => 2
  | .badBrightness => 3
  | .badDigit => 4
  | .badLength => 5
  | .badLifecycle => 6

/-- The status an exception is reported as (60_exceptions.md R230). -/
def Exn.status : Exn → Status
  | .lineFault _ => .lineFault
  | .ackTimeout => .ackTimeout
  | .badBrightness => .badBrightness
  | .badDigit => .badDigit
  | .badLength => .badLength
  | .badLifecycle => .badLifecycle

/-- What the response to an exception carries: `e` of a LineFault, nothing else (60_exceptions.md R230). -/
def Exn.carried : Exn → Option ErrVal
  | .lineFault e => some e
  | .ackTimeout | .badBrightness | .badDigit | .badLength | .badLifecycle => none

/-- The encoding of `LIFE` (10_state.md R32). -/
def Life.bit : Life → BitVec 1
  | .unbuilt => 0
  | .live => 1

/-- The known level of a driven line. -/
def levelOf (hi : Bool) : Level := if hi then .hi else .lo

/-- `cmd_ready`: 1 exactly when no command is in progress (10_state.md R36). -/
def State.cmdReady (s : State) : Bool := s.seq.cmd == .idle

/-- `cmd_valid`: the host presents a word (10_state.md R36). -/
def State.cmdValid (s : State) : Bool := !s.host.isEmpty

/-- `cmd_word`, when the host presents one: the bits the wires of the port carry (10_state.md R36). -/
def State.cmdWord (s : State) : Option HostWord := s.host.head?.map s.cfg.onPort

/-- `rsp_status`, the response port's view of `ST` (10_state.md R37). DESIGN CHOICE (log 26): the port shows `ST`'s code at all
times; R36 and R37 say what it carries while `rsp_valid = 1` only. -/
def State.rspStatus (s : State) : BitVec 3 := s.st.code

/-- `rsp_err`, the response port's view of `ERRV` (10_state.md R37). DESIGN CHOICE (log 26): the port shows `ERRV` at all times;
R36 and R37 say what it carries while a LINE_FAULT is presented only. -/
def State.rspErr (s : State) : ErrVal := s.errv

/-- Ending a command and presenting a response (10_state.md R37): `ST`, `rsp_valid`, and `SEQ` idle with its other fields
cleared (10_state.md R33). -/
def respond (st : Status) (carried : Option ErrVal) (s : State) : State :=
  { s with
    st := st
    rspValid := true
    responses := s.responses ++ [⟨st, carried⟩]
    seq := Seq.idle }

/-- A value of `E` from a number: `n` itself where `E` has a value for every number, else one of its values (log 5). With `E`
empty it has no meaning, and then `ERRV` has no value to hold either. -/
def anyErr (p : Params) (n : Nat) : ErrVal :=
  match p.errors with
  | none => ⟨n⟩
  | some k => ⟨n % k⟩

/-- `ERRV` is unspecified after a command that ran and did not end in LINE_FAULT (10_state.md R37): a free value. -/
def freeErrv (s : State) : State :=
  { s with errv := anyErr s.cfg (Config.freeNat s.fresh 0), fresh := s.fresh + 1 }

/-- The normal end of a command: `respond(OK)` (10_state.md R37). -/
def respondOk (s : State) : State := respond .ok none (freeErrv s)

/-- A free 4-bit value within the range the spec gives the register, 0 to `top` (10_state.md R27, R30, R31). -/
def freeUpTo (top event place : Nat) : BitVec 4 := BitVec.ofNat 4 (Config.freeNat event place % (top + 1))

/-- The end of TEARDOWN (44_lifecycle.md R215): `LIFE`, `EN`, `LF` and the shadow registers at their power-on values,
every register that R44 leaves unspecified there a free value within its range, the outputs unasserted (the pins are the
platform's again), and the response `OK`, whatever the disable inside did. `CMD` and `TR` are kept. -/
def teardownEnd (s : State) : State :=
  respond .ok none
    { s with
      life := .unbuilt
      en := false
      lf := false
      clk := .x
      dio := .x
      clkO := Config.freeNat s.fresh 1 % 2 == 1
      dioO := Config.freeNat s.fresh 2 % 2 == 1
      br := BitVec.ofNat 3 (Config.freeNat s.fresh 3)
      errv := anyErr s.cfg (Config.freeNat s.fresh 0)
      sr := BitVec.ofNat 8 (Config.freeNat s.fresh 4)
      bc := freeUpTo 8 s.fresh 5
      ac := BitVec.ofNat 8 (Config.freeNat s.fresh 6)
      pb := Vector.ofFn fun i =>
        if i.val < s.cfg.payloadMax then BitVec.ofNat 8 (Config.freeNat s.fresh (16 + i.val)) else s.pb[i]
      plen := freeUpTo s.cfg.payloadMax s.fresh 7
      pi := freeUpTo s.cfg.payloadMax s.fresh 8
      fresh := s.fresh + 1 }

/-- `EN <- b` (10_state.md R39). -/
def State.setEn (b : Bool) (s : State) : State := { s with en := b }

/-- `BR <- b` (10_state.md R34). -/
def State.setBr (b : BitVec 3) (s : State) : State := { s with br := b }

/-- `LIFE <- LIVE` (10_state.md R32). -/
def State.build (s : State) : State := { s with life := .live }

/-- `LF <- 0` (10_state.md R40). -/
def State.clearFault (s : State) : State := { s with lf := false }

/-- `ERRV <- e` (10_state.md R37). -/
def State.recordErr (e : ErrVal) (s : State) : State := { s with errv := e }

/-- The updates that end each command well, before its `respond(OK)`: `LIFE`, `BR` and `EN` of INIT
(44_lifecycle.md R210), `EN <- 1` of the sends and of ENABLE, `EN <- 0` of DISABLE (10_state.md R39), and TEARDOWN's. -/
def finishCommand (s : State) : State :=
  match s.seq.cmd with
  | .init => respondOk ((s.build.setBr Config.brightnessInit).setEn true)
  | .sendBytes | .sendDigits | .sendNumber | .enable => respondOk (s.setEn true)
  | .disable => respondOk (s.setEn false)
  | .setBrightness => respondOk s
  | .teardown => teardownEnd s
  | .idle => s

end Sys2Proof.Machine
end

