-- ==== Sys2Proof/Machine/Ops.lean ====
section
/-!
DEFINITION. The shared operations: the draws of the environment, taking an exception, the seven line actions, a sequence
of them, and the payload buffer. Every register, line and trace effect of the engine goes through these.
-/
namespace Sys2Proof.Machine

/-- A draw as an outcome of the instantiation: a failure carries a value of `E`, and where `E` is empty there is no failure
(00_scope.md R12; log 5). Every outcome of the instantiation is its own. -/
def outcome (p : Params) : Draw → Draw
  | .ok b => .ok b
  | .err e => if p.errors = some 0 then .ok (e.token % 2 == 1) else .err (anyErr p e.token)

/-- The `i`-th draw from now: scripted while the script lasts, a free value after it (40_line_actions.md R137; log 2). -/
def State.drawAt (s : State) (i : Nat) : Draw :=
  outcome s.cfg <| match s.draws[i]? with
    | some d => d
    | none => Config.freeDraw (s.drawn + i)

/-- The state after `n` draws have been made. -/
def State.skipDraws (n : Nat) (s : State) : State :=
  { s with draws := s.draws.drop n, drawn := s.drawn + n }

/-- How a piece of a rule ends: it goes on, or the command in progress is over (an exception was raised or the response
was given) and nothing after this point is performed (60_exceptions.md R240). -/
inductive Flow where
  | go (s : State)
  | ended (s : State)
  deriving DecidableEq, Repr

/-- What follows, performed only if the command is not over (60_exceptions.md R240). -/
def Flow.bind (f : Flow) (k : State → Flow) : Flow :=
  match f with
  | .go s => k s
  | .ended s => .ended s

/-- The state a piece of a rule leaves. -/
def Flow.state : Flow → State
  | .go s => s
  | .ended s => s

/-- TAKING AN EXCEPTION, `raise X` (60_exceptions.md R240): the command in progress ends, `SEQ` is idle and cleared, `ST`
is the exception's code and the response is presented; a LineFault records `e` in `ERRV` (R231), an AckTimeout leaves
`ERRV` unspecified (10_state.md R37), a refused command changes `ST` and `SEQ` only (R243). A LineFault or AckTimeout of
TEARDOWN's own disable is caught and discarded there, and the teardown completes (44_lifecycle.md R215, R245). -/
def raise (x : Exn) (s : State) : State :=
  match x with
  | .lineFault e =>
    if s.seq.cmd = .teardown then teardownEnd s else respond x.status x.carried (s.recordErr e)
  | .ackTimeout =>
    if s.seq.cmd = .teardown then teardownEnd s else respond x.status x.carried (freeErrv s)
  | .badBrightness | .badDigit | .badLength | .badLifecycle => respond x.status x.carried s

/-- `raise X`, as the end of a piece of a rule. -/
def Flow.raise (x : Exn) (s : State) : Flow := .ended (Sys2Proof.Machine.raise x s)

/-- The token of a clock drive, done or failed (00_scope.md R16). -/
def clkTok (hi : Bool) : Tok := if hi then .c1 else .c0

def clkErrTok (hi : Bool) (e : ErrVal) : Tok := if hi then .c1e e else .c0e e

/-- The token of a data drive, done or failed (00_scope.md R16). -/
def dioTok (hi : Bool) : Tok := if hi then .d1 else .d0

def dioErrTok (hi : Bool) (e : ErrVal) : Tok := if hi then .d1e e else .d0e e

/-- The token of a sample (00_scope.md R16). -/
def sampleTok (hi : Bool) : Tok := if hi then .s1 else .s0

/-- One more entry of the trace (10_state.md R38). -/
def State.logTok (t : Tok) (s : State) : State := { s with tr := s.tr ++ [t] }

/-- The clock line: what is driven on it and what its shadow register knows (10_state.md R22, R24). -/
def State.setClk (out : Bool) (known : Level) (s : State) : State := { s with clkO := out, clk := known }

/-- The data line: what is driven on it and what its shadow register knows (10_state.md R22, R24). -/
def State.setDio (out : Bool) (known : Level) (s : State) : State := { s with dioO := out, dio := known }

/-- `LF <- 1` (10_state.md R40); the failure is an event after which values may be free (log 3). -/
def State.markFault (s : State) : State := { s with lf := true, fresh := s.fresh + 1 }

/-- A result returned to the caller (log 12). -/
def State.returning (r : Ret) (s : State) : State := { s with ret := r }

/-- CLK_LO and CLK_HI (40_line_actions.md R130, R131): the outcome is drawn; a failed drive leaves the shadow register
`X`, asserts nothing of the wire (R137: a free value), sets `LF`, and raises LineFault. -/
def driveClk (hi : Bool) (s : State) : Flow :=
  match s.drawAt 0 with
  | .ok _ => .go (((s.skipDraws 1).setClk hi (levelOf hi)).logTok (clkTok hi))
  | .err e =>
    .raise (.lineFault e)
      ((((s.skipDraws 1).setClk (Config.freeNat s.fresh 1 % 2 == 1) .x).markFault).logTok (clkErrTok hi e))

/-- DIO_LO and DIO_HI (40_line_actions.md R132, R133). -/
def driveDio (hi : Bool) (s : State) : Flow :=
  match s.drawAt 0 with
  | .ok _ => .go (((s.skipDraws 1).setDio hi (levelOf hi)).logTok (dioTok hi))
  | .err e =>
    .raise (.lineFault e)
      ((((s.skipDraws 1).setDio (Config.freeNat s.fresh 2 % 2 == 1) .x).markFault).logTok (dioErrTok hi e))

/-- DIO_SAMPLE (40_line_actions.md R134): the level is drawn at this moment and returned; a failed sample changes neither
shadow register. -/
def sampleDio (s : State) : Flow :=
  match s.drawAt 0 with
  | .ok b => .go (((s.skipDraws 1).returning (.bit b)).logTok (sampleTok b))
  | .err e => .raise (.lineFault e) (((s.skipDraws 1).markFault).logTok (.se e))

/-- WAIT_HALF (40_line_actions.md R135): an entry of the trace and nothing more; it cannot fail. -/
def pauseHalf (s : State) : Flow := .go (s.logTok .wh)

/-- WAIT_FULL (40_line_actions.md R136). -/
def pauseFull (s : State) : Flow := .go (s.logTok .wf)

/-- The argument each wait passes to the delay primitive, never any other (10_state.md R23, R35). -/
def Act.delayUs (p : Params) : Act → Option Word32
  | .waitHalf => some p.tHalfUs
  | .waitFull => some p.tFullUs
  | .clkLo | .clkHi | .dioLo | .dioHi | .dioSample => none

/-- A line action. -/
def Act.perform : Act → State → Flow
  | .clkLo => driveClk false
  | .clkHi => driveClk true
  | .dioLo => driveDio false
  | .dioHi => driveDio true
  | .dioSample => sampleDio
  | .waitHalf => pauseHalf
  | .waitFull => pauseFull

/-- The operation of the table that a line action is. -/
def Act.instr : Act → Instr
  | .clkLo => .clkLo
  | .clkHi => .clkHi
  | .dioLo => .dioLo
  | .dioHi => .dioHi
  | .dioSample => .dioSample
  | .waitHalf => .waitHalf
  | .waitFull => .waitFull

/-- Driving the data line to a bit. -/
def Act.ofBit (b : Bool) : Act := if b then .dioHi else .dioLo

/-- A sequence of line actions, each to its end before the next (20_memory.md R75). -/
def performAll : List Act → State → Flow
  | [], s => .go s
  | a :: as, s => (a.perform s).bind (performAll as)

/-- `PB[i]` (20_memory.md R62); no rule forms an index outside the buffer, and there the value is free. -/
def State.pbAt (s : State) (i : Nat) : Byte :=
  if h : i < Config.payloadTop ∧ i < s.cfg.payloadMax then s.pb[i]'h.1 else BitVec.ofNat 8 (Config.freeNat s.fresh (16 + i))

/-- Writing the resolved payload: bytes 0 to `PLEN - 1` and `PLEN`; the bytes above, up to `PAYLOAD_MAX - 1`, are
unspecified (10_state.md R29, R30): free values. -/
def loadPayload (bs : List Byte) (s : State) : State :=
  { s with
    pb := Vector.ofFn fun i => match bs[i.val]? with
      | some b => b
      | none => if i.val < s.cfg.payloadMax then BitVec.ofNat 8 (Config.freeNat s.fresh (16 + i.val)) else s.pb[i]
    plen := BitVec.ofNat 4 bs.length
    fresh := s.fresh + 1 }

end Sys2Proof.Machine
end

