-- ==== Sys2Proof/Machine/Operands.lean ====
section
/-!
DEFINITION. Operand forms and the arithmetic of the block: the items of the host word, the encoders SEG, IND, ENC, CTRL
and the decomposition DEC as functions (spec/42_encoders.md; spec/30_encoding.md R102).
-/
namespace Sys2Proof.Machine

/-- Item `i` of the operand, `arg[8i+7:8i]` (20_memory.md R68; 30_encoding.md R91). -/
def itemAt (arg : HostArg) (i : Nat) : Byte := arg.extractLsb' (8 * i) 8

/-- The first `len` items, in order; the items above are not looked at (43_framing.md R193, R194). -/
def items (len : BitVec 4) (arg : HostArg) : List Byte := (List.range len.toNat).map (itemAt arg)

/-- A digit item as a digit value, or nothing when it is above 9 (30_encoding.md R104). -/
def digitOf (b : Byte) : Option Digit := if h : b.toNat < 10 then some ⟨b.toNat, h⟩ else none

/-- All the items as digits, or nothing when any is above 9: one bad item rejects the whole operand (43_framing.md R192). -/
def digitsOf : List Byte → Option (List Digit)
  | [] => some []
  | b :: bs =>
    match digitOf b, digitsOf bs with
    | some d, some ds => some (d :: ds)
    | _, _ => none

/-- `MemRead(SEGROM, d, 1)` (20_memory.md R61). -/
def segRom (p : Params) (d : Digit) : Byte := p.segTable[d]

/-- SEG (42_encoders.md R170). -/
def seg (p : Params) (d : Digit) : Byte := segRom p d

/-- IND: the indicator bit merged into a segment byte (42_encoders.md R171). -/
def ind (s : Byte) (bit : Bool) : Byte := s ||| (if bit then Config.indMask else 0)

/-- ENC: a sequence of digits, same length and order (42_encoders.md R172). -/
def enc (p : Params) (ds : List Digit) (bit : Bool) : List Byte := ds.map fun d => ind (seg p d) bit

/-- The loop of DEC (42_encoders.md R174): the next digit goes in front. A 32-bit value is 0 after ten divisions. -/
def decLoop : Nat → Nat → List Digit → List Digit
  | 0, _, acc => acc
  | fuel + 1, v, acc =>
    if v = 0 then acc else decLoop fuel (v / 10) (⟨v % 10, Nat.mod_lt v (by decide)⟩ :: acc)

/-- DEC: the decimal digits, most significant first, no padding; 0 is one digit (42_encoders.md R174). -/
def dec (v : Word32) : List Digit := if v.toNat = 0 then [0] else decLoop 10 v.toNat []

/-- CTRL: the "on" display-control byte, `CTRL_ON_MASK | zext_8(BR)` (42_encoders.md R176). -/
def ctrl (p : Params) (br : BitVec 3) : Byte := p.ctrlOnMask ||| br.setWidth 8

end Sys2Proof.Machine
end

