-- ==== Sys2Proof/Machine/Encoders.lean ====
section
/-!
DEFINITION. The pure functions of spec/42_encoders.md as operations of the table: each reads the constants (CTRL also
`BR`), writes no register, performs no line action and raises nothing; its result is returned to the caller (log 12).
-/
namespace Sys2Proof.Machine

/-- SEG (42_encoders.md R170). -/
def execSeg (d : Digit) (s : State) : Host.Outcome State Fault Refusal := .next (s.returning (.byte (seg s.cfg d)))

/-- IND (42_encoders.md R171). -/
def execInd (b : Byte) (bit : Bool) (s : State) : Host.Outcome State Fault Refusal :=
  .next (s.returning (.byte (ind b bit)))

/-- ENC (42_encoders.md R172). -/
def execEnc (ds : List Digit) (bit : Bool) (s : State) : Host.Outcome State Fault Refusal :=
  .next (s.returning (.bytes (enc s.cfg ds bit)))

/-- DEC (42_encoders.md R174). -/
def execDec (v : Word32) (s : State) : Host.Outcome State Fault Refusal := .next (s.returning (.digits (dec v)))

/-- CTRL (42_encoders.md R176). -/
def execCtrl (s : State) : Host.Outcome State Fault Refusal := .next (s.returning (.byte (ctrl s.cfg s.br)))

end Sys2Proof.Machine
end

