-- ==== Sys2Proof/Machine/LineActions.lean ====
section
/-!
DEFINITION. Level 0: the seven line actions as operations of the table (spec/40_line_actions.md). Each is one atomic
action with one entry of the trace (R138); the sequencer's move after it is the step's (Machine/Sequencer.lean).
-/
namespace Sys2Proof.Machine

/-- CLK_LO (40_line_actions.md R130). -/
def execClkLo (s : State) : Host.Outcome State Fault Refusal := .next (driveClk false s).state

/-- CLK_HI (40_line_actions.md R131). -/
def execClkHi (s : State) : Host.Outcome State Fault Refusal := .next (driveClk true s).state

/-- DIO_LO (40_line_actions.md R132). -/
def execDioLo (s : State) : Host.Outcome State Fault Refusal := .next (driveDio false s).state

/-- DIO_HI (40_line_actions.md R133). -/
def execDioHi (s : State) : Host.Outcome State Fault Refusal := .next (driveDio true s).state

/-- DIO_SAMPLE (40_line_actions.md R134). -/
def execDioSample (s : State) : Host.Outcome State Fault Refusal := .next (sampleDio s).state

/-- WAIT_HALF (40_line_actions.md R135). -/
def execWaitHalf (s : State) : Host.Outcome State Fault Refusal := .next (pauseHalf s).state

/-- WAIT_FULL (40_line_actions.md R136). -/
def execWaitFull (s : State) : Host.Outcome State Fault Refusal := .next (pauseFull s).state

end Sys2Proof.Machine
end

