-- ==== Sys2Proof/Machine/Transport.lean ====
section
/-!
DEFINITION. Level 1: the transport routines START, STOP, SEND_BYTE, WAIT_ACK and the sequence of INIT, each run to its end
as the pseudocode of spec/41_transport.md has it (`call`, spec/00_scope.md R15), and their step tables.
-/
namespace Sys2Proof.Machine

/-- The step table of START (41_transport.md R150). -/
def startActs : List Act := [.clkHi, .dioHi, .waitFull, .dioLo, .waitFull, .clkLo, .waitHalf]

/-- The step table of STOP (41_transport.md R151). -/
def stopActs : List Act := [.clkLo, .waitFull, .dioLo, .waitFull, .clkHi, .waitFull, .dioHi, .waitFull]

/-- The line actions of INIT: both lines high, clock first, then the settle period (44_lifecycle.md R210). -/
def initActs : List Act := [.clkHi, .dioHi, .waitFull]

/-- One bit cell, steps `6*BC` to `6*BC+5` of SEND_BYTE (41_transport.md R152; 30_encoding.md R94). -/
def cellActs (b : Bool) : List Act := [Act.ofBit b, .waitHalf, .clkHi, .waitFull, .clkLo, .waitHalf]

/-- What follows the sample that returned 0, steps 2 to 5 of WAIT_ACK (41_transport.md R153). -/
def ackActs : List Act := [.waitFull, .clkHi, .waitFull, .clkLo]

/-- The register updates after a bit cell: `SR <- SR >> 1 ; BC <- BC + 1` (41_transport.md R152). -/
def shiftOut (s : State) : State := { s with sr := s.sr >>> 1, bc := s.bc + 1 }

/-- `AC <- 0` (41_transport.md R153). -/
def clearPoll (s : State) : State := { s with ac := 0 }

/-- The update after a sample of the poll: `AC <- AC + 1` (41_transport.md R153). -/
def countSample (s : State) : State := { s with ac := s.ac + 1 }

/-- The start condition (41_transport.md R150). -/
def startCondition (s : State) : Flow := performAll startActs s

/-- The stop condition (41_transport.md R151). -/
def stopCondition (s : State) : Flow := performAll stopActs s

/-- The poll loop of WAIT_ACK with `left` samples still allowed; `AC` counts them up and is 255 when none is left
(41_transport.md R153). -/
def poll : Nat → State → Flow
  | 0, s => .raise .ackTimeout s
  | left + 1, s =>
    (sampleDio s).bind fun s =>
      let s := countSample s
      if s.ret = .bit true then (pauseFull s).bind (poll left)
      else performAll ackActs s

/-- WAIT_ACK (41_transport.md R153): at most `ACK_POLL_MAX` samples. -/
def waitAck (s : State) : Flow := poll Config.ackPollMax (clearPoll s)

/-- The bit loop of SEND_BYTE with `left` bits still to send, least significant bit first (41_transport.md R152). -/
def sendBits : Nat → State → Flow
  | 0, s => .go s
  | left + 1, s => (performAll (cellActs (s.sr.getLsbD 0)) s).bind fun s => sendBits left (shiftOut s)

/-- Loading the shift register: `SR <- v ; BC <- 0` (41_transport.md R152). -/
def loadByte (v : Byte) (s : State) : State := { s with sr := v, bc := 0 }

/-- SEND_BYTE (41_transport.md R152): eight bit cells, the release of the data line, WAIT_ACK, the tail wait. -/
def sendByte (v : Byte) (s : State) : Flow :=
  (sendBits 8 (loadByte v s)).bind fun s =>
    (driveDio true s).bind fun s =>
      (waitAck s).bind pauseHalf

/-- START, run to its end (41_transport.md R150). -/
def execStart (s : State) : Host.Outcome State Fault Refusal := .next (startCondition s).state

/-- STOP, run to its end (41_transport.md R151). -/
def execStop (s : State) : Host.Outcome State Fault Refusal := .next (stopCondition s).state

/-- SEND_BYTE, run to its end (41_transport.md R152). -/
def execSendByte (v : Byte) (s : State) : Host.Outcome State Fault Refusal := .next (sendByte v s).state

/-- WAIT_ACK, run to its end (41_transport.md R153). -/
def execWaitAck (s : State) : Host.Outcome State Fault Refusal := .next (waitAck s).state

end Sys2Proof.Machine
end

