-- ==== Sys2Proof/Machine/Framing.lean ====
section
/-!
DEFINITION. Level 2: the three-phase frame, phase (c) alone, and the send commands (spec/43_framing.md). A send is its
resolve part (`begin…`: the checks and the payload, no line action, R192) and then the frame and the end of the command.
-/
namespace Sys2Proof.Machine

/-- `SEQ.phase <- p` (43_framing.md R190, R191). -/
def State.inPhase (p : Phase) (s : State) : State := { s with seq := { s.seq with phase := p } }

/-- PHASE_C (43_framing.md R191). -/
def phaseC (c : Byte) (s : State) : Flow :=
  (startCondition (s.inPhase .c)).bind fun s => (sendByte c s).bind stopCondition

/-- `PI <- 0` (43_framing.md R190). -/
def clearIndex (s : State) : State := { s with pi := 0 }

/-- `PI <- PI + 1` (43_framing.md R190). -/
def nextIndex (s : State) : State := { s with pi := s.pi + 1 }

/-- The payload loop of phase (b) with `left` bytes still to send (43_framing.md R190). -/
def sendPayload : Nat → State → Flow
  | 0, s => .go s
  | left + 1, s => (sendByte (s.pbAt s.pi.toNat) s).bind fun s => sendPayload left (nextIndex s)

/-- FRAME (43_framing.md R190): phases (a), (b) and (c). -/
def frame (s : State) : Flow :=
  (startCondition (s.inPhase .a)).bind fun s =>
  (sendByte s.cfg.dataCmd s).bind fun s =>
  (stopCondition s).bind fun s =>
  (startCondition (s.inPhase .b)).bind fun s =>
  (sendByte s.cfg.addrCmd s).bind fun s =>
  (sendPayload s.plen.toNat (clearIndex s)).bind fun s =>
  (stopCondition s).bind fun s =>
  phaseC (ctrl s.cfg s.br) s

/-- The end of a command: `EN`, `LIFE`, `BR` as its rule says, then `respond(OK)`; nothing follows. -/
def finish (s : State) : Flow := .ended (finishCommand s)

/-- `SEQ` at the first line action of a command (10_state.md R33). -/
def State.position (c : CmdName) (p : Phase) (r : Routine) (s : State) : State := { s with seq := ⟨c, p, r, 0, false⟩ }

/-- The lifecycle check of every command but INIT, made before anything else (60_exceptions.md R234). -/
def requireLive (s : State) (k : State → Flow) : Flow := if s.life = .live then k s else .raise .badLifecycle s

/-- The resolve part of SEND_BYTES (43_framing.md R193): lifecycle, length, payload. -/
def beginSendBytes (len : BitVec 4) (arg : HostArg) (s : State) : Flow :=
  requireLive s fun s =>
    if s.cfg.payloadMax < len.toNat then .raise .badLength s
    else .go ((loadPayload (items len arg) s).position .sendBytes .a .start)

/-- The resolve part of SEND_DIGITS (43_framing.md R194): lifecycle, length, every digit, payload. -/
def beginSendDigits (bit : Bool) (len : BitVec 4) (arg : HostArg) (s : State) : Flow :=
  requireLive s fun s =>
    if s.cfg.payloadMax < len.toNat then .raise .badLength s
    else match digitsOf (items len arg) with
      | none => .raise .badDigit s
      | some ds => .go ((loadPayload (enc s.cfg ds bit) s).position .sendDigits .a .start)

/-- The resolve part of SEND_NUMBER (43_framing.md R195): lifecycle, digit count, payload; no indicator bit. -/
def beginSendNumber (v : Word32) (s : State) : Flow :=
  requireLive s fun s =>
    if s.cfg.payloadMax < (dec v).length then .raise .badLength s
    else .go ((loadPayload ((dec v).map (seg s.cfg)) s).position .sendNumber .a .start)

/-- SEND_BYTES, run to its end (43_framing.md R193). -/
def execSendBytes (len : BitVec 4) (arg : HostArg) (s : State) : Host.Outcome State Fault Refusal :=
  .next (((beginSendBytes len arg s).bind frame).bind finish).state

/-- SEND_DIGITS, run to its end (43_framing.md R194). -/
def execSendDigits (bit : Bool) (len : BitVec 4) (arg : HostArg) (s : State) : Host.Outcome State Fault Refusal :=
  .next (((beginSendDigits bit len arg s).bind frame).bind finish).state

/-- SEND_NUMBER, run to its end (43_framing.md R195). -/
def execSendNumber (v : Word32) (s : State) : Host.Outcome State Fault Refusal :=
  .next (((beginSendNumber v s).bind frame).bind finish).state

/-- FRAME, run to its end (43_framing.md R190). -/
def execFrame (s : State) : Host.Outcome State Fault Refusal := .next (frame s).state

/-- PHASE_C, run to its end (43_framing.md R191). -/
def execPhaseC (c : Byte) (s : State) : Host.Outcome State Fault Refusal := .next (phaseC c s).state

end Sys2Proof.Machine
end

