-- ==== Sys2Proof/Machine/Lifecycle.lean ====
section
/-!
DEFINITION. Level 2: the commands that are not sends (spec/44_lifecycle.md). As in Machine/Framing.lean, `begin…` is what
a command does before its first line action.
-/
namespace Sys2Proof.Machine

/-- INIT up to its first line action (44_lifecycle.md R210): refused on a live instance, else `LF <- 0`. -/
def beginInit (s : State) : Flow :=
  if s.life = .live then .raise .badLifecycle s
  else .go (s.clearFault.position .init .none .initSeq)

/-- ENABLE up to its first line action (44_lifecycle.md R211). -/
def beginEnable (s : State) : Flow := requireLive s fun s => .go (s.position .enable .c .start)

/-- DISABLE up to its first line action (44_lifecycle.md R212). -/
def beginDisable (s : State) : Flow := requireLive s fun s => .go (s.position .disable .c .start)

/-- SET_BRIGHTNESS, all of it: it performs no line action (44_lifecycle.md R213). -/
def beginSetBrightness (b : Byte) (s : State) : Flow :=
  requireLive s fun s =>
    if Config.brMax < b.toNat then .raise .badBrightness s
    else .ended (respondOk (s.setBr (b.setWidth 3)))

/-- TEARDOWN up to its first line action (44_lifecycle.md R215). -/
def beginTeardown (s : State) : Flow := requireLive s fun s => .go (s.position .teardown .c .start)

/-- INIT, run to its end (44_lifecycle.md R210). -/
def execInit (s : State) : Host.Outcome State Fault Refusal :=
  .next (((beginInit s).bind (performAll initActs)).bind finish).state

/-- ENABLE, run to its end: phase (c) with the "on" byte (44_lifecycle.md R211). -/
def execEnable (s : State) : Host.Outcome State Fault Refusal :=
  .next (((beginEnable s).bind fun s => phaseC (ctrl s.cfg s.br) s).bind finish).state

/-- DISABLE, run to its end: phase (c) with the "off" byte (44_lifecycle.md R212). -/
def execDisable (s : State) : Host.Outcome State Fault Refusal :=
  .next (((beginDisable s).bind fun s => phaseC s.cfg.ctrlOff s).bind finish).state

/-- SET_BRIGHTNESS (44_lifecycle.md R213). -/
def execSetBrightness (b : Byte) (s : State) : Host.Outcome State Fault Refusal := .next (beginSetBrightness b s).state

/-- TEARDOWN, run to its end (44_lifecycle.md R215): the disable is best effort, since `raise` discards a LineFault or
AckTimeout while `SEQ.cmd` is TEARDOWN and completes the teardown. -/
def execTeardown (s : State) : Host.Outcome State Fault Refusal :=
  .next (((beginTeardown s).bind fun s => phaseC s.cfg.ctrlOff s).bind finish).state

end Sys2Proof.Machine
end

