-- ==== Sys2Proof/Machine/WireBytes.lean ====
section
/-!
DEFINITION. The bytes of the wire as operations of the table: the command bytes, the display-control bytes and the
segment bytes (spec/30_encoding.md R95 to R98). A byte's effect is its byte slot on the two lines (R94): SEND_BYTE of it.
-/
namespace Sys2Proof.Machine

/-- The byte slot `<v>` of a wire byte (30_encoding.md R94, R99). -/
def sendSlot (v : Byte) (s : State) : Host.Outcome State Fault Refusal := .next (sendByte v s).state

/-- `<DATA_CMD>` (30_encoding.md R98). -/
def execDataCmd (s : State) : Host.Outcome State Fault Refusal := sendSlot s.cfg.dataCmd s

/-- `<ADDR_CMD>` (30_encoding.md R98). -/
def execAddrCmd (s : State) : Host.Outcome State Fault Refusal := sendSlot s.cfg.addrCmd s

/-- `<CTRL_ON_MASK | b>` (30_encoding.md R97). -/
def execCtrlOn (b : BitVec 3) (s : State) : Host.Outcome State Fault Refusal := sendSlot (ctrl s.cfg b) s

/-- `<CTRL_OFF>` (30_encoding.md R97). -/
def execCtrlOff (s : State) : Host.Outcome State Fault Refusal := sendSlot s.cfg.ctrlOff s

/-- The slot of a digit's segment byte with its indicator bit (42_encoders.md R170, R171). -/
def execSeg0 (i : Bool) (s : State) : Host.Outcome State Fault Refusal := sendSlot (ind (seg s.cfg 0) i) s

def execSeg1 (i : Bool) (s : State) : Host.Outcome State Fault Refusal := sendSlot (ind (seg s.cfg 1) i) s

def execSeg2 (i : Bool) (s : State) : Host.Outcome State Fault Refusal := sendSlot (ind (seg s.cfg 2) i) s

def execSeg3 (i : Bool) (s : State) : Host.Outcome State Fault Refusal := sendSlot (ind (seg s.cfg 3) i) s

def execSeg4 (i : Bool) (s : State) : Host.Outcome State Fault Refusal := sendSlot (ind (seg s.cfg 4) i) s

def execSeg5 (i : Bool) (s : State) : Host.Outcome State Fault Refusal := sendSlot (ind (seg s.cfg 5) i) s

def execSeg6 (i : Bool) (s : State) : Host.Outcome State Fault Refusal := sendSlot (ind (seg s.cfg 6) i) s

def execSeg7 (i : Bool) (s : State) : Host.Outcome State Fault Refusal := sendSlot (ind (seg s.cfg 7) i) s

def execSeg8 (i : Bool) (s : State) : Host.Outcome State Fault Refusal := sendSlot (ind (seg s.cfg 8) i) s

def execSeg9 (i : Bool) (s : State) : Host.Outcome State Fault Refusal := sendSlot (ind (seg s.cfg 9) i) s

end Sys2Proof.Machine
end

