-- ==== Sys2Proof/Machine/Dispatch.lean ====
section
/-!
DEFINITION. The meaning of every operation of the table, run to its end. A host command is met here in the state that its
acceptance leaves (the word captured in `CMD`); Machine/Sequencer.lean performs the same operation one line action a step.
-/
namespace Sys2Proof.Machine

def exec (i : Instr) (s : State) : Host.Outcome State Fault Refusal :=
  match i with
  | .init => Sys2Proof.Machine.execInit s
  | .sendBytes len arg => Sys2Proof.Machine.execSendBytes len arg s
  | .sendDigits ind len arg => Sys2Proof.Machine.execSendDigits ind len arg s
  | .sendNumber value => Sys2Proof.Machine.execSendNumber value s
  | .enable => Sys2Proof.Machine.execEnable s
  | .disable => Sys2Proof.Machine.execDisable s
  | .setBrightness b => Sys2Proof.Machine.execSetBrightness b s
  | .teardown => Sys2Proof.Machine.execTeardown s
  | .clkLo => Sys2Proof.Machine.execClkLo s
  | .clkHi => Sys2Proof.Machine.execClkHi s
  | .dioLo => Sys2Proof.Machine.execDioLo s
  | .dioHi => Sys2Proof.Machine.execDioHi s
  | .dioSample => Sys2Proof.Machine.execDioSample s
  | .waitHalf => Sys2Proof.Machine.execWaitHalf s
  | .waitFull => Sys2Proof.Machine.execWaitFull s
  | .start => Sys2Proof.Machine.execStart s
  | .stop => Sys2Proof.Machine.execStop s
  | .sendByte v => Sys2Proof.Machine.execSendByte v s
  | .waitAck => Sys2Proof.Machine.execWaitAck s
  | .dataCmd => Sys2Proof.Machine.execDataCmd s
  | .addrCmd => Sys2Proof.Machine.execAddrCmd s
  | .ctrlOn brightness => Sys2Proof.Machine.execCtrlOn brightness s
  | .ctrlOff => Sys2Proof.Machine.execCtrlOff s
  | .seg0 ind => Sys2Proof.Machine.execSeg0 ind s
  | .seg1 ind => Sys2Proof.Machine.execSeg1 ind s
  | .seg2 ind => Sys2Proof.Machine.execSeg2 ind s
  | .seg3 ind => Sys2Proof.Machine.execSeg3 ind s
  | .seg4 ind => Sys2Proof.Machine.execSeg4 ind s
  | .seg5 ind => Sys2Proof.Machine.execSeg5 ind s
  | .seg6 ind => Sys2Proof.Machine.execSeg6 ind s
  | .seg7 ind => Sys2Proof.Machine.execSeg7 ind s
  | .seg8 ind => Sys2Proof.Machine.execSeg8 ind s
  | .seg9 ind => Sys2Proof.Machine.execSeg9 ind s
  | .seg d => Sys2Proof.Machine.execSeg d s
  | .ind b bit => Sys2Proof.Machine.execInd b bit s
  | .enc ds bit => Sys2Proof.Machine.execEnc ds bit s
  | .dec v => Sys2Proof.Machine.execDec v s
  | .ctrl => Sys2Proof.Machine.execCtrl s
  | .frame => Sys2Proof.Machine.execFrame s
  | .phaseC c => Sys2Proof.Machine.execPhaseC c s

end Sys2Proof.Machine
end

