-- ==== Sys2Proof/Machine/Sequencer.lean ====
section
/-!
DEFINITION. The sequencer (spec/10_state.md R33): the engine as it runs, one line action a step (92_eei_decisions.md D1).
When idle it accepts the host's next word and performs what the command does before its first line action; when a command
is in progress it performs the line action `SEQ` names, with the meaning of that action in `exec`, and moves `SEQ` on.
-/
namespace Sys2Proof.Machine

/-- `SEQ.step <- n`. -/
def State.atStep (n : Nat) (s : State) : State := { s with seq := { s.seq with step := n } }

/-- `SEQ.rt <- r ; SEQ.step <- 0`: the first step of a routine (10_state.md R33). -/
def State.enter (r : Routine) (s : State) : State := { s with seq := { s.seq with rt := r, step := 0 } }

/-- The action at a step of SEND_BYTE: step `6*BC + k` of a bit cell, 48 the release, 49 the tail (41_transport.md R152). -/
def byteAct (bit : Bool) (step : Nat) : Option Act :=
  if step < 48 then (cellActs bit)[step % 6]?
  else if step = 48 then some .dioHi
  else if step = 49 then some .waitHalf
  else none

/-- The action at a step of WAIT_ACK: 0 the sample, 1 the wait after a high level, 2 to 5 the rest (41_transport.md R153). -/
def ackAct (step : Nat) : Option Act := ([.dioSample, .waitFull] ++ ackActs)[step]?

/-- The line action `SEQ` names (10_state.md R33). -/
def currentAct (s : State) : Option Act :=
  match s.seq.rt with
  | .none => none
  | .start => startActs[s.seq.step]?
  | .stop => stopActs[s.seq.step]?
  | .initSeq => initActs[s.seq.step]?
  | .sendByte => byteAct (s.sr.getLsbD 0) s.seq.step
  | .waitAck => ackAct s.seq.step

/-- Calling SEND_BYTE with a byte (41_transport.md R152). -/
def enterByte (v : Byte) (s : State) : State := (loadByte v s).enter .sendByte

/-- Calling WAIT_ACK (41_transport.md R153). -/
def enterAck (s : State) : State := (clearPoll s).enter .waitAck

/-- Marking the byte of phase (b) now on the wire (log 11). -/
def State.inPayload (b : Bool) (s : State) : State := { s with seq := { s.seq with payload := b } }

/-- Calling STOP. -/
def enterStop (s : State) : State := (s.inPayload false).enter .stop

/-- The display-control byte of phase (c): `CTRL_OFF` for DISABLE and TEARDOWN, else `CTRL()` (30_encoding.md R102). -/
def controlByte (s : State) : Byte :=
  match s.seq.cmd with
  | .disable | .teardown => s.cfg.ctrlOff
  | .idle | .init | .sendBytes | .sendDigits | .sendNumber | .enable | .setBrightness => ctrl s.cfg s.br

/-- After START: the first byte of the phase (43_framing.md R190, R191). -/
def afterStart (s : State) : State :=
  match s.seq.phase with
  | .a => enterByte s.cfg.dataCmd s
  | .b => enterByte s.cfg.addrCmd s
  | .c => enterByte (controlByte s) s
  | .none => s

/-- The head of the payload loop, `while PI != PLEN` (43_framing.md R190). -/
def payloadHead (s : State) : State :=
  if s.pi = s.plen then enterStop s else enterByte (s.pbAt s.pi.toNat) (s.inPayload true)

/-- After a byte was acknowledged: in phase (b) the next payload byte, else the stop condition (43_framing.md R190). -/
def afterByte (s : State) : State :=
  match s.seq.phase with
  | .b => payloadHead (if s.seq.payload then nextIndex s else clearIndex s)
  | .a | .c | .none => enterStop s

/-- After STOP: the next phase, or the end of the command (43_framing.md R190, R191). -/
def afterStop (s : State) : State :=
  match s.seq.phase with
  | .a => (s.inPhase .b).enter .start
  | .b => (s.inPhase .c).enter .start
  | .c | .none => finishCommand s

/-- The sequencer's move after a line action that ended `ok` (10_state.md R33), with the register updates that stand
between two line actions (40_line_actions.md R138). -/
def advance (s : State) : State :=
  let n := s.seq.step
  match s.seq.rt with
  | .start => if n < 6 then s.atStep (n + 1) else afterStart s
  | .stop => if n < 7 then s.atStep (n + 1) else afterStop s
  | .initSeq => if n < 2 then s.atStep (n + 1) else finishCommand s
  | .sendByte =>
    if n < 48 then (if n % 6 = 5 then shiftOut s else s).atStep (n + 1)
    else if n = 48 then enterAck s
    else afterByte s
  | .waitAck =>
    if n = 0 then (countSample s).atStep (if s.ret = .bit true then 1 else 2)
    else if n = 1 then (if s.ac = 255 then raise .ackTimeout s else s.atStep 0)
    else if n < 5 then s.atStep (n + 1)
    else (s.enter .sendByte).atStep 49
  | .none => s

/-- What a host command does at acceptance, before its first line action; nothing for an operation that is no host
command. -/
def beginCommand (i : Instr) (s : State) : Option Flow :=
  match i with
  | .init => some (beginInit s)
  | .sendBytes len arg => some (beginSendBytes len arg s)
  | .sendDigits bit len arg => some (beginSendDigits bit len arg s)
  | .sendNumber v => some (beginSendNumber v s)
  | .enable => some (beginEnable s)
  | .disable => some (beginDisable s)
  | .setBrightness b => some (beginSetBrightness b s)
  | .teardown => some (beginTeardown s)
  | .clkLo | .clkHi | .dioLo | .dioHi | .dioSample | .waitHalf | .waitFull
  | .start | .stop | .sendByte _ | .waitAck
  | .dataCmd | .addrCmd | .ctrlOn _ | .ctrlOff
  | .seg0 _ | .seg1 _ | .seg2 _ | .seg3 _ | .seg4 _ | .seg5 _ | .seg6 _ | .seg7 _ | .seg8 _ | .seg9 _
  | .seg _ | .ind _ _ | .enc _ _ | .dec _ | .ctrl | .frame | .phaseC _ => none

/-- Accepting a word (10_state.md R36): it is captured in `CMD` and taken from the host, and the response port falls. -/
def State.capture (w : HostWord) (rest : List HostWord) (s : State) : State :=
  { s with cmd := w, host := rest, rspValid := false }

/-- The response, if one was presented, has been taken (log 13). -/
def State.dropResponse (s : State) : State := { s with rspValid := false }

/-- A step of the idle engine: with no word at the port nothing happens but that the response, if one was presented, has
been taken (log 13); with a word the command is accepted (10_state.md R36). -/
def acceptStep (s : State) : Host.Outcome State Fault Refusal :=
  match s.host with
  | [] => .next s.dropResponse
  | w :: rest =>
    match beginCommand (decodeHost (s.cfg.onPort w)) (s.capture (s.cfg.onPort w) rest) with
    | some f => .next f.state
    | none => .fault .notAHostCommand

/-- After a line action: `SEQ` moves on, unless the action failed and so ended the command (10_state.md R33). -/
def afterAct (s : State) : State := if s.seq.cmd = .idle then s else advance s

/-- A step of the busy engine: the line action `SEQ` names, then the sequencer's move. -/
def lineStep (s : State) : Host.Outcome State Fault Refusal :=
  match currentAct s with
  | none => .fault .sequencerLost
  | some a =>
    match exec a.instr s with
    | .next t => .next (afterAct t)
    | .fault f => .fault f
    | .refused r => .refused r

/-- One step of the engine. -/
def stepEngine (s : State) : Host.Outcome State Fault Refusal :=
  if s.seq.cmd = .idle then acceptStep s else lineStep s

/-- The word of a table row presented where the next step takes it (log 10): a host word at the command port of the idle
engine; a line action or a routine as the sequencer position that names it; a wire byte as the byte about to be sent. -/
def fetchAt (nbits w : Nat) (s : State) : State :=
  match tableFormat s.cfg nbits w with
  | .hostw => { s with host := BitVec.ofNat 128 w :: s.host, seq := Seq.idle }
  | .uop =>
    match w with
    | 0 => s.position .sendBytes .a .stop
    | 1 => s.position .sendBytes .a .start
    | 2 => (s.position .sendBytes .a .stop).atStep 2
    | 3 => (s.position .sendBytes .a .start).atStep 1
    | 4 => s.position .sendBytes .a .waitAck
    | 5 => (s.position .sendBytes .a .start).atStep 6
    | 6 => (s.position .sendBytes .a .start).atStep 2
    | _ => s
  | .top =>
    match w % 256 with
    | 0 => s.position .sendBytes .a .start
    | 1 => s.position .sendBytes .a .stop
    | 2 => enterByte (BitVec.ofNat 8 (w / 256)) (s.position .sendBytes .a .sendByte)
    | 3 => enterAck (s.position .sendBytes .a .waitAck)
    | _ => s
  | .cmdb | .ctrlb | .segb => enterByte (BitVec.ofNat 8 w) (s.position .sendBytes .a .sendByte)

end Sys2Proof.Machine
end

