-- ==== Sys2Proof/Machine/Step.lean ====
section
/-!
DEFINITION. One step of the engine, and the host's way to present a table word to it.
-/
namespace Sys2Proof.Machine

/-- One step: acceptance of a host word when idle, one line action when a command is in progress. -/
def step (s : State) : Host.Outcome State Fault Refusal := stepEngine s

/-- The state in which the next step takes the table word `w` of `nbits` bits. -/
def State.withFetchWord (s : State) (nbits w : Nat) : State := fetchAt nbits w s

end Sys2Proof.Machine
end

