-- ==== Sys2Proof/Safety.lean ====
section
/-!
DEFINITION. The terms in which claims are stated: the wire grammar of spec/30_encoding.md R94 and R99 as lists of trace
tokens, the runs of the environment that let a transmission complete, and the invariant of the sequencer.
-/
namespace Sys2Proof

/-- A line action whose outcome is `ok` (40_line_actions.md R137). -/
def Draw.isOk : Draw → Bool
  | .ok _ => true
  | .err _ => false

/-- The host commands (30_encoding.md R92). -/
def Instr.isHostCommand : Instr → Bool
  | .init | .sendBytes _ _ | .sendDigits _ _ _ | .sendNumber _ | .enable | .disable | .setBrightness _ | .teardown => true
  | .clkLo | .clkHi | .dioLo | .dioHi | .dioSample | .waitHalf | .waitFull
  | .start | .stop | .sendByte _ | .waitAck
  | .dataCmd | .addrCmd | .ctrlOn _ | .ctrlOff
  | .seg0 _ | .seg1 _ | .seg2 _ | .seg3 _ | .seg4 _ | .seg5 _ | .seg6 _ | .seg7 _ | .seg8 _ | .seg9 _
  | .seg _ | .ind _ _ | .enc _ _ | .dec _ | .ctrl | .frame | .phaseC _ => false

end Sys2Proof

namespace Sys2Proof.Machine

/-- `S`, the start condition (41_transport.md R150). -/
def Wire.start : List Tok := [.c1, .d1, .wf, .d0, .wf, .c0, .wh]

/-- `P`, the stop condition (41_transport.md R151). -/
def Wire.stop : List Tok := [.c0, .wf, .d0, .wf, .c1, .wf, .d1, .wf]

/-- A bit cell (30_encoding.md R94). -/
def Wire.cell (b : Bool) : List Tok := [if b then .d1 else .d0, .wh, .c1, .wf, .c0, .wh]

/-- The cells of bits `0` to `n - 1` of a byte, bit 0 first (20_memory.md R65). -/
def Wire.cells (v : Byte) (n : Nat) : List Tok := ((List.range n).map fun i => Wire.cell (v.getLsbD i)).flatten

/-- `k` samples that returned 1, each followed by its wait (41_transport.md R153). -/
def Wire.highs (k : Nat) : List Tok := (List.replicate k [Tok.s1, Tok.wf]).flatten

/-- The byte slot `<v>` whose acknowledgment came after `k` samples of 1 (30_encoding.md R94). -/
def Wire.slot (v : Byte) (k : Nat) : List Tok :=
  Wire.cells v 8 ++ [.d1] ++ Wire.highs k ++ [.s0, .wf, .c1, .wf, .c0] ++ [.wh]

/-- A byte that is never acknowledged (60_exceptions.md R242). -/
def Wire.unacked (v : Byte) : List Tok := Wire.cells v 8 ++ [.d1] ++ Wire.highs 255

/-- The slots of a sequence of bytes, with the number of high samples of each. -/
def Wire.slots (vs : List Byte) (ks : List Nat) : List Tok := (List.zipWith Wire.slot vs ks).flatten

/-- A transmission: start condition, byte slots, stop condition (30_encoding.md R99). -/
def Wire.transmission (vs : List Byte) (ks : List Nat) : List Tok := Wire.start ++ Wire.slots vs ks ++ Wire.stop

/-- The high-sample counts of the bytes of a frame: data command, address command, payload bytes, control byte. -/
structure FrameWaits where
  ka : Nat
  kb : Nat
  kp : List Nat
  kc : Nat
  deriving DecidableEq, Repr

/-- `frame(p0 .. p(n-1))` with its control byte, in the parameters of an instantiation (30_encoding.md R99). -/
def Wire.frame (p : Params) (ps : List Byte) (c : Byte) (w : FrameWaits) : List Tok :=
  Wire.transmission [p.dataCmd] [w.ka] ++ Wire.transmission (p.addrCmd :: ps) (w.kb :: w.kp) ++
    Wire.transmission [c] [w.kc]

/-- The `n` draws from the `off`-th on are `ok`. -/
def State.okAt (s : State) (off n : Nat) : Prop := ∀ i, i < n → (s.drawAt (off + i)).isOk = true

/-- From draw `off` on, a byte slot completes with `k` high samples: 25 drives `ok`, `k` samples high, one low, two clock
drives `ok` (41_transport.md R152, R153, R156). -/
def State.ackedSlot (s : State) (off k : Nat) : Prop :=
  k < 255 ∧ s.okAt off 25 ∧ (∀ i, i < k → s.drawAt (off + 25 + i) = .ok true) ∧
    s.drawAt (off + 25 + k) = .ok false ∧ s.okAt (off + 26 + k) 2

/-- The draws of a byte slot with `k` high samples: 27 drives and `k + 1` samples (41_transport.md R156). -/
def slotDraws (k : Nat) : Nat := 28 + k

def slotsDraws (ks : List Nat) : Nat := (ks.map slotDraws).sum

/-- Consecutive byte slots that complete. -/
def State.ackedSlots (s : State) : Nat → List Nat → Prop
  | _, [] => True
  | off, k :: ks => s.ackedSlot off k ∧ s.ackedSlots (off + slotDraws k) ks

/-- A transmission that completes. -/
def State.ackedTransmission (s : State) (off : Nat) (ks : List Nat) : Prop :=
  s.okAt off 4 ∧ s.ackedSlots (off + 4) ks ∧ s.okAt (off + 4 + slotsDraws ks) 4

def transmissionDraws (ks : List Nat) : Nat := 8 + slotsDraws ks

/-- A frame that completes: no line action fails and every byte is acknowledged within 255 samples. -/
def State.ackedFrame (s : State) (w : FrameWaits) : Prop :=
  s.ackedTransmission 0 [w.ka] ∧
  s.ackedTransmission (transmissionDraws [w.ka]) (w.kb :: w.kp) ∧
  s.ackedTransmission (transmissionDraws [w.ka] + transmissionDraws (w.kb :: w.kp)) [w.kc]

def frameDraws (w : FrameWaits) : Nat :=
  transmissionDraws [w.ka] + transmissionDraws (w.kb :: w.kp) + transmissionDraws [w.kc]

/-- From draw `off` on, a byte is sent whole and never acknowledged: 25 drives `ok`, 255 samples high (60_exceptions.md R232). -/
def State.unackedSlot (s : State) (off : Nat) : Prop :=
  s.okAt off 25 ∧ ∀ i, i < 255 → s.drawAt (off + 25 + i) = .ok true

/-- The state after a start condition that met no failure (41_transport.md R150): four draws, `CLK = 0`, `DIO = 0`. -/
def State.started (s : State) : State :=
  { s.skipDraws 4 with clk := .lo, dio := .lo, clkO := false, dioO := false, tr := s.tr ++ Wire.start }

/-- The state after a stop condition that met no failure (41_transport.md R151): both lines high. -/
def State.stopped (s : State) : State :=
  { s.skipDraws 4 with clk := .hi, dio := .hi, clkO := true, dioO := true, tr := s.tr ++ Wire.stop }

/-- The state after a byte slot acknowledged after `k` high samples (41_transport.md R152, R153): `SR = 0`, `BC = 8`,
`AC = k + 1`, `CLK = 0`, `DIO = 1`; the last sample returned 0. -/
def State.slotSent (v : Byte) (k : Nat) (s : State) : State :=
  { s.skipDraws (slotDraws k) with
    sr := 0, bc := 8, ac := BitVec.ofNat 8 (k + 1), clk := .lo, dio := .hi, clkO := false, dioO := true,
    ret := .bit false, tr := s.tr ++ Wire.slot v k }

/-- The state in which AckTimeout is raised for a byte that is never acknowledged (60_exceptions.md R242): `SR = 0`,
`BC = 8`, `AC = 255`, `CLK = 0`, `DIO = 1`. -/
def State.slotUnacked (v : Byte) (s : State) : State :=
  { s.skipDraws 280 with
    sr := 0, bc := 8, ac := 255, clk := .lo, dio := .hi, clkO := false, dioO := true,
    ret := .bit true, tr := s.tr ++ Wire.unacked v }

/-- The bytes of the payload buffer that are valid (10_state.md R29, R30). -/
def State.payload (s : State) : List Byte := (List.range s.plen.toNat).map s.pbAt

/-- The state after a frame that completed (43_framing.md R190): `PI = PLEN`, both lines high, `SEQ.phase` left at C. -/
def State.frameSent (w : FrameWaits) (s : State) : State :=
  { s.skipDraws (frameDraws w) with
    seq := { s.seq with phase := .c }
    pi := s.plen
    sr := 0, bc := 8, ac := BitVec.ofNat 8 (w.kc + 1), clk := .hi, dio := .hi, clkO := true, dioO := true,
    ret := .bit false, tr := s.tr ++ Wire.frame s.cfg s.payload (ctrl s.cfg s.br) w }

/-- The registers of control that a command other than the lifecycle ones and SET_BRIGHTNESS leaves as they are. -/
def keepsControl (s t : State) : Prop :=
  t.life = s.life ∧ t.br = s.br ∧ t.cmd = s.cmd ∧ t.host = s.host

/-- The payload registers unchanged. -/
def keepsPayload (s t : State) : Prop := t.pb = s.pb ∧ t.plen = s.plen ∧ t.pi = s.pi

/-- The registers of the transport unchanged, and no line action performed. -/
def keepsLines (s t : State) : Prop :=
  t.clk = s.clk ∧ t.dio = s.dio ∧ t.clkO = s.clkO ∧ t.dioO = s.dioO ∧ t.sr = s.sr ∧ t.bc = s.bc ∧ t.ac = s.ac ∧
    t.tr = s.tr ∧ t.draws = s.draws ∧ t.drawn = s.drawn

/-- Exactly one response was given and the engine is idle (10_state.md R36, R37). -/
def responded (s t : State) (r : Response) : Prop :=
  t.st = r.status ∧ t.rspValid = true ∧ t.responses = s.responses ++ [r] ∧ t.seq = Seq.idle

/-- What a refused command leaves: only `ST`, `SEQ` and the response port changed (60_exceptions.md R243). -/
def refusedWith (x : Exn) (s : State) : State :=
  { s with
    st := x.status
    rspValid := true
    responses := s.responses ++ [⟨x.status, none⟩]
    seq := Seq.idle }

/-- The entry of a line action that failed with `e`, from the entry it would have had (00_scope.md R16); a wait cannot
fail. -/
def Tok.failed (e : ErrVal) : Tok → Tok
  | .c0 => .c0e e
  | .c1 => .c1e e
  | .d0 => .d0e e
  | .d1 => .d1e e
  | .s0 | .s1 => .se e
  | .wh => .wh
  | .wf => .wf
  | .c0e e => .c0e e
  | .c1e e => .c1e e
  | .d0e e => .d0e e
  | .d1e e => .d1e e
  | .se e => .se e

/-- What a LineFault leaves beside the trace and the failed line (60_exceptions.md R240, R241). -/
def State.faulted (e : ErrVal) (s : State) : State :=
  { s with
    lf := true
    st := .lineFault
    errv := e
    rspValid := true
    responses := s.responses ++ [⟨.lineFault, some e⟩]
    seq := Seq.idle
    fresh := s.fresh + 1 }

/-- What an AckTimeout leaves (60_exceptions.md R240, R242); `v` is the unspecified `ERRV` (10_state.md R37). -/
def State.timedOut (v : ErrVal) (s : State) : State :=
  { s with
    st := .ackTimeout
    errv := v
    rspValid := true
    responses := s.responses ++ [⟨.ackTimeout, none⟩]
    seq := Seq.idle
    fresh := s.fresh + 1 }

/-- What `respond(OK)` leaves (10_state.md R37); `v` is the unspecified `ERRV`. -/
def State.answeredOk (v : ErrVal) (s : State) : State :=
  { s with
    st := .ok
    errv := v
    rspValid := true
    responses := s.responses ++ [⟨.ok, none⟩]
    seq := Seq.idle
    fresh := s.fresh + 1 }

/-- The state after phase (c) whose byte was acknowledged after `k` high samples (43_framing.md R191). -/
def State.phaseCSent (c : Byte) (k : Nat) (s : State) : State :=
  { s.skipDraws (transmissionDraws [k]) with
    seq := { s.seq with phase := .c }
    sr := 0, bc := 8, ac := BitVec.ofNat 8 (k + 1), clk := .hi, dio := .hi, clkO := true, dioO := true,
    ret := .bit false, tr := s.tr ++ Wire.transmission [c] [k] }

/-- The state after INIT's three line actions (44_lifecycle.md R210). -/
def State.linesRaised (s : State) : State :=
  { s.skipDraws 2 with clk := .hi, dio := .hi, clkO := true, dioO := true, tr := s.tr ++ [.c1, .d1, .wf] }

/-- A list of trace entries that some line actions gave: the trace grew by it and by nothing else. -/
def State.traceGrew (s t : State) : Prop := ∃ more, t.tr = s.tr ++ more

/-- Which status each command can end in (60_exceptions.md R235). -/
def commandStatuses : Instr → List Status
  | .init => [.ok, .lineFault, .badLifecycle]
  | .sendBytes _ _ | .sendNumber _ => [.ok, .lineFault, .ackTimeout, .badLength, .badLifecycle]
  | .sendDigits _ _ _ => [.ok, .lineFault, .ackTimeout, .badDigit, .badLength, .badLifecycle]
  | .enable | .disable => [.ok, .lineFault, .ackTimeout, .badLifecycle]
  | .setBrightness _ => [.ok, .badBrightness, .badLifecycle]
  | .teardown => [.ok, .badLifecycle]
  | .clkLo | .clkHi | .dioLo | .dioHi | .dioSample | .waitHalf | .waitFull
  | .start | .stop | .sendByte _ | .waitAck
  | .dataCmd | .addrCmd | .ctrlOn _ | .ctrlOff
  | .seg0 _ | .seg1 _ | .seg2 _ | .seg3 _ | .seg4 _ | .seg5 _ | .seg6 _ | .seg7 _ | .seg8 _ | .seg9 _
  | .seg _ | .ind _ _ | .enc _ _ | .dec _ | .ctrl | .frame | .phaseC _ => []

/-- What the engine tells of itself and reads nowhere: the shadow registers and the wires, `EN`, `LF`, `ST`, `ERRV`, the trace
and the response port (10_state.md R24, R37 to R40). -/
structure Flags where
  clk : Level
  dio : Level
  clkO : Bool
  dioO : Bool
  en : Bool
  lf : Bool
  st : Status
  errv : ErrVal
  tr : List Tok
  rspValid : Bool
  responses : List Response
  deriving DecidableEq, Repr

/-- The state with these set. -/
def State.setFlags (f : Flags) (s : State) : State :=
  { s with
    clk := f.clk, dio := f.dio, clkO := f.clkO, dioO := f.dioO, en := f.en, lf := f.lf, st := f.st, errv := f.errv, tr := f.tr,
    rspValid := f.rspValid, responses := f.responses }

/-- The writes of a step to them: a value, or `none` where it is left as it was; the entries the trace gains and the responses
given. -/
structure FlagWrites where
  clk : Option Level
  dio : Option Level
  clkO : Option Bool
  dioO : Option Bool
  en : Option Bool
  lf : Option Bool
  st : Option Status
  errv : Option ErrVal
  entries : List Tok
  rspValid : Option Bool
  given : List Response
  deriving DecidableEq, Repr

/-- What the writes leave. -/
def FlagWrites.on (w : FlagWrites) (f : Flags) : Flags where
  clk := w.clk.getD f.clk
  dio := w.dio.getD f.dio
  clkO := w.clkO.getD f.clkO
  dioO := w.dioO.getD f.dioO
  en := w.en.getD f.en
  lf := w.lf.getD f.lf
  st := w.st.getD f.st
  errv := w.errv.getD f.errv
  tr := f.tr ++ w.entries
  rspValid := w.rspValid.getD f.rspValid
  responses := f.responses ++ w.given

/-- A position of the step tables (41_transport.md R150 to R153, 44_lifecycle.md R210). -/
def Seq.inTable (q : Seq) : Prop :=
  match q.rt with
  | .none => False
  | .start => q.step < 7
  | .stop => q.step < 8
  | .sendByte => q.step < 50
  | .waitAck => q.step < 6
  | .initSeq => q.step < 3

/-- `SEQ` names a position some command reaches (10_state.md R33). -/
def Seq.legal (q : Seq) : Prop :=
  match q.cmd with
  | .idle => q = Seq.idle
  | .init => q.phase = .none ∧ q.rt = .initSeq ∧ q.inTable ∧ q.payload = false
  | .sendBytes | .sendDigits | .sendNumber =>
    q.phase ≠ .none ∧ q.rt ≠ .initSeq ∧ q.inTable ∧
      (q.payload = true → q.phase = .b ∧ (q.rt = .sendByte ∨ q.rt = .waitAck))
  | .enable | .disable | .teardown => q.phase = .c ∧ q.rt ≠ .initSeq ∧ q.inTable ∧ q.payload = false
  | .setBrightness => False

/-- The lifecycle state a command in progress has (60_exceptions.md R234); without an instance `EN` is 0 (10_state.md R42). -/
def State.lifeOk (s : State) : Prop :=
  (s.seq.cmd = .init → s.life = .unbuilt) ∧
  (s.seq.cmd ≠ .idle → s.seq.cmd ≠ .init → s.life = .live) ∧
  (s.life = .unbuilt → s.en = false)

/-- The ranges of the counters, and their place in the step tables (10_state.md R26 to R31; 41_transport.md R152, R153). -/
def State.countersOk (s : State) : Prop :=
  s.bc.toNat ≤ 8 ∧ s.plen.toNat ≤ s.cfg.payloadMax ∧ s.pi.toNat ≤ s.cfg.payloadMax ∧
  (s.seq.payload = true → s.pi.toNat < s.plen.toNat) ∧
  match s.seq.rt with
  | .sendByte => s.bc.toNat = s.seq.step / 6 ∧ s.sr.toNat < 2 ^ (8 - s.seq.step / 6)
  | .waitAck =>
    s.bc = 8 ∧ s.sr = 0 ∧ (s.seq.step = 0 → s.ac.toNat < 255) ∧ (s.seq.step ≠ 0 → s.ac ≠ 0)
  | .none | .start | .stop | .initSeq => True

/-- The levels the engine has driven when it is at a position (41_transport.md R150 to R154): the data line changes while
the clock is high in the start and stop conditions only, and a sample finds the clock low and the data line released. -/
def State.linesOk (s : State) : Prop :=
  let n := s.seq.step
  match s.seq.rt with
  | .none => True
  | .initSeq => (1 ≤ n → s.clk = .hi) ∧ (2 ≤ n → s.dio = .hi)
  | .start => (1 ≤ n → s.clk = if n ≤ 5 then .hi else .lo) ∧ (2 ≤ n → s.dio = if n ≤ 3 then .hi else .lo)
  | .stop => s.clk = (if n ≤ 4 then .lo else .hi) ∧ s.dio = (if n ≤ 2 then .hi else if n ≤ 6 then .lo else .hi)
  | .sendByte =>
    s.clk = (if n < 48 ∧ (n % 6 = 3 ∨ n % 6 = 4) then .hi else .lo) ∧
      (n < 48 → n % 6 ≠ 0 → s.dio = levelOf (s.sr.getLsbD 0)) ∧ (n = 49 → s.dio = .hi)
  | .waitAck => s.clk = (if n ≤ 3 then .lo else .hi) ∧ s.dio = .hi

/-- A shadow register that knows its line agrees with the wire (10_state.md R22, R24). -/
def State.wiresOk (s : State) : Prop :=
  (∀ b, s.clk = levelOf b → s.clkO = b) ∧ (∀ b, s.dio = levelOf b → s.dioO = b)

/-- The invariant of the engine. -/
def State.Inv (s : State) : Prop :=
  s.seq.legal ∧ s.lifeOk ∧ s.countersOk ∧ s.linesOk ∧ s.wiresOk

end Sys2Proof.Machine
end

