-- ==== Sys2Proof/Certificates/Slice0/Obligations.lean ====
section
/-!
DEFINITION. The statements for the provers, one `def Obligations.<Name> : Prop` each. A meaning is `exec`: the operation run
to its end; a host command is stated in the state its acceptance leaves. `s.drawAt i` is the outcome of the `i`-th fallible
line action from now (40_line_actions.md R137); every statement holds whatever the draws after those it names. `s.cfg` is the
instantiation (00_scope.md R10), so a statement about every state holds of every choice of the parameters and of every
error type; one that names the default values says so (log 15). Values the spec leaves unspecified (the wire after a failed drive, `ERRV` after a command that did not end in LINE_FAULT) are bound by
an existential quantifier.
-/
open Sys2Proof Sys2Proof.Machine

/-! ### Encoding -/

/-- 30_encoding.md R91, R92, R95 to R98, R100, R101; 00_scope.md R11: decoding an encoded operation gives it back, with every
operand at every value, in every instantiation that meets R11; for the bytes of the wire (`CMDB`, `CTRLB`, `SEGB`) only in one
that tells them apart, the premise `distinct`, which the spec does not ask of an instantiation and the defaults have. The
operations with no code are exactly the encoders, FRAME and PHASE_C. The place of SEND_BYTE's operand is the model's (log 9). -/
def Obligations.DecodeOfEncode : Prop :=
  (∀ (p : Params) (i : Instr) (c : Code), p.ok = true → i.wellFormed p = true →
    (c.fmt = .cmdb ∨ c.fmt = .ctrlb ∨ c.fmt = .segb → p.distinct = true) →
    encode p i = some c → decode p c = .ok i) ∧
  ∀ (p : Params) (i : Instr),
    (encode p i = none ↔
      (∃ d, i = .seg d) ∨ (∃ b bit, i = .ind b bit) ∨ (∃ ds bit, i = .enc ds bit) ∨ (∃ v, i = .dec v) ∨ i = .ctrl ∨
        i = .frame ∨ ∃ c, i = .phaseC c) ∧
    (encode p i = none → i.isHostCommand = false)

/-- 30_encoding.md R90 to R92: the places of the fields of the host word; each op code's command and the fields it uses; a
field a command does not use may hold anything. That `decode` refuses a word wider than the `8 + AW` bits of the instantiation
is the model's choice (log 6). -/
def Obligations.HostWordFields : Prop :=
  (∀ (op : BitVec 3) (ind : Bool) (len : BitVec 4) (arg : HostArg),
    (hostWord op ind len arg).toNat = op.toNat + 8 * ind.toNat + 16 * len.toNat + 256 * arg.toNat) ∧
  (∀ (ind : Bool) (len : BitVec 4) (arg : HostArg),
    decodeHost (hostWord 0 ind len arg) = .init ∧
    decodeHost (hostWord 1 ind len arg) = .sendBytes len arg ∧
    decodeHost (hostWord 2 ind len arg) = .sendDigits ind len arg ∧
    decodeHost (hostWord 3 ind len arg) = .sendNumber (arg.setWidth 32) ∧
    decodeHost (hostWord 4 ind len arg) = .enable ∧
    decodeHost (hostWord 5 ind len arg) = .disable ∧
    decodeHost (hostWord 6 ind len arg) = .setBrightness (arg.setWidth 8) ∧
    decodeHost (hostWord 7 ind len arg) = .teardown) ∧
  ∀ (p : Params) (w : HostWord), (decodeHost w).isHostCommand = true ∧
    (w.toNat < 2 ^ (8 + max 32 (8 * p.payloadMax)) → decode p ⟨.hostw, w.toNat⟩ = .ok (decodeHost w)) ∧
    (2 ^ (8 + max 32 (8 * p.payloadMax)) ≤ w.toNat → decode p ⟨.hostw, w.toNat⟩ = .error .tooWide)

/-- Words written out from the spec's examples and encodings: 43_framing.md R193 to R195, 44_lifecycle.md R210 to R215,
30_encoding.md R96 to R101. The widths and the bytes of the wire are the default parameters (log 15). -/
def Obligations.SpecWordsDecode : Prop :=
  decode .default ⟨.hostw, 0x0000063F21⟩ = .ok (.sendBytes 2 0x063F) ∧
  decode .default ⟨.hostw, 0x040302014A⟩ = .ok (.sendDigits true 4 0x04030201) ∧
  decode .default ⟨.hostw, 0x0000059803⟩ = .ok (.sendNumber 1432) ∧
  decode .default ⟨.hostw, 0x0000000706⟩ = .ok (.setBrightness 7) ∧
  decode .default ⟨.hostw, 0x0000000007⟩ = .ok .teardown ∧
  decode .default ⟨.uop, 4⟩ = .ok .dioSample ∧ decode .default ⟨.uop, 7⟩ = .error .reservedUop ∧
  decode .default ⟨.top, 3⟩ = .ok .waitAck ∧
  decode .default ⟨.cmdb, 0xC0⟩ = .ok .addrCmd ∧ decode .default ⟨.ctrlb, 0x8D⟩ = .ok (.ctrlOn 5) ∧
  decode .default ⟨.ctrlb, 0x80⟩ = .ok .ctrlOff ∧
  decode .default ⟨.segb, 0xE6⟩ = .ok (.seg4 true) ∧ decode .default ⟨.segb, 0x3F⟩ = .ok (.seg0 false) ∧
  Params.default.ok = true ∧ Params.default.distinct = true ∧ ∀ d : Digit, Params.default.segTable[d] ≠ 0

/-- 30_encoding.md R95 to R98: which bytes each wire format has, in every instantiation; and that at the default parameters
(log 15) no byte belongs to two of them. -/
def Obligations.WireBytesDisjoint : Prop :=
  (∀ (p : Params) (b : Byte), isWireCode p .cmdb b.toNat = true ↔ b = p.dataCmd ∨ b = p.addrCmd) ∧
  (∀ (p : Params) (b : Byte), isWireCode p .ctrlb b.toNat = true ↔ b = p.ctrlOff ∨ b &&& 0xF8 = p.ctrlOnMask) ∧
  (∀ (p : Params) (b : Byte), isWireCode p .segb b.toNat = true ↔ ∃ d : Digit, b &&& 0x7F = p.segTable[d]) ∧
  ∀ b : Byte, ¬ (isWireCode .default .cmdb b.toNat = true ∧ isWireCode .default .ctrlb b.toNat = true) ∧
    ¬ (isWireCode .default .cmdb b.toNat = true ∧ isWireCode .default .segb b.toNat = true) ∧
    ¬ (isWireCode .default .ctrlb b.toNat = true ∧ isWireCode .default .segb b.toNat = true)

/-! ### The encoders -/

/-- 42_encoders.md R170; 00_scope.md R11: the table's entry for a digit, and nothing else changes; in every instantiation bit 7
of the entry is clear. -/
def Obligations.SegmentByte : Prop :=
  ∀ (d : Digit) (s : State), exec (.seg d) s = .next { s with ret := .byte s.cfg.segTable[d] } ∧
    (s.cfg.ok = true → (s.cfg.segTable[d]).getLsbD 7 = false)

/-- 42_encoders.md R171: the indicator bit is ORed into bit 7 and no other bit changes. -/
def Obligations.IndicatorMerge : Prop :=
  ∀ (b : Byte) (bit : Bool) (s : State), ∃ r : Byte, exec (.ind b bit) s = .next { s with ret := .byte r } ∧
    r = b ||| (if bit then 0x80 else 0x00) ∧ r.getLsbD 7 = (b.getLsbD 7 || bit) ∧ ∀ i, i < 7 → r.getLsbD i = b.getLsbD i

/-- 42_encoders.md R172: same length and order, each digit's segment byte with the indicator merged. -/
def Obligations.DigitsEncoded : Prop :=
  ∀ (ds : List Digit) (bit : Bool) (s : State), ∃ bs : List Byte, exec (.enc ds bit) s = .next { s with ret := .bytes bs } ∧
    bs.length = ds.length ∧
    ∀ (i : Nat) (d : Digit), ds[i]? = some d → bs[i]? = some (s.cfg.segTable[d] ||| (if bit then 0x80 else 0x00))

/-- 42_encoders.md R174: the decimal digits, most significant first, in the minimal count; 0 is one digit. -/
def Obligations.DecimalDigits : Prop :=
  ∀ (v : Word32) (s : State), ∃ ds : List Digit, exec (.dec v) s = .next { s with ret := .digits ds } ∧
    ds.foldl (fun n d => 10 * n + d.val) 0 = v.toNat ∧ 1 ≤ ds.length ∧ ds.length ≤ 10 ∧
    (v = 0 → ds = [0]) ∧ (v ≠ 0 → ds.head? ≠ some 0) ∧
    ∀ n, 1 ≤ n → (ds.length ≤ n ↔ v.toNat < 10 ^ n)

/-- 42_encoders.md R176; 30_encoding.md R97; 00_scope.md R11: the on-mask with the brightness, which in every instantiation can
be read back from bits 2 to 0. -/
def Obligations.ControlByte : Prop :=
  ∀ s : State, ∃ c : Byte, exec .ctrl s = .next { s with ret := .byte c } ∧ c = s.cfg.ctrlOnMask ||| s.br.setWidth 8 ∧
    (s.cfg.ok = true → c &&& 0x07 = s.br.setWidth 8 ∧ c &&& 0xF8 = s.cfg.ctrlOnMask ∧
      c.toNat = s.cfg.ctrlOnMask.toNat + s.br.toNat)

/-! ### Line actions -/

/-- 40_line_actions.md R130, R131: a clock drive, done or failed; the frame is all of the rest of the state. -/
def Obligations.ClockDrives : Prop :=
  (∀ p : Params, decode p ⟨.uop, 0⟩ = .ok .clkLo ∧ decode p ⟨.uop, 1⟩ = .ok .clkHi) ∧
  ∀ s : State,
    ((s.drawAt 0).isOk = true →
      exec .clkLo s = .next { s.skipDraws 1 with clk := .lo, clkO := false, tr := s.tr ++ [.c0] } ∧
      exec .clkHi s = .next { s.skipDraws 1 with clk := .hi, clkO := true, tr := s.tr ++ [.c1] }) ∧
    ∀ e, s.drawAt 0 = .err e → s.seq.cmd ≠ .teardown → ∃ o : Bool,
      exec .clkLo s = .next (State.faulted e { s.skipDraws 1 with clk := .x, clkO := o, tr := s.tr ++ [.c0e e] }) ∧
      exec .clkHi s = .next (State.faulted e { s.skipDraws 1 with clk := .x, clkO := o, tr := s.tr ++ [.c1e e] })

/-- 40_line_actions.md R132, R133: a data drive, done or failed. -/
def Obligations.DataDrives : Prop :=
  (∀ p : Params, decode p ⟨.uop, 2⟩ = .ok .dioLo ∧ decode p ⟨.uop, 3⟩ = .ok .dioHi) ∧
  ∀ s : State,
    ((s.drawAt 0).isOk = true →
      exec .dioLo s = .next { s.skipDraws 1 with dio := .lo, dioO := false, tr := s.tr ++ [.d0] } ∧
      exec .dioHi s = .next { s.skipDraws 1 with dio := .hi, dioO := true, tr := s.tr ++ [.d1] }) ∧
    ∀ e, s.drawAt 0 = .err e → s.seq.cmd ≠ .teardown → ∃ o : Bool,
      exec .dioLo s = .next (State.faulted e { s.skipDraws 1 with dio := .x, dioO := o, tr := s.tr ++ [.d0e e] }) ∧
      exec .dioHi s = .next (State.faulted e { s.skipDraws 1 with dio := .x, dioO := o, tr := s.tr ++ [.d1e e] })

/-- 40_line_actions.md R134: the sampled level is drawn, recorded and returned; neither shadow register changes, on success
or on failure. -/
def Obligations.DataSample : Prop :=
  (∀ p : Params, decode p ⟨.uop, 4⟩ = .ok .dioSample) ∧
  ∀ s : State,
    (∀ b, s.drawAt 0 = .ok b →
      exec .dioSample s = .next { s.skipDraws 1 with ret := .bit b, tr := s.tr ++ [if b then .s1 else .s0] }) ∧
    ∀ e, s.drawAt 0 = .err e → s.seq.cmd ≠ .teardown →
      exec .dioSample s = .next (State.faulted e { s.skipDraws 1 with tr := s.tr ++ [.se e] })

/-- 40_line_actions.md R135, R136; 10_state.md R23, R35: a wait is an entry of the trace and changes nothing else, draws nothing
and cannot fail; WAIT_HALF passes `T_HALF_US` to the delay primitive, WAIT_FULL `T_FULL_US`, and no other action calls it. How
long a wait lasts is not modelled (log 21). -/
def Obligations.Waits : Prop :=
  (∀ p : Params, decode p ⟨.uop, 5⟩ = .ok .waitHalf ∧ decode p ⟨.uop, 6⟩ = .ok .waitFull) ∧
  (∀ s : State, exec .waitHalf s = .next { s with tr := s.tr ++ [.wh] } ∧
    exec .waitFull s = .next { s with tr := s.tr ++ [.wf] }) ∧
  ∀ p : Params, Act.waitHalf.delayUs p = some p.tHalfUs ∧ Act.waitFull.delayUs p = some p.tFullUs ∧
    ∀ a : Act, a ≠ .waitHalf → a ≠ .waitFull → a.delayUs p = none

/-- 40_line_actions.md R138, R137: whatever the draw, a line action completes and appends exactly one entry, its own; outside
TEARDOWN it leaves every register of the datapath and of control as it was. -/
def Obligations.LineActionFrame : Prop :=
  ∀ (a : Act) (s : State), ∃ t tok, exec a.instr s = .next t ∧ t.tr = s.tr ++ [tok] ∧
    (match a with
      | .clkLo => tok = .c0 ∨ ∃ e, tok = .c0e e
      | .clkHi => tok = .c1 ∨ ∃ e, tok = .c1e e
      | .dioLo => tok = .d0 ∨ ∃ e, tok = .d0e e
      | .dioHi => tok = .d1 ∨ ∃ e, tok = .d1e e
      | .dioSample => tok = .s0 ∨ tok = .s1 ∨ ∃ e, tok = .se e
      | .waitHalf => tok = .wh
      | .waitFull => tok = .wf) ∧
    t.cmd = s.cmd ∧ t.host = s.host ∧
    (s.seq.cmd ≠ .teardown →
      t.life = s.life ∧ t.br = s.br ∧ t.en = s.en ∧ t.sr = s.sr ∧ t.bc = s.bc ∧ t.ac = s.ac ∧ keepsPayload s t)

/-! ### Transport routines -/

/-- 41_transport.md R150: the seven actions of the start condition from any levels, and what a failure of each drive leaves. -/
def Obligations.StartCondition : Prop :=
  (∀ p : Params, decode p ⟨.top, 0⟩ = .ok .start) ∧
  ∀ s : State,
    (s.okAt 0 4 → exec .start s = .next s.started) ∧
    ∀ e, s.seq.cmd ≠ .teardown → ∃ oc od : Bool,
      (s.drawAt 0 = .err e → exec .start s = .next (State.faulted e
        { s.skipDraws 1 with clk := .x, clkO := oc, tr := s.tr ++ [.c1e e] })) ∧
      (s.okAt 0 1 → s.drawAt 1 = .err e → exec .start s = .next (State.faulted e
        { s.skipDraws 2 with clk := .hi, clkO := true, dio := .x, dioO := od, tr := s.tr ++ [.c1, .d1e e] })) ∧
      (s.okAt 0 2 → s.drawAt 2 = .err e → exec .start s = .next (State.faulted e
        { s.skipDraws 3 with clk := .hi, clkO := true, dio := .x, dioO := od, tr := s.tr ++ [.c1, .d1, .wf, .d0e e] })) ∧
      (s.okAt 0 3 → s.drawAt 3 = .err e → exec .start s = .next (State.faulted e
        { s.skipDraws 4 with
          clk := .x, clkO := oc, dio := .lo, dioO := false, tr := s.tr ++ [.c1, .d1, .wf, .d0, .wf, .c0e e] }))

/-- 41_transport.md R151: the eight actions of the stop condition, and what a failure of each drive leaves. -/
def Obligations.StopCondition : Prop :=
  (∀ p : Params, decode p ⟨.top, 1⟩ = .ok .stop) ∧
  ∀ s : State,
    (s.okAt 0 4 → exec .stop s = .next s.stopped) ∧
    ∀ e, s.seq.cmd ≠ .teardown → ∃ oc od : Bool,
      (s.drawAt 0 = .err e → exec .stop s = .next (State.faulted e
        { s.skipDraws 1 with clk := .x, clkO := oc, tr := s.tr ++ [.c0e e] })) ∧
      (s.okAt 0 1 → s.drawAt 1 = .err e → exec .stop s = .next (State.faulted e
        { s.skipDraws 2 with clk := .lo, clkO := false, dio := .x, dioO := od, tr := s.tr ++ [.c0, .wf, .d0e e] })) ∧
      (s.okAt 0 2 → s.drawAt 2 = .err e → exec .stop s = .next (State.faulted e
        { s.skipDraws 3 with
          clk := .x, clkO := oc, dio := .lo, dioO := false, tr := s.tr ++ [.c0, .wf, .d0, .wf, .c1e e] })) ∧
      (s.okAt 0 3 → s.drawAt 3 = .err e → exec .stop s = .next (State.faulted e
        { s.skipDraws 4 with
          clk := .hi, clkO := true, dio := .x, dioO := od, tr := s.tr ++ [.c0, .wf, .d0, .wf, .c1, .wf, .d1e e] }))

/-- 41_transport.md R152, R153; 30_encoding.md R94: a byte, least significant bit first, acknowledged after `k` samples of 1,
`k` up to 254. -/
def Obligations.SendByteAcknowledged : Prop :=
  ∀ (v : Byte) (k : Nat) (s : State), s.ackedSlot 0 k → exec (.sendByte v) s = .next (s.slotSent v k)

/-- 41_transport.md R153; 60_exceptions.md R242: a byte that is never acknowledged ends in AckTimeout after 255 samples, with
no further line action: no clock pulse and no tail wait. -/
def Obligations.SendByteUnacknowledged : Prop :=
  ∀ (v : Byte) (s : State), s.unackedSlot 0 → s.seq.cmd ≠ .teardown →
    ∃ ev, exec (.sendByte v) s = .next ((s.slotUnacked v).timedOut ev)

/-- 41_transport.md R152; 60_exceptions.md R241: a failed drive in bit cell `i`, or at the release, ends the byte there:
`SR` is the byte shifted `i` times, `BC` is `i`, and the failed line's shadow register is `X`. -/
def Obligations.SendByteFaults : Prop :=
  ∀ (v : Byte) (e : ErrVal) (s : State), s.seq.cmd ≠ .teardown → ∃ oc od : Bool,
    (∀ i, i < 8 →
      (s.okAt 0 (3 * i) → s.drawAt (3 * i) = .err e →
        exec (.sendByte v) s = .next (State.faulted e
          { s.skipDraws (3 * i + 1) with
            sr := v >>> i, bc := BitVec.ofNat 4 i,
            clk := if i = 0 then s.clk else .lo, clkO := if i = 0 then s.clkO else false, dio := .x, dioO := od,
            tr := s.tr ++ Wire.cells v i ++ [Tok.failed e (if v.getLsbD i then .d1 else .d0)] })) ∧
      (s.okAt 0 (3 * i + 1) → s.drawAt (3 * i + 1) = .err e →
        exec (.sendByte v) s = .next (State.faulted e
          { s.skipDraws (3 * i + 2) with
            sr := v >>> i, bc := BitVec.ofNat 4 i,
            clk := .x, clkO := oc, dio := levelOf (v.getLsbD i), dioO := v.getLsbD i,
            tr := s.tr ++ Wire.cells v i ++ [if v.getLsbD i then .d1 else .d0, .wh, .c1e e] })) ∧
      (s.okAt 0 (3 * i + 2) → s.drawAt (3 * i + 2) = .err e →
        exec (.sendByte v) s = .next (State.faulted e
          { s.skipDraws (3 * i + 3) with
            sr := v >>> i, bc := BitVec.ofNat 4 i,
            clk := .x, clkO := oc, dio := levelOf (v.getLsbD i), dioO := v.getLsbD i,
            tr := s.tr ++ Wire.cells v i ++ [if v.getLsbD i then .d1 else .d0, .wh, .c1, .wf, .c0e e] }))) ∧
    (s.okAt 0 24 → s.drawAt 24 = .err e →
      exec (.sendByte v) s = .next (State.faulted e
        { s.skipDraws 25 with
          sr := 0, bc := 8, clk := .lo, clkO := false, dio := .x, dioO := od, tr := s.tr ++ Wire.cells v 8 ++ [.d1e e] }))

/-- 41_transport.md R152: when the cells and the release succeed, SEND_BYTE is WAIT_ACK from the released line and then the
tail wait; if WAIT_ACK raised an exception the tail wait is not performed. -/
def Obligations.SendByteTail : Prop :=
  ∀ (v : Byte) (s : State), s.okAt 0 25 → s.seq.cmd ≠ .idle → ∃ t,
    exec .waitAck
      { s.skipDraws 25 with
        sr := 0, bc := 8, clk := .lo, clkO := false, dio := .hi, dioO := true, tr := s.tr ++ Wire.cells v 8 ++ [.d1] } =
      .next t ∧
    (t.seq = s.seq → exec (.sendByte v) s = .next { t with tr := t.tr ++ [.wh] }) ∧
    (t.seq ≠ s.seq → t.seq = Seq.idle ∧ exec (.sendByte v) s = .next t)

/-- 41_transport.md R153: success at any of the 255 samples, timeout after 255 samples of 1 and no further action, a failure of
a sample or of the closing clock pulse. -/
def Obligations.WaitAckRuns : Prop :=
  (∀ p : Params, decode p ⟨.top, 3⟩ = .ok .waitAck) ∧
  ∀ s : State,
    (∀ k, k < 255 → (∀ i, i < k → s.drawAt i = .ok true) → s.drawAt k = .ok false → s.okAt (k + 1) 2 →
      exec .waitAck s = .next { s.skipDraws (k + 3) with
        ac := BitVec.ofNat 8 (k + 1), ret := .bit false, clk := .lo, clkO := false,
        tr := s.tr ++ Wire.highs k ++ [.s0, .wf, .c1, .wf, .c0] }) ∧
    (s.seq.cmd ≠ .teardown → (∀ i, i < 255 → s.drawAt i = .ok true) → ∃ ev,
      exec .waitAck s = .next (State.timedOut ev { s.skipDraws 255 with
        ac := 255, ret := .bit true, tr := s.tr ++ Wire.highs 255 })) ∧
    (s.seq.cmd ≠ .teardown → ∀ k e, k < 255 → (∀ i, i < k → s.drawAt i = .ok true) → ∃ o : Bool,
      (s.drawAt k = .err e → exec .waitAck s = .next (State.faulted e { s.skipDraws (k + 1) with
        ac := BitVec.ofNat 8 k, ret := if k = 0 then s.ret else .bit true, tr := s.tr ++ Wire.highs k ++ [.se e] })) ∧
      (s.drawAt k = .ok false → s.drawAt (k + 1) = .err e → exec .waitAck s = .next (State.faulted e
        { s.skipDraws (k + 2) with
          ac := BitVec.ofNat 8 (k + 1), ret := .bit false, clk := .x, clkO := o,
          tr := s.tr ++ Wire.highs k ++ [.s0, .wf, .c1e e] })) ∧
      (s.drawAt k = .ok false → (s.drawAt (k + 1)).isOk = true → s.drawAt (k + 2) = .err e →
        exec .waitAck s = .next (State.faulted e
          { s.skipDraws (k + 3) with
            ac := BitVec.ofNat 8 (k + 1), ret := .bit false, clk := .x, clkO := o,
            tr := s.tr ++ Wire.highs k ++ [.s0, .wf, .c1, .wf, .c0e e] })))

/-! ### The bytes of the wire -/

/-- 30_encoding.md R94 to R98: a byte of the wire is its byte slot, acknowledged after `k` samples of 1 or never, and on every
other sequence of draws what SEND_BYTE of it is. That a wire row's operation is its slot is the model's reading (log 14). -/
def Obligations.WireByteSlots : Prop :=
  ∀ (i : Instr) (v : Byte) (s : State), wireByteOf s.cfg i = some v → exec i s = exec (.sendByte v) s ∧
    (∀ k, s.ackedSlot 0 k → exec i s = .next (s.slotSent v k)) ∧
    (s.unackedSlot 0 → s.seq.cmd ≠ .teardown → ∃ ev, exec i s = .next ((s.slotUnacked v).timedOut ev))

/-! ### Frames -/

/-- 43_framing.md R191: phase (c) alone, acknowledged after `k` samples of 1; an absent device ends it after its byte. -/
def Obligations.PhaseCRuns : Prop :=
  ∀ (c : Byte) (s : State),
    (∀ k, s.ackedTransmission 0 [k] → exec (.phaseC c) s = .next (s.phaseCSent c k)) ∧
    (s.okAt 0 4 → s.unackedSlot 4 → s.seq.cmd ≠ .teardown → ∃ ev, exec (.phaseC c) s =
      .next (State.timedOut ev { s.skipDraws 284 with
        sr := 0, bc := 8, ac := 255, clk := .lo, clkO := false, dio := .hi, dioO := true, ret := .bit true,
        tr := s.tr ++ Wire.start ++ Wire.unacked c }))

/-- 43_framing.md R190, R196; 30_encoding.md R99; 60_exceptions.md R242; 70_reset_and_hazards.md R284: the three transmissions
of a frame, with 1, `1 + PLEN` and 1 byte slots; against an absent device a frame ends with its first byte, and nothing after
that byte is sent. -/
def Obligations.FrameRuns : Prop :=
  (∀ (w : FrameWaits) (s : State), w.kp.length = s.plen.toNat → s.ackedFrame w → exec .frame s = .next (s.frameSent w)) ∧
  ∀ s : State, s.okAt 0 4 → s.unackedSlot 4 → s.seq.cmd ≠ .teardown → ∃ ev, exec .frame s =
    .next (State.timedOut ev { s.skipDraws 284 with
      sr := 0, bc := 8, ac := 255, clk := .lo, clkO := false, dio := .hi, dioO := true, ret := .bit true,
      tr := s.tr ++ Wire.start ++ Wire.unacked s.cfg.dataCmd })

/-- 43_framing.md R197; 60_exceptions.md R242: in a state whose payload fits the buffer (10_state.md R30), when the byte at payload index `n` is the first that is never acknowledged, the
data command, the address command and payload bytes 0 to `n - 1` were sent in full and byte `n` without acknowledgment; no
stop condition followed and phase (c) was not sent. -/
def Obligations.PartialProgress : Prop :=
  ∀ (ka kb : Nat) (kp : List Nat) (s : State), kp.length < s.plen.toNat → s.plen.toNat ≤ s.cfg.payloadMax → s.seq.cmd ≠ .teardown →
    s.ackedTransmission 0 [ka] → s.okAt (transmissionDraws [ka]) 4 →
    s.ackedSlots (transmissionDraws [ka] + 4) (kb :: kp) →
    s.unackedSlot (transmissionDraws [ka] + 4 + slotsDraws (kb :: kp)) →
    ∃ t b, exec .frame s = .next t ∧ s.payload[kp.length]? = some b ∧ t.pi = BitVec.ofNat 4 kp.length ∧
      t.tr = s.tr ++ Wire.transmission [s.cfg.dataCmd] [ka] ++ Wire.start ++
        Wire.slots (s.cfg.addrCmd :: s.payload.take kp.length) (kb :: kp) ++ Wire.unacked b ∧
      responded s t ⟨.ackTimeout, none⟩ ∧ t.lf = s.lf ∧ t.en = s.en ∧ t.plen = s.plen ∧ t.pb = s.pb ∧ keepsControl s t

/-! ### The send commands -/

/-- 43_framing.md R193, R196; 30_encoding.md R91, R102: SEND_BYTES on a live instance with a length of at most `PAYLOAD_MAX`,
no line action failing and every byte acknowledged. The command bytes, the on-mask and `PAYLOAD_MAX` are the instantiation's. -/
def Obligations.SendBytesRuns : Prop :=
  ∀ (len : BitVec 4) (arg : HostArg) (w : FrameWaits) (s : State), s.life = .live → len.toNat ≤ s.cfg.payloadMax →
    w.kp.length = len.toNat → s.ackedFrame w → ∃ t, exec (.sendBytes len arg) s = .next t ∧
      t.tr = s.tr ++ Wire.frame s.cfg ((List.range len.toNat).map fun i => arg.extractLsb' (8 * i) 8)
        (s.cfg.ctrlOnMask ||| s.br.setWidth 8) w ∧
      (∀ i (h : i < 15), i < len.toNat → t.pb[i] = arg.extractLsb' (8 * i) 8) ∧
      t.plen = len ∧ t.pi = len ∧ t.sr = 0 ∧ t.bc = 8 ∧ t.ac = BitVec.ofNat 8 (w.kc + 1) ∧
      t.clk = .hi ∧ t.dio = .hi ∧ t.clkO = true ∧ t.dioO = true ∧ t.en = true ∧ t.lf = s.lf ∧
      responded s t ⟨.ok, none⟩ ∧ keepsControl s t

/-- 43_framing.md R194, R196; 42_encoders.md R172: SEND_DIGITS on a live instance with at most `PAYLOAD_MAX` digits, each 0 to 9.
The segment table, the command bytes, the on-mask and `PAYLOAD_MAX` (at most 15, 00_scope.md R11) are the instantiation's. -/
def Obligations.SendDigitsRuns : Prop :=
  ∀ (bit : Bool) (ds : List Digit) (arg : HostArg) (w : FrameWaits) (s : State), s.life = .live → s.cfg.ok = true →
    ds.length ≤ s.cfg.payloadMax →
    (∀ i d, ds[i]? = some d → (arg.extractLsb' (8 * i) 8).toNat = d.val) →
    w.kp.length = ds.length → s.ackedFrame w →
    ∃ t, exec (.sendDigits bit (BitVec.ofNat 4 ds.length) arg) s = .next t ∧
      t.tr = s.tr ++ Wire.frame s.cfg (ds.map fun d => s.cfg.segTable[d] ||| (if bit then 0x80 else 0x00))
        (s.cfg.ctrlOnMask ||| s.br.setWidth 8) w ∧
      (∀ i (h : i < 15) d, ds[i]? = some d → t.pb[i] = s.cfg.segTable[d] ||| (if bit then 0x80 else 0x00)) ∧
      t.plen = BitVec.ofNat 4 ds.length ∧ t.pi = t.plen ∧ t.sr = 0 ∧ t.bc = 8 ∧ t.ac = BitVec.ofNat 8 (w.kc + 1) ∧
      t.clk = .hi ∧ t.dio = .hi ∧ t.clkO = true ∧ t.dioO = true ∧ t.en = true ∧ t.lf = s.lf ∧
      responded s t ⟨.ok, none⟩ ∧ keepsControl s t

/-- 43_framing.md R195, R196; 42_encoders.md R174: SEND_NUMBER on a live instance with a value below `10 ^ PAYLOAD_MAX`; the
digits are the ones `Obligations.DecimalDigits` describes, the indicator bit is not set. The segment table, the command
bytes, the on-mask and `PAYLOAD_MAX` (at least 1, 00_scope.md R11) are the instantiation's. -/
def Obligations.SendNumberRuns : Prop :=
  ∀ (v : Word32) (w : FrameWaits) (s : State), s.life = .live → s.cfg.ok = true → v.toNat < 10 ^ s.cfg.payloadMax →
    w.kp.length = (dec v).length → s.ackedFrame w → ∃ t, exec (.sendNumber v) s = .next t ∧
      t.tr = s.tr ++ Wire.frame s.cfg ((dec v).map fun d => s.cfg.segTable[d]) (s.cfg.ctrlOnMask ||| s.br.setWidth 8) w ∧
      (∀ i (h : i < 15) d, (dec v)[i]? = some d → t.pb[i] = s.cfg.segTable[d]) ∧
      t.plen.toNat = (dec v).length ∧ t.pi = t.plen ∧ t.sr = 0 ∧ t.bc = 8 ∧ t.ac = BitVec.ofNat 8 (w.kc + 1) ∧
      t.clk = .hi ∧ t.dio = .hi ∧ t.clkO = true ∧ t.dioO = true ∧ t.en = true ∧ t.lf = s.lf ∧
      responded s t ⟨.ok, none⟩ ∧ keepsControl s t

/-- 30_encoding.md R107: SEND_NUMBER has the effect of SEND_DIGITS on the decimal digits with the indicator bit 0, whatever the
draws: the two leave the same state. -/
def Obligations.SendNumberIsSendDigits : Prop :=
  ∀ (v : Word32) (arg : HostArg) (s : State), s.cfg.ok = true → v.toNat < 10 ^ s.cfg.payloadMax →
    (∀ i d, (dec v)[i]? = some d → (arg.extractLsb' (8 * i) 8).toNat = d.val) →
    exec (.sendNumber v) s = exec (.sendDigits false (BitVec.ofNat 4 (dec v).length) arg) s

/-- 30_encoding.md R104, R105; 60_exceptions.md R233, R234, R237, R243: every refused command, in the order of the checks;
only `ST`, `SEQ` and the response port change beside `CMD`, and the trace gains nothing. The bounds are the instantiation's
`PAYLOAD_MAX`, at least 1 (00_scope.md R11). -/
def Obligations.RefusedCommands : Prop :=
  ∀ s : State,
    (s.life = .live → exec .init s = .next (refusedWith .badLifecycle s)) ∧
    (∀ i : Instr, s.life = .unbuilt → i.isHostCommand = true → i ≠ .init →
      exec i s = .next (refusedWith .badLifecycle s)) ∧
    (s.life = .live → ∀ (len : BitVec 4) (arg : HostArg) (bit : Bool), s.cfg.payloadMax < len.toNat →
      exec (.sendBytes len arg) s = .next (refusedWith .badLength s) ∧
      exec (.sendDigits bit len arg) s = .next (refusedWith .badLength s)) ∧
    (s.life = .live → ∀ (len : BitVec 4) (arg : HostArg) (bit : Bool) (i : Nat), len.toNat ≤ s.cfg.payloadMax →
      i < len.toNat → 9 < (arg.extractLsb' (8 * i) 8).toNat →
      exec (.sendDigits bit len arg) s = .next (refusedWith .badDigit s)) ∧
    (s.life = .live → ∀ v : Word32, s.cfg.ok = true → 10 ^ s.cfg.payloadMax ≤ v.toNat →
      exec (.sendNumber v) s = .next (refusedWith .badLength s)) ∧
    (s.life = .live → ∀ b : Byte, 7 < b.toNat →
      exec (.setBrightness b) s = .next (refusedWith .badBrightness s))

/-- 43_framing.md R192 to R195; 60_exceptions.md R241: each of the three sends performs no line action before its checks; when
they pass, its payload is in `PB` and `PLEN` before the first line action, so a line fault at that action leaves the new
payload. -/
def Obligations.ResolveBeforeTransmit : Prop :=
  ∀ (i : Instr) (bs : List Byte) (e : ErrVal) (s : State), s.life = .live → s.cfg.ok = true → s.drawAt 0 = .err e →
    bs.length ≤ s.cfg.payloadMax →
    ((∃ len arg, i = .sendBytes len arg ∧ bs = (List.range len.toNat).map fun j => arg.extractLsb' (8 * j) 8) ∨
      (∃ (bit : Bool) (ds : List Digit) (arg : HostArg), i = .sendDigits bit (BitVec.ofNat 4 ds.length) arg ∧
        (∀ (j : Nat) (d : Digit), ds[j]? = some d → (arg.extractLsb' (8 * j) 8).toNat = d.val) ∧
        bs = ds.map fun d => s.cfg.segTable[d] ||| (if bit then 0x80 else 0x00)) ∨
      ∃ v, i = .sendNumber v ∧ bs = (dec v).map fun d => s.cfg.segTable[d]) →
    ∃ t, exec i s = .next t ∧ t.tr = s.tr ++ [.c1e e] ∧
      t.plen.toNat = bs.length ∧ (∀ j (h : j < 15) b, bs[j]? = some b → t.pb[j] = b) ∧
      responded s t ⟨.lineFault, some e⟩ ∧ t.errv = e ∧ t.lf = true ∧ t.clk = .x ∧ t.dio = s.dio ∧ t.dioO = s.dioO ∧
      t.en = s.en ∧ t.sr = s.sr ∧ t.bc = s.bc ∧ t.ac = s.ac ∧ t.pi = s.pi ∧ keepsControl s t

/-- 60_exceptions.md R242; 70_reset_and_hazards.md R284: against an absent device a send that passed its checks ends in
ACK_TIMEOUT after its first byte, and `EN` and `LF` are as they were. -/
def Obligations.SendUnacknowledged : Prop :=
  ∀ (i : Instr) (s : State), s.life = .live → s.cfg.ok = true → s.okAt 0 4 → s.unackedSlot 4 →
    ((∃ len arg, i = .sendBytes len arg ∧ len.toNat ≤ s.cfg.payloadMax) ∨
      (∃ v, i = .sendNumber v ∧ v.toNat < 10 ^ s.cfg.payloadMax) ∨
      (∃ bit len arg, i = .sendDigits bit len arg ∧ len.toNat ≤ s.cfg.payloadMax ∧
        ∀ j, j < len.toNat → (arg.extractLsb' (8 * j) 8).toNat ≤ 9)) →
    ∃ t, exec i s = .next t ∧ t.tr = s.tr ++ Wire.start ++ Wire.unacked s.cfg.dataCmd ∧
      responded s t ⟨.ackTimeout, none⟩ ∧ t.clk = .lo ∧ t.dio = .hi ∧ t.ac = 255 ∧ t.sr = 0 ∧ t.bc = 8 ∧
      t.en = s.en ∧ t.lf = s.lf ∧ t.pi = s.pi ∧ keepsControl s t

/-! ### The lifecycle commands -/

/-- 44_lifecycle.md R210; 10_state.md R43: INIT from UNBUILT, done and failed at each of its two drives. -/
def Obligations.InitRuns : Prop :=
  ∀ s : State, s.life = .unbuilt →
    (s.okAt 0 2 → ∃ ev, exec .init s = .next (State.answeredOk ev
      { s.linesRaised with lf := false, life := .live, br := Config.brightnessInit, en := true })) ∧
    ∀ e, ∃ oc od : Bool,
      (s.drawAt 0 = .err e → exec .init s = .next (State.faulted e
        { s.skipDraws 1 with clk := .x, clkO := oc, tr := s.tr ++ [.c1e e] })) ∧
      (s.okAt 0 1 → s.drawAt 1 = .err e → exec .init s = .next (State.faulted e
        { s.skipDraws 2 with clk := .hi, clkO := true, dio := .x, dioO := od, tr := s.tr ++ [.c1, .d1e e] }))

/-- 44_lifecycle.md R211, R212: ENABLE sends the "on" byte with the present brightness, and `EN` is 1; DISABLE sends the "off"
byte, and `EN` is 0. Both bytes are the instantiation's. -/
def Obligations.OnAndOffRun : Prop :=
  ∀ (k : Nat) (s : State), s.life = .live → s.ackedTransmission 0 [k] →
    (∃ ev, exec .enable s = .next (State.answeredOk ev { s.phaseCSent (s.cfg.ctrlOnMask ||| s.br.setWidth 8) k with en := true })) ∧
    ∃ ev, exec .disable s = .next (State.answeredOk ev { s.phaseCSent s.cfg.ctrlOff k with en := false })

/-- 44_lifecycle.md R211, R212; 60_exceptions.md R241, R242: ENABLE and DISABLE end without success in a refusal, a line fault or
a timeout only, and then `EN` is as it was, whatever the draws; against an absent device the byte is sent whole and times
out; a first line action that fails is the only one. Both bytes are the instantiation's. -/
def Obligations.ControlCommandsFail : Prop :=
  ∀ (i : Instr) (s : State), i = .enable ∨ i = .disable →
    (∃ t, exec i s = .next t ∧ (t.st ≠ .ok → t.en = s.en ∧ keepsPayload s t ∧ keepsControl s t ∧
      (t = refusedWith .badLifecycle s ∧ s.life = .unbuilt ∨
        s.life = .live ∧ s.traceGrew t ∧ (responded s t ⟨.ackTimeout, none⟩ ∧ t.lf = s.lf ∨
          ∃ e, responded s t ⟨.lineFault, some e⟩ ∧ t.errv = e ∧ t.lf = true)))) ∧
    (s.life = .live → s.okAt 0 4 → s.unackedSlot 4 → ∃ t, exec i s = .next t ∧
      t.tr = s.tr ++ Wire.start ++ Wire.unacked (if i = .enable then s.cfg.ctrlOnMask ||| s.br.setWidth 8 else s.cfg.ctrlOff) ∧
      responded s t ⟨.ackTimeout, none⟩ ∧ t.en = s.en ∧ t.lf = s.lf ∧ keepsPayload s t ∧ keepsControl s t) ∧
    ∀ e, s.life = .live → s.drawAt 0 = .err e → ∃ o : Bool, exec i s = .next (State.faulted e
      { s.skipDraws 1 with clk := .x, clkO := o, tr := s.tr ++ [.c1e e] })

/-- 44_lifecycle.md R213: SET_BRIGHTNESS writes `BR` and performs no line action. -/
def Obligations.SetBrightnessRuns : Prop :=
  ∀ (b : Byte) (s : State), s.life = .live → b.toNat ≤ 7 →
    ∃ ev, exec (.setBrightness b) s = .next (State.answeredOk ev { s with br := b.setWidth 3 })

/-- 44_lifecycle.md R215; 60_exceptions.md R245: TEARDOWN answers OK whatever the lines do, and leaves the power-on values.
The "off" byte is the instantiation's. -/
def Obligations.TeardownRuns : Prop :=
  ∀ s : State, s.life = .live → ∃ t, exec .teardown s = .next t ∧ responded s t ⟨.ok, none⟩ ∧
    t.life = .unbuilt ∧ t.en = false ∧ t.lf = false ∧ t.clk = .x ∧ t.dio = .x ∧ s.traceGrew t ∧
    t.cmd = s.cmd ∧ t.host = s.host ∧
    (∀ k, s.ackedTransmission 0 [k] → t.tr = s.tr ++ Wire.transmission [s.cfg.ctrlOff] [k]) ∧
    (s.okAt 0 4 → s.unackedSlot 4 → t.tr = s.tr ++ Wire.start ++ Wire.unacked s.cfg.ctrlOff) ∧
    (∀ e, s.drawAt 0 = .err e → t.tr = s.tr ++ [.c1e e])

/-- 44_lifecycle.md R215; 40_line_actions.md R139; 60_exceptions.md R245: inside TEARDOWN a line fault or a timeout is
discarded: any operation of its disable either leaves TEARDOWN in progress or completes it with OK. -/
def Obligations.TeardownDiscards : Prop :=
  ∀ (i : Instr) (s : State), s.seq.cmd = .teardown →
    (∃ a : Act, i = a.instr) ∨ i = .start ∨ i = .stop ∨ i = .waitAck ∨ (∃ v, i = .sendByte v) ∨ (∃ c, i = .phaseC c) →
    ∃ t, exec i s = .next t ∧ s.traceGrew t ∧
      (t.seq.cmd = .teardown ∧ t.responses = s.responses ∧ t.life = s.life ∧ t.lf = s.lf ∨
        responded s t ⟨.ok, none⟩ ∧ t.life = .unbuilt ∧ t.lf = false ∧ t.en = false ∧ t.clk = .x ∧ t.dio = .x)

/-! ### Whole-machine rules over the meanings -/

/-- 60_exceptions.md R235; 10_state.md R36; 00_scope.md R12: whatever the draws, a host command answers, exactly once, and with
a status its row of the table allows; it leaves the engine idle and does not touch `CMD` or the port. A LINE_FAULT carries a
value of `E`; where `E` is the empty type there is none. How `E` is taken is the model's (log 5). -/
def Obligations.CommandStatuses : Prop :=
  ∀ (i : Instr) (s : State), i.isHostCommand = true → ∃ t r, exec i s = .next t ∧ responded s t r ∧
    r.status ∈ commandStatuses i ∧ (r.status = .lineFault ↔ r.err.isSome = true) ∧
    (∀ e, r.err = some e → s.cfg.isErr e = true) ∧ (s.cfg.errors = some 0 → r.status ≠ .lineFault ∧ (t.lf = true → s.lf = true)) ∧
    t.cmd = s.cmd ∧ t.host = s.host ∧ s.traceGrew t

/-- 44_lifecycle.md R216; 10_state.md R39: the lifecycle and `EN`, command by command. -/
def Obligations.LifecycleTransitions : Prop :=
  ∀ (i : Instr) (s t : State), i.isHostCommand = true → exec i s = .next t →
    (i = .init → t.life = (if s.life = .unbuilt ∧ t.st ≠ .ok then .unbuilt else .live)) ∧
    (i = .teardown → t.life = .unbuilt) ∧
    (i ≠ .init → i ≠ .teardown → t.life = s.life) ∧
    (t.st ≠ .ok → t.en = s.en ∧ t.br = s.br)

/-- 10_state.md R34; 20_memory.md R64, R79: a send, ENABLE and DISABLE leave `BR`, and every command but a send and TEARDOWN
leaves the payload registers. -/
def Obligations.CommandFrames : Prop :=
  ∀ (i : Instr) (s t : State), i.isHostCommand = true → exec i s = .next t →
    (i ≠ .init → i ≠ .teardown → (∀ b, i ≠ .setBrightness b) → t.br = s.br) ∧
    ((i = .init ∨ i = .enable ∨ i = .disable ∨ ∃ b, i = .setBrightness b) → keepsPayload s t) ∧
    (∀ b, i = .setBrightness b → keepsLines s t ∧ t.lf = s.lf ∧ t.en = s.en)

/-! ### The machine as it steps -/

/-- 92_eei_decisions.md D1; 10_state.md R33: a step of the busy engine is the meaning of the line action `SEQ` names, and then
the sequencer's move unless that action ended the command. -/
def Obligations.StepRunsLineAction : Prop :=
  ∀ (s : State) (a : Act), s.seq.cmd ≠ .idle → currentAct s = some a → ∃ t, exec a.instr s = .next t ∧
    (t.seq.cmd ≠ .idle → step s = .next (advance t)) ∧ (t.seq.cmd = .idle → step s = .next t)

/-- 10_state.md R36; 20_memory.md R80: a step of the idle engine accepts the word at the command port: the `8 + AW` bits its wires
carry (30_encoding.md R91) are captured in `CMD` and decoded, and the command is begun; a command that ends at once (a
refusal, SET_BRIGHTNESS) is its whole meaning. With no word nothing changes but the response port. -/
def Obligations.StepAccepts : Prop :=
  ∀ s : State, s.seq.cmd = .idle →
    (s.host = [] → step s = .next { s with rspValid := false }) ∧
    ∀ w rest, s.host = w :: rest → ∃ t, step s = .next t ∧ t.host = rest ∧ t.tr = s.tr ∧
      t.cmd.toNat = w.toNat % 2 ^ (8 + max 32 (8 * s.cfg.payloadMax)) ∧
      (t.seq.cmd = .idle → exec (decodeHost t.cmd) { s with cmd := t.cmd, host := rest, rspValid := false } = .next t)

/-- 00_scope.md R15; 70_reset_and_hazards.md R284: from the acceptance of any host word the machine reaches the state that the
command's meaning leaves, whatever the draws: in the step of acceptance, 45 line actions of start and stop conditions and
563 for each byte, so 3987 steps at most with the default `PAYLOAD_MAX = 4` (log 15). -/
def Obligations.RunReachesMeaning : Prop :=
  ∀ (s : State) (w : HostWord) (rest : List HostWord), s.seq.cmd = .idle → s.host = w :: rest →
    ∃ n t, n ≤ 46 + (3 + s.cfg.payloadMax) * 563 ∧
      exec (decodeHost (s.cfg.onPort w)) { s with cmd := s.cfg.onPort w, host := rest, rspValid := false } = .next t ∧
      Host.Core.run core n s = .next t

/-- 10_state.md R24 to R33, R42; 41_transport.md R150 to R154: every step keeps the invariant of the engine. Two clauses rest on
the model's choices: that `BC`, `PLEN` and `PI` are in range after TEARDOWN too, where the spec leaves any value (log 19),
and the place of the payload bit of `SEQ`, the model's own (log 11). -/
def Obligations.StepKeepsInvariant : Prop :=
  ∀ s t : State, s.Inv → step s = .next t → t.Inv

/-- The invariant holds at power-on, and the parameters there, the defaults (log 15), meet 00_scope.md R11. The registers that
R42 leaves unspecified hold zero there, the model's choice (log 4). -/
def Obligations.ResetInvariant : Prop := State.reset.Inv ∧ State.reset.cfg.ok = true

/-- 20_memory.md R78: in a state of the invariant a step never stops. -/
def Obligations.StepNeverStops : Prop :=
  ∀ s : State, s.Inv → ∃ t, step s = .next t

/-- 10_state.md R38; 40_line_actions.md R138: the trace is never cleared; a step of the busy engine adds exactly one entry, a
step of the idle engine none. -/
def Obligations.TraceGrows : Prop :=
  ∀ s t : State, step s = .next t →
    (s.seq.cmd ≠ .idle → ∃ tok, t.tr = s.tr ++ [tok]) ∧ (s.seq.cmd = .idle → t.tr = s.tr)

/-- 10_state.md R36, R37: a response is given exactly when a command ends, and never while one goes on. That `rsp_valid` falls
at the next step of the idle engine is the model's choice (log 13), and so is that the port shows `ERRV` at all times
(log 26). -/
def Obligations.OneResponse : Prop :=
  ∀ s t : State, step s = .next t →
    (t.seq.cmd ≠ .idle → t.responses = s.responses ∧ t.cmdReady = false) ∧
    (t.seq.cmd = .idle → s.seq.cmd ≠ .idle ∨ s.host ≠ [] →
      ∃ r, responded s t r ∧ t.cmdReady = true ∧ (r.status = .lineFault → r.err = some t.rspErr)) ∧
    (s.seq.cmd = .idle → s.host = [] → t.responses = s.responses ∧ t.rspValid = false ∧ t.st = s.st)

/-- 20_memory.md R80; 10_state.md R36: while a command is in progress the engine reads nothing from the command port. -/
def Obligations.PortUnseenWhenBusy : Prop :=
  ∀ (s : State) (h : List HostWord), s.seq.cmd ≠ .idle →
    match step s, step { s with host := h } with
    | .next t, .next t' => t' = { t with host := h }
    | .fault f, .fault f' => f = f'
    | _, _ => False

/-- 10_state.md R24, R37 to R40: no rule reads `CLK`, `DIO`, `EN`, `LF`, `ST`, `ERRV` or `TR`, nor the wires or the response port.
Whatever these hold, a step stops with one fault, or does one thing: one next state of everything else, one set of writes to
these, the same new entries of the trace and the same responses. -/
def Obligations.FlagsDecideNothing : Prop :=
  ∀ s : State,
    (∃ x : Fault, ∀ f : Flags, step (s.setFlags f) = .fault x) ∨
    ∃ (u : State) (w : FlagWrites), ∀ f : Flags, step (s.setFlags f) = .next (u.setFlags (w.on f))

/-- 41_transport.md R153; 40_line_actions.md R134: in a state of the invariant the engine samples only inside WAIT_ACK, with the
clock low and the data line released. -/
def Obligations.SampleDiscipline : Prop :=
  ∀ s : State, s.Inv → s.seq.cmd ≠ .idle → currentAct s = some .dioSample →
    s.seq.rt = .waitAck ∧ s.clk = .lo ∧ s.dio = .hi ∧ s.clkO = false ∧ s.dioO = true ∧ s.ac ≠ 255

/-- 30_encoding.md R94: inside a byte slot the data line is driven only while the clock is low, and it is stable while the
clock is high. -/
def Obligations.DataStableWhileClockHigh : Prop :=
  ∀ (s : State) (a : Act), s.Inv → s.seq.cmd ≠ .idle → s.seq.rt = .sendByte ∨ s.seq.rt = .waitAck →
    currentAct s = some a → (a = .dioLo ∨ a = .dioHi ∨ a = .dioSample → s.clk = .lo) ∧
      ∀ t, s.clk = .hi → step s = .next t → t.seq.cmd ≠ .idle → t.dio = s.dio ∧ t.dioO = s.dioO

/-- 10_state.md R34; 20_memory.md R79: `BR` changes only at the end of INIT, in SET_BRIGHTNESS and at the end of TEARDOWN. -/
def Obligations.BrightnessChanges : Prop :=
  ∀ s t : State, step s = .next t → t.br ≠ s.br →
    (s.seq.cmd = .init ∧ t.br = Config.brightnessInit ∨ s.seq.cmd = .teardown ∧ t.life = .unbuilt ∨
      ∃ w rest b, s.seq.cmd = .idle ∧ s.host = w :: rest ∧ decodeHost (s.cfg.onPort w) = .setBrightness b ∧ t.br = b.setWidth 3) ∧
    t.seq.cmd = .idle

/-- 10_state.md R40; 44_lifecycle.md R215: `LF` is set by a failed line action only, and cleared by INIT's acceptance and by
TEARDOWN only. -/
def Obligations.LineFaultFlag : Prop :=
  ∀ s t : State, step s = .next t →
    (t.lf = true → s.lf = false → s.seq.cmd ≠ .idle ∧ t.st = .lineFault ∧ ∃ e, s.drawAt 0 = .err e ∧ t.errv = e) ∧
    (t.lf = false → s.lf = true →
      s.seq.cmd = .teardown ∧ t.life = .unbuilt ∨
        s.seq.cmd = .idle ∧ s.life = .unbuilt ∧ ∃ w rest, s.host = w :: rest ∧ decodeHost (s.cfg.onPort w) = .init)

/-- 10_state.md R29, R36; 20_memory.md R64: `CMD` is written at acceptance only, with the word at the command port, and `PB` and
`PLEN` only when a send is accepted and at the end of TEARDOWN; a byte of `PB` at or above `PAYLOAD_MAX` never. -/
def Obligations.PayloadAndCommandWrites : Prop :=
  ∀ s t : State, step s = .next t →
    (t.cmd ≠ s.cmd → s.seq.cmd = .idle ∧ s.cmdWord = some t.cmd ∧ s.host.tail = t.host) ∧
    (t.pb ≠ s.pb ∨ t.plen ≠ s.plen →
      s.seq.cmd = .teardown ∧ t.seq.cmd = .idle ∨
        s.seq.cmd = .idle ∧ (t.seq.cmd = .sendBytes ∨ t.seq.cmd = .sendDigits ∨ t.seq.cmd = .sendNumber)) ∧
    ∀ i (h : i < 15), s.cfg.payloadMax ≤ i → t.pb[i] = s.pb[i]

/-- 10_state.md R39: `EN` becomes 1 only at a successful end of INIT, of a send or of ENABLE, and 0 only at the end of DISABLE
or of TEARDOWN. -/
def Obligations.EnableFlag : Prop :=
  ∀ s t : State, step s = .next t → t.en ≠ s.en →
    t.st = .ok ∧ t.seq.cmd = .idle ∧
      (t.en = true → s.seq.cmd = .init ∨ s.seq.cmd = .sendBytes ∨ s.seq.cmd = .sendDigits ∨ s.seq.cmd = .sendNumber ∨
        s.seq.cmd = .enable) ∧
      (t.en = false → s.seq.cmd = .disable ∨ s.seq.cmd = .teardown)

/-- 10_state.md R42: the power-on values the spec gives. That `rsp_status` shows `ST` while `rsp_valid` is 0 is the model's choice
(log 26). -/
def Obligations.PowerOn : Prop :=
  State.reset.life = .unbuilt ∧ State.reset.seq = Seq.idle ∧ State.reset.cmdReady = true ∧ State.reset.clk = .x ∧
  State.reset.dio = .x ∧ State.reset.en = false ∧ State.reset.lf = false ∧ State.reset.st = .ok ∧ State.reset.rspStatus = 0 ∧
  State.reset.tr = [] ∧ State.reset.rspValid = false ∧ State.reset.responses = []

/-- 70_reset_and_hazards.md R271; 60_exceptions.md R234: from power-on every command but INIT is refused with BAD_LIFECYCLE, in
one step, and the refused command changes `CMD`, `ST`, `SEQ` and the response port only, in every instantiation. That the
other registers hold what `State.reset` gives them is the model's choice where R42 gives none (log 4). -/
def Obligations.OnlyInitAtPowerOn : Prop :=
  ∀ (p : Params) (w : HostWord) (draws : List Draw),
    decodeHost (p.onPort w) ≠ .init →
      step { State.reset with cfg := p, host := [w], draws := draws } = .next
        { State.reset with
          cfg := p, draws := draws, cmd := p.onPort w, st := .badLifecycle, rspValid := true,
          responses := [⟨.badLifecycle, none⟩] }

/-- 10_state.md R35; 20_memory.md R61, R79; 00_scope.md R10: the parameters, `SEGROM` among them, are constants: no operation and
no step writes one. That they stand in the state is the model's choice (log 27). -/
def Obligations.ParametersNeverWritten : Prop :=
  (∀ (i : Instr) (s : State), ∃ t, exec i s = .next t ∧ t.cfg = s.cfg) ∧
  ∀ s t : State, step s = .next t → t.cfg = s.cfg
end

