-- ==== Sys2Proof/Laws/State.lean ====
section
/-!
SUPPORT. What each update of the state does to each field: one lemma per update and field, true by definition, so that
no later proof unfolds an update.
-/
namespace Sys2Proof.Machine

/-! ### State.skipDraws -/

@[simp] theorem State.skipDraws_cfg (n : Nat) (s : State) : (State.skipDraws n s).cfg = s.cfg := rfl
@[simp] theorem State.skipDraws_life (n : Nat) (s : State) : (State.skipDraws n s).life = s.life := rfl
@[simp] theorem State.skipDraws_seq (n : Nat) (s : State) : (State.skipDraws n s).seq = s.seq := rfl
@[simp] theorem State.skipDraws_clk (n : Nat) (s : State) : (State.skipDraws n s).clk = s.clk := rfl
@[simp] theorem State.skipDraws_dio (n : Nat) (s : State) : (State.skipDraws n s).dio = s.dio := rfl
@[simp] theorem State.skipDraws_clkO (n : Nat) (s : State) : (State.skipDraws n s).clkO = s.clkO := rfl
@[simp] theorem State.skipDraws_dioO (n : Nat) (s : State) : (State.skipDraws n s).dioO = s.dioO := rfl
@[simp] theorem State.skipDraws_br (n : Nat) (s : State) : (State.skipDraws n s).br = s.br := rfl
@[simp] theorem State.skipDraws_en (n : Nat) (s : State) : (State.skipDraws n s).en = s.en := rfl
@[simp] theorem State.skipDraws_lf (n : Nat) (s : State) : (State.skipDraws n s).lf = s.lf := rfl
@[simp] theorem State.skipDraws_st (n : Nat) (s : State) : (State.skipDraws n s).st = s.st := rfl
@[simp] theorem State.skipDraws_errv (n : Nat) (s : State) : (State.skipDraws n s).errv = s.errv := rfl
@[simp] theorem State.skipDraws_sr (n : Nat) (s : State) : (State.skipDraws n s).sr = s.sr := rfl
@[simp] theorem State.skipDraws_bc (n : Nat) (s : State) : (State.skipDraws n s).bc = s.bc := rfl
@[simp] theorem State.skipDraws_ac (n : Nat) (s : State) : (State.skipDraws n s).ac = s.ac := rfl
@[simp] theorem State.skipDraws_pb (n : Nat) (s : State) : (State.skipDraws n s).pb = s.pb := rfl
@[simp] theorem State.skipDraws_plen (n : Nat) (s : State) : (State.skipDraws n s).plen = s.plen := rfl
@[simp] theorem State.skipDraws_pi (n : Nat) (s : State) : (State.skipDraws n s).pi = s.pi := rfl
@[simp] theorem State.skipDraws_cmd (n : Nat) (s : State) : (State.skipDraws n s).cmd = s.cmd := rfl
@[simp] theorem State.skipDraws_tr (n : Nat) (s : State) : (State.skipDraws n s).tr = s.tr := rfl
@[simp] theorem State.skipDraws_rspValid (n : Nat) (s : State) : (State.skipDraws n s).rspValid = s.rspValid := rfl
@[simp] theorem State.skipDraws_responses (n : Nat) (s : State) : (State.skipDraws n s).responses = s.responses := rfl
@[simp] theorem State.skipDraws_host (n : Nat) (s : State) : (State.skipDraws n s).host = s.host := rfl
@[simp] theorem State.skipDraws_draws (n : Nat) (s : State) : (State.skipDraws n s).draws = s.draws.drop n := rfl
@[simp] theorem State.skipDraws_drawn (n : Nat) (s : State) : (State.skipDraws n s).drawn = s.drawn + n := rfl
@[simp] theorem State.skipDraws_fresh (n : Nat) (s : State) : (State.skipDraws n s).fresh = s.fresh := rfl
@[simp] theorem State.skipDraws_ret (n : Nat) (s : State) : (State.skipDraws n s).ret = s.ret := rfl

/-! ### State.setClk -/

@[simp] theorem State.setClk_cfg (o : Bool) (l : Level) (s : State) : (State.setClk o l s).cfg = s.cfg := rfl
@[simp] theorem State.setClk_life (o : Bool) (l : Level) (s : State) : (State.setClk o l s).life = s.life := rfl
@[simp] theorem State.setClk_seq (o : Bool) (l : Level) (s : State) : (State.setClk o l s).seq = s.seq := rfl
@[simp] theorem State.setClk_clk (o : Bool) (l : Level) (s : State) : (State.setClk o l s).clk = l := rfl
@[simp] theorem State.setClk_dio (o : Bool) (l : Level) (s : State) : (State.setClk o l s).dio = s.dio := rfl
@[simp] theorem State.setClk_clkO (o : Bool) (l : Level) (s : State) : (State.setClk o l s).clkO = o := rfl
@[simp] theorem State.setClk_dioO (o : Bool) (l : Level) (s : State) : (State.setClk o l s).dioO = s.dioO := rfl
@[simp] theorem State.setClk_br (o : Bool) (l : Level) (s : State) : (State.setClk o l s).br = s.br := rfl
@[simp] theorem State.setClk_en (o : Bool) (l : Level) (s : State) : (State.setClk o l s).en = s.en := rfl
@[simp] theorem State.setClk_lf (o : Bool) (l : Level) (s : State) : (State.setClk o l s).lf = s.lf := rfl
@[simp] theorem State.setClk_st (o : Bool) (l : Level) (s : State) : (State.setClk o l s).st = s.st := rfl
@[simp] theorem State.setClk_errv (o : Bool) (l : Level) (s : State) : (State.setClk o l s).errv = s.errv := rfl
@[simp] theorem State.setClk_sr (o : Bool) (l : Level) (s : State) : (State.setClk o l s).sr = s.sr := rfl
@[simp] theorem State.setClk_bc (o : Bool) (l : Level) (s : State) : (State.setClk o l s).bc = s.bc := rfl
@[simp] theorem State.setClk_ac (o : Bool) (l : Level) (s : State) : (State.setClk o l s).ac = s.ac := rfl
@[simp] theorem State.setClk_pb (o : Bool) (l : Level) (s : State) : (State.setClk o l s).pb = s.pb := rfl
@[simp] theorem State.setClk_plen (o : Bool) (l : Level) (s : State) : (State.setClk o l s).plen = s.plen := rfl
@[simp] theorem State.setClk_pi (o : Bool) (l : Level) (s : State) : (State.setClk o l s).pi = s.pi := rfl
@[simp] theorem State.setClk_cmd (o : Bool) (l : Level) (s : State) : (State.setClk o l s).cmd = s.cmd := rfl
@[simp] theorem State.setClk_tr (o : Bool) (l : Level) (s : State) : (State.setClk o l s).tr = s.tr := rfl
@[simp] theorem State.setClk_rspValid (o : Bool) (l : Level) (s : State) : (State.setClk o l s).rspValid = s.rspValid := rfl
@[simp] theorem State.setClk_responses (o : Bool) (l : Level) (s : State) : (State.setClk o l s).responses = s.responses := rfl
@[simp] theorem State.setClk_host (o : Bool) (l : Level) (s : State) : (State.setClk o l s).host = s.host := rfl
@[simp] theorem State.setClk_draws (o : Bool) (l : Level) (s : State) : (State.setClk o l s).draws = s.draws := rfl
@[simp] theorem State.setClk_drawn (o : Bool) (l : Level) (s : State) : (State.setClk o l s).drawn = s.drawn := rfl
@[simp] theorem State.setClk_fresh (o : Bool) (l : Level) (s : State) : (State.setClk o l s).fresh = s.fresh := rfl
@[simp] theorem State.setClk_ret (o : Bool) (l : Level) (s : State) : (State.setClk o l s).ret = s.ret := rfl

/-! ### State.setDio -/

@[simp] theorem State.setDio_cfg (o : Bool) (l : Level) (s : State) : (State.setDio o l s).cfg = s.cfg := rfl
@[simp] theorem State.setDio_life (o : Bool) (l : Level) (s : State) : (State.setDio o l s).life = s.life := rfl
@[simp] theorem State.setDio_seq (o : Bool) (l : Level) (s : State) : (State.setDio o l s).seq = s.seq := rfl
@[simp] theorem State.setDio_clk (o : Bool) (l : Level) (s : State) : (State.setDio o l s).clk = s.clk := rfl
@[simp] theorem State.setDio_dio (o : Bool) (l : Level) (s : State) : (State.setDio o l s).dio = l := rfl
@[simp] theorem State.setDio_clkO (o : Bool) (l : Level) (s : State) : (State.setDio o l s).clkO = s.clkO := rfl
@[simp] theorem State.setDio_dioO (o : Bool) (l : Level) (s : State) : (State.setDio o l s).dioO = o := rfl
@[simp] theorem State.setDio_br (o : Bool) (l : Level) (s : State) : (State.setDio o l s).br = s.br := rfl
@[simp] theorem State.setDio_en (o : Bool) (l : Level) (s : State) : (State.setDio o l s).en = s.en := rfl
@[simp] theorem State.setDio_lf (o : Bool) (l : Level) (s : State) : (State.setDio o l s).lf = s.lf := rfl
@[simp] theorem State.setDio_st (o : Bool) (l : Level) (s : State) : (State.setDio o l s).st = s.st := rfl
@[simp] theorem State.setDio_errv (o : Bool) (l : Level) (s : State) : (State.setDio o l s).errv = s.errv := rfl
@[simp] theorem State.setDio_sr (o : Bool) (l : Level) (s : State) : (State.setDio o l s).sr = s.sr := rfl
@[simp] theorem State.setDio_bc (o : Bool) (l : Level) (s : State) : (State.setDio o l s).bc = s.bc := rfl
@[simp] theorem State.setDio_ac (o : Bool) (l : Level) (s : State) : (State.setDio o l s).ac = s.ac := rfl
@[simp] theorem State.setDio_pb (o : Bool) (l : Level) (s : State) : (State.setDio o l s).pb = s.pb := rfl
@[simp] theorem State.setDio_plen (o : Bool) (l : Level) (s : State) : (State.setDio o l s).plen = s.plen := rfl
@[simp] theorem State.setDio_pi (o : Bool) (l : Level) (s : State) : (State.setDio o l s).pi = s.pi := rfl
@[simp] theorem State.setDio_cmd (o : Bool) (l : Level) (s : State) : (State.setDio o l s).cmd = s.cmd := rfl
@[simp] theorem State.setDio_tr (o : Bool) (l : Level) (s : State) : (State.setDio o l s).tr = s.tr := rfl
@[simp] theorem State.setDio_rspValid (o : Bool) (l : Level) (s : State) : (State.setDio o l s).rspValid = s.rspValid := rfl
@[simp] theorem State.setDio_responses (o : Bool) (l : Level) (s : State) : (State.setDio o l s).responses = s.responses := rfl
@[simp] theorem State.setDio_host (o : Bool) (l : Level) (s : State) : (State.setDio o l s).host = s.host := rfl
@[simp] theorem State.setDio_draws (o : Bool) (l : Level) (s : State) : (State.setDio o l s).draws = s.draws := rfl
@[simp] theorem State.setDio_drawn (o : Bool) (l : Level) (s : State) : (State.setDio o l s).drawn = s.drawn := rfl
@[simp] theorem State.setDio_fresh (o : Bool) (l : Level) (s : State) : (State.setDio o l s).fresh = s.fresh := rfl
@[simp] theorem State.setDio_ret (o : Bool) (l : Level) (s : State) : (State.setDio o l s).ret = s.ret := rfl

/-! ### State.markFault -/

@[simp] theorem State.markFault_cfg (s : State) : (State.markFault s).cfg = s.cfg := rfl
@[simp] theorem State.markFault_life (s : State) : (State.markFault s).life = s.life := rfl
@[simp] theorem State.markFault_seq (s : State) : (State.markFault s).seq = s.seq := rfl
@[simp] theorem State.markFault_clk (s : State) : (State.markFault s).clk = s.clk := rfl
@[simp] theorem State.markFault_dio (s : State) : (State.markFault s).dio = s.dio := rfl
@[simp] theorem State.markFault_clkO (s : State) : (State.markFault s).clkO = s.clkO := rfl
@[simp] theorem State.markFault_dioO (s : State) : (State.markFault s).dioO = s.dioO := rfl
@[simp] theorem State.markFault_br (s : State) : (State.markFault s).br = s.br := rfl
@[simp] theorem State.markFault_en (s : State) : (State.markFault s).en = s.en := rfl
@[simp] theorem State.markFault_lf (s : State) : (State.markFault s).lf = true := rfl
@[simp] theorem State.markFault_st (s : State) : (State.markFault s).st = s.st := rfl
@[simp] theorem State.markFault_errv (s : State) : (State.markFault s).errv = s.errv := rfl
@[simp] theorem State.markFault_sr (s : State) : (State.markFault s).sr = s.sr := rfl
@[simp] theorem State.markFault_bc (s : State) : (State.markFault s).bc = s.bc := rfl
@[simp] theorem State.markFault_ac (s : State) : (State.markFault s).ac = s.ac := rfl
@[simp] theorem State.markFault_pb (s : State) : (State.markFault s).pb = s.pb := rfl
@[simp] theorem State.markFault_plen (s : State) : (State.markFault s).plen = s.plen := rfl
@[simp] theorem State.markFault_pi (s : State) : (State.markFault s).pi = s.pi := rfl
@[simp] theorem State.markFault_cmd (s : State) : (State.markFault s).cmd = s.cmd := rfl
@[simp] theorem State.markFault_tr (s : State) : (State.markFault s).tr = s.tr := rfl
@[simp] theorem State.markFault_rspValid (s : State) : (State.markFault s).rspValid = s.rspValid := rfl
@[simp] theorem State.markFault_responses (s : State) : (State.markFault s).responses = s.responses := rfl
@[simp] theorem State.markFault_host (s : State) : (State.markFault s).host = s.host := rfl
@[simp] theorem State.markFault_draws (s : State) : (State.markFault s).draws = s.draws := rfl
@[simp] theorem State.markFault_drawn (s : State) : (State.markFault s).drawn = s.drawn := rfl
@[simp] theorem State.markFault_fresh (s : State) : (State.markFault s).fresh = s.fresh + 1 := rfl
@[simp] theorem State.markFault_ret (s : State) : (State.markFault s).ret = s.ret := rfl

/-! ### State.returning -/

@[simp] theorem State.returning_cfg (r : Ret) (s : State) : (State.returning r s).cfg = s.cfg := rfl
@[simp] theorem State.returning_life (r : Ret) (s : State) : (State.returning r s).life = s.life := rfl
@[simp] theorem State.returning_seq (r : Ret) (s : State) : (State.returning r s).seq = s.seq := rfl
@[simp] theorem State.returning_clk (r : Ret) (s : State) : (State.returning r s).clk = s.clk := rfl
@[simp] theorem State.returning_dio (r : Ret) (s : State) : (State.returning r s).dio = s.dio := rfl
@[simp] theorem State.returning_clkO (r : Ret) (s : State) : (State.returning r s).clkO = s.clkO := rfl
@[simp] theorem State.returning_dioO (r : Ret) (s : State) : (State.returning r s).dioO = s.dioO := rfl
@[simp] theorem State.returning_br (r : Ret) (s : State) : (State.returning r s).br = s.br := rfl
@[simp] theorem State.returning_en (r : Ret) (s : State) : (State.returning r s).en = s.en := rfl
@[simp] theorem State.returning_lf (r : Ret) (s : State) : (State.returning r s).lf = s.lf := rfl
@[simp] theorem State.returning_st (r : Ret) (s : State) : (State.returning r s).st = s.st := rfl
@[simp] theorem State.returning_errv (r : Ret) (s : State) : (State.returning r s).errv = s.errv := rfl
@[simp] theorem State.returning_sr (r : Ret) (s : State) : (State.returning r s).sr = s.sr := rfl
@[simp] theorem State.returning_bc (r : Ret) (s : State) : (State.returning r s).bc = s.bc := rfl
@[simp] theorem State.returning_ac (r : Ret) (s : State) : (State.returning r s).ac = s.ac := rfl
@[simp] theorem State.returning_pb (r : Ret) (s : State) : (State.returning r s).pb = s.pb := rfl
@[simp] theorem State.returning_plen (r : Ret) (s : State) : (State.returning r s).plen = s.plen := rfl
@[simp] theorem State.returning_pi (r : Ret) (s : State) : (State.returning r s).pi = s.pi := rfl
@[simp] theorem State.returning_cmd (r : Ret) (s : State) : (State.returning r s).cmd = s.cmd := rfl
@[simp] theorem State.returning_tr (r : Ret) (s : State) : (State.returning r s).tr = s.tr := rfl
@[simp] theorem State.returning_rspValid (r : Ret) (s : State) : (State.returning r s).rspValid = s.rspValid := rfl
@[simp] theorem State.returning_responses (r : Ret) (s : State) : (State.returning r s).responses = s.responses := rfl
@[simp] theorem State.returning_host (r : Ret) (s : State) : (State.returning r s).host = s.host := rfl
@[simp] theorem State.returning_draws (r : Ret) (s : State) : (State.returning r s).draws = s.draws := rfl
@[simp] theorem State.returning_drawn (r : Ret) (s : State) : (State.returning r s).drawn = s.drawn := rfl
@[simp] theorem State.returning_fresh (r : Ret) (s : State) : (State.returning r s).fresh = s.fresh := rfl
@[simp] theorem State.returning_ret (r : Ret) (s : State) : (State.returning r s).ret = r := rfl

/-! ### State.logTok -/

@[simp] theorem State.logTok_cfg (t : Tok) (s : State) : (State.logTok t s).cfg = s.cfg := rfl
@[simp] theorem State.logTok_life (t : Tok) (s : State) : (State.logTok t s).life = s.life := rfl
@[simp] theorem State.logTok_seq (t : Tok) (s : State) : (State.logTok t s).seq = s.seq := rfl
@[simp] theorem State.logTok_clk (t : Tok) (s : State) : (State.logTok t s).clk = s.clk := rfl
@[simp] theorem State.logTok_dio (t : Tok) (s : State) : (State.logTok t s).dio = s.dio := rfl
@[simp] theorem State.logTok_clkO (t : Tok) (s : State) : (State.logTok t s).clkO = s.clkO := rfl
@[simp] theorem State.logTok_dioO (t : Tok) (s : State) : (State.logTok t s).dioO = s.dioO := rfl
@[simp] theorem State.logTok_br (t : Tok) (s : State) : (State.logTok t s).br = s.br := rfl
@[simp] theorem State.logTok_en (t : Tok) (s : State) : (State.logTok t s).en = s.en := rfl
@[simp] theorem State.logTok_lf (t : Tok) (s : State) : (State.logTok t s).lf = s.lf := rfl
@[simp] theorem State.logTok_st (t : Tok) (s : State) : (State.logTok t s).st = s.st := rfl
@[simp] theorem State.logTok_errv (t : Tok) (s : State) : (State.logTok t s).errv = s.errv := rfl
@[simp] theorem State.logTok_sr (t : Tok) (s : State) : (State.logTok t s).sr = s.sr := rfl
@[simp] theorem State.logTok_bc (t : Tok) (s : State) : (State.logTok t s).bc = s.bc := rfl
@[simp] theorem State.logTok_ac (t : Tok) (s : State) : (State.logTok t s).ac = s.ac := rfl
@[simp] theorem State.logTok_pb (t : Tok) (s : State) : (State.logTok t s).pb = s.pb := rfl
@[simp] theorem State.logTok_plen (t : Tok) (s : State) : (State.logTok t s).plen = s.plen := rfl
@[simp] theorem State.logTok_pi (t : Tok) (s : State) : (State.logTok t s).pi = s.pi := rfl
@[simp] theorem State.logTok_cmd (t : Tok) (s : State) : (State.logTok t s).cmd = s.cmd := rfl
@[simp] theorem State.logTok_tr (t : Tok) (s : State) : (State.logTok t s).tr = s.tr ++ [t] := rfl
@[simp] theorem State.logTok_rspValid (t : Tok) (s : State) : (State.logTok t s).rspValid = s.rspValid := rfl
@[simp] theorem State.logTok_responses (t : Tok) (s : State) : (State.logTok t s).responses = s.responses := rfl
@[simp] theorem State.logTok_host (t : Tok) (s : State) : (State.logTok t s).host = s.host := rfl
@[simp] theorem State.logTok_draws (t : Tok) (s : State) : (State.logTok t s).draws = s.draws := rfl
@[simp] theorem State.logTok_drawn (t : Tok) (s : State) : (State.logTok t s).drawn = s.drawn := rfl
@[simp] theorem State.logTok_fresh (t : Tok) (s : State) : (State.logTok t s).fresh = s.fresh := rfl
@[simp] theorem State.logTok_ret (t : Tok) (s : State) : (State.logTok t s).ret = s.ret := rfl

/-! ### State.setEn -/

@[simp] theorem State.setEn_cfg (b : Bool) (s : State) : (State.setEn b s).cfg = s.cfg := rfl
@[simp] theorem State.setEn_life (b : Bool) (s : State) : (State.setEn b s).life = s.life := rfl
@[simp] theorem State.setEn_seq (b : Bool) (s : State) : (State.setEn b s).seq = s.seq := rfl
@[simp] theorem State.setEn_clk (b : Bool) (s : State) : (State.setEn b s).clk = s.clk := rfl
@[simp] theorem State.setEn_dio (b : Bool) (s : State) : (State.setEn b s).dio = s.dio := rfl
@[simp] theorem State.setEn_clkO (b : Bool) (s : State) : (State.setEn b s).clkO = s.clkO := rfl
@[simp] theorem State.setEn_dioO (b : Bool) (s : State) : (State.setEn b s).dioO = s.dioO := rfl
@[simp] theorem State.setEn_br (b : Bool) (s : State) : (State.setEn b s).br = s.br := rfl
@[simp] theorem State.setEn_en (b : Bool) (s : State) : (State.setEn b s).en = b := rfl
@[simp] theorem State.setEn_lf (b : Bool) (s : State) : (State.setEn b s).lf = s.lf := rfl
@[simp] theorem State.setEn_st (b : Bool) (s : State) : (State.setEn b s).st = s.st := rfl
@[simp] theorem State.setEn_errv (b : Bool) (s : State) : (State.setEn b s).errv = s.errv := rfl
@[simp] theorem State.setEn_sr (b : Bool) (s : State) : (State.setEn b s).sr = s.sr := rfl
@[simp] theorem State.setEn_bc (b : Bool) (s : State) : (State.setEn b s).bc = s.bc := rfl
@[simp] theorem State.setEn_ac (b : Bool) (s : State) : (State.setEn b s).ac = s.ac := rfl
@[simp] theorem State.setEn_pb (b : Bool) (s : State) : (State.setEn b s).pb = s.pb := rfl
@[simp] theorem State.setEn_plen (b : Bool) (s : State) : (State.setEn b s).plen = s.plen := rfl
@[simp] theorem State.setEn_pi (b : Bool) (s : State) : (State.setEn b s).pi = s.pi := rfl
@[simp] theorem State.setEn_cmd (b : Bool) (s : State) : (State.setEn b s).cmd = s.cmd := rfl
@[simp] theorem State.setEn_tr (b : Bool) (s : State) : (State.setEn b s).tr = s.tr := rfl
@[simp] theorem State.setEn_rspValid (b : Bool) (s : State) : (State.setEn b s).rspValid = s.rspValid := rfl
@[simp] theorem State.setEn_responses (b : Bool) (s : State) : (State.setEn b s).responses = s.responses := rfl
@[simp] theorem State.setEn_host (b : Bool) (s : State) : (State.setEn b s).host = s.host := rfl
@[simp] theorem State.setEn_draws (b : Bool) (s : State) : (State.setEn b s).draws = s.draws := rfl
@[simp] theorem State.setEn_drawn (b : Bool) (s : State) : (State.setEn b s).drawn = s.drawn := rfl
@[simp] theorem State.setEn_fresh (b : Bool) (s : State) : (State.setEn b s).fresh = s.fresh := rfl
@[simp] theorem State.setEn_ret (b : Bool) (s : State) : (State.setEn b s).ret = s.ret := rfl

/-! ### State.setBr -/

@[simp] theorem State.setBr_cfg (b : BitVec 3) (s : State) : (State.setBr b s).cfg = s.cfg := rfl
@[simp] theorem State.setBr_life (b : BitVec 3) (s : State) : (State.setBr b s).life = s.life := rfl
@[simp] theorem State.setBr_seq (b : BitVec 3) (s : State) : (State.setBr b s).seq = s.seq := rfl
@[simp] theorem State.setBr_clk (b : BitVec 3) (s : State) : (State.setBr b s).clk = s.clk := rfl
@[simp] theorem State.setBr_dio (b : BitVec 3) (s : State) : (State.setBr b s).dio = s.dio := rfl
@[simp] theorem State.setBr_clkO (b : BitVec 3) (s : State) : (State.setBr b s).clkO = s.clkO := rfl
@[simp] theorem State.setBr_dioO (b : BitVec 3) (s : State) : (State.setBr b s).dioO = s.dioO := rfl
@[simp] theorem State.setBr_br (b : BitVec 3) (s : State) : (State.setBr b s).br = b := rfl
@[simp] theorem State.setBr_en (b : BitVec 3) (s : State) : (State.setBr b s).en = s.en := rfl
@[simp] theorem State.setBr_lf (b : BitVec 3) (s : State) : (State.setBr b s).lf = s.lf := rfl
@[simp] theorem State.setBr_st (b : BitVec 3) (s : State) : (State.setBr b s).st = s.st := rfl
@[simp] theorem State.setBr_errv (b : BitVec 3) (s : State) : (State.setBr b s).errv = s.errv := rfl
@[simp] theorem State.setBr_sr (b : BitVec 3) (s : State) : (State.setBr b s).sr = s.sr := rfl
@[simp] theorem State.setBr_bc (b : BitVec 3) (s : State) : (State.setBr b s).bc = s.bc := rfl
@[simp] theorem State.setBr_ac (b : BitVec 3) (s : State) : (State.setBr b s).ac = s.ac := rfl
@[simp] theorem State.setBr_pb (b : BitVec 3) (s : State) : (State.setBr b s).pb = s.pb := rfl
@[simp] theorem State.setBr_plen (b : BitVec 3) (s : State) : (State.setBr b s).plen = s.plen := rfl
@[simp] theorem State.setBr_pi (b : BitVec 3) (s : State) : (State.setBr b s).pi = s.pi := rfl
@[simp] theorem State.setBr_cmd (b : BitVec 3) (s : State) : (State.setBr b s).cmd = s.cmd := rfl
@[simp] theorem State.setBr_tr (b : BitVec 3) (s : State) : (State.setBr b s).tr = s.tr := rfl
@[simp] theorem State.setBr_rspValid (b : BitVec 3) (s : State) : (State.setBr b s).rspValid = s.rspValid := rfl
@[simp] theorem State.setBr_responses (b : BitVec 3) (s : State) : (State.setBr b s).responses = s.responses := rfl
@[simp] theorem State.setBr_host (b : BitVec 3) (s : State) : (State.setBr b s).host = s.host := rfl
@[simp] theorem State.setBr_draws (b : BitVec 3) (s : State) : (State.setBr b s).draws = s.draws := rfl
@[simp] theorem State.setBr_drawn (b : BitVec 3) (s : State) : (State.setBr b s).drawn = s.drawn := rfl
@[simp] theorem State.setBr_fresh (b : BitVec 3) (s : State) : (State.setBr b s).fresh = s.fresh := rfl
@[simp] theorem State.setBr_ret (b : BitVec 3) (s : State) : (State.setBr b s).ret = s.ret := rfl

/-! ### State.build -/

@[simp] theorem State.build_cfg (s : State) : (State.build s).cfg = s.cfg := rfl
@[simp] theorem State.build_life (s : State) : (State.build s).life = .live := rfl
@[simp] theorem State.build_seq (s : State) : (State.build s).seq = s.seq := rfl
@[simp] theorem State.build_clk (s : State) : (State.build s).clk = s.clk := rfl
@[simp] theorem State.build_dio (s : State) : (State.build s).dio = s.dio := rfl
@[simp] theorem State.build_clkO (s : State) : (State.build s).clkO = s.clkO := rfl
@[simp] theorem State.build_dioO (s : State) : (State.build s).dioO = s.dioO := rfl
@[simp] theorem State.build_br (s : State) : (State.build s).br = s.br := rfl
@[simp] theorem State.build_en (s : State) : (State.build s).en = s.en := rfl
@[simp] theorem State.build_lf (s : State) : (State.build s).lf = s.lf := rfl
@[simp] theorem State.build_st (s : State) : (State.build s).st = s.st := rfl
@[simp] theorem State.build_errv (s : State) : (State.build s).errv = s.errv := rfl
@[simp] theorem State.build_sr (s : State) : (State.build s).sr = s.sr := rfl
@[simp] theorem State.build_bc (s : State) : (State.build s).bc = s.bc := rfl
@[simp] theorem State.build_ac (s : State) : (State.build s).ac = s.ac := rfl
@[simp] theorem State.build_pb (s : State) : (State.build s).pb = s.pb := rfl
@[simp] theorem State.build_plen (s : State) : (State.build s).plen = s.plen := rfl
@[simp] theorem State.build_pi (s : State) : (State.build s).pi = s.pi := rfl
@[simp] theorem State.build_cmd (s : State) : (State.build s).cmd = s.cmd := rfl
@[simp] theorem State.build_tr (s : State) : (State.build s).tr = s.tr := rfl
@[simp] theorem State.build_rspValid (s : State) : (State.build s).rspValid = s.rspValid := rfl
@[simp] theorem State.build_responses (s : State) : (State.build s).responses = s.responses := rfl
@[simp] theorem State.build_host (s : State) : (State.build s).host = s.host := rfl
@[simp] theorem State.build_draws (s : State) : (State.build s).draws = s.draws := rfl
@[simp] theorem State.build_drawn (s : State) : (State.build s).drawn = s.drawn := rfl
@[simp] theorem State.build_fresh (s : State) : (State.build s).fresh = s.fresh := rfl
@[simp] theorem State.build_ret (s : State) : (State.build s).ret = s.ret := rfl

/-! ### State.clearFault -/

@[simp] theorem State.clearFault_cfg (s : State) : (State.clearFault s).cfg = s.cfg := rfl
@[simp] theorem State.clearFault_life (s : State) : (State.clearFault s).life = s.life := rfl
@[simp] theorem State.clearFault_seq (s : State) : (State.clearFault s).seq = s.seq := rfl
@[simp] theorem State.clearFault_clk (s : State) : (State.clearFault s).clk = s.clk := rfl
@[simp] theorem State.clearFault_dio (s : State) : (State.clearFault s).dio = s.dio := rfl
@[simp] theorem State.clearFault_clkO (s : State) : (State.clearFault s).clkO = s.clkO := rfl
@[simp] theorem State.clearFault_dioO (s : State) : (State.clearFault s).dioO = s.dioO := rfl
@[simp] theorem State.clearFault_br (s : State) : (State.clearFault s).br = s.br := rfl
@[simp] theorem State.clearFault_en (s : State) : (State.clearFault s).en = s.en := rfl
@[simp] theorem State.clearFault_lf (s : State) : (State.clearFault s).lf = false := rfl
@[simp] theorem State.clearFault_st (s : State) : (State.clearFault s).st = s.st := rfl
@[simp] theorem State.clearFault_errv (s : State) : (State.clearFault s).errv = s.errv := rfl
@[simp] theorem State.clearFault_sr (s : State) : (State.clearFault s).sr = s.sr := rfl
@[simp] theorem State.clearFault_bc (s : State) : (State.clearFault s).bc = s.bc := rfl
@[simp] theorem State.clearFault_ac (s : State) : (State.clearFault s).ac = s.ac := rfl
@[simp] theorem State.clearFault_pb (s : State) : (State.clearFault s).pb = s.pb := rfl
@[simp] theorem State.clearFault_plen (s : State) : (State.clearFault s).plen = s.plen := rfl
@[simp] theorem State.clearFault_pi (s : State) : (State.clearFault s).pi = s.pi := rfl
@[simp] theorem State.clearFault_cmd (s : State) : (State.clearFault s).cmd = s.cmd := rfl
@[simp] theorem State.clearFault_tr (s : State) : (State.clearFault s).tr = s.tr := rfl
@[simp] theorem State.clearFault_rspValid (s : State) : (State.clearFault s).rspValid = s.rspValid := rfl
@[simp] theorem State.clearFault_responses (s : State) : (State.clearFault s).responses = s.responses := rfl
@[simp] theorem State.clearFault_host (s : State) : (State.clearFault s).host = s.host := rfl
@[simp] theorem State.clearFault_draws (s : State) : (State.clearFault s).draws = s.draws := rfl
@[simp] theorem State.clearFault_drawn (s : State) : (State.clearFault s).drawn = s.drawn := rfl
@[simp] theorem State.clearFault_fresh (s : State) : (State.clearFault s).fresh = s.fresh := rfl
@[simp] theorem State.clearFault_ret (s : State) : (State.clearFault s).ret = s.ret := rfl

/-! ### State.recordErr -/

@[simp] theorem State.recordErr_cfg (e : ErrVal) (s : State) : (State.recordErr e s).cfg = s.cfg := rfl
@[simp] theorem State.recordErr_life (e : ErrVal) (s : State) : (State.recordErr e s).life = s.life := rfl
@[simp] theorem State.recordErr_seq (e : ErrVal) (s : State) : (State.recordErr e s).seq = s.seq := rfl
@[simp] theorem State.recordErr_clk (e : ErrVal) (s : State) : (State.recordErr e s).clk = s.clk := rfl
@[simp] theorem State.recordErr_dio (e : ErrVal) (s : State) : (State.recordErr e s).dio = s.dio := rfl
@[simp] theorem State.recordErr_clkO (e : ErrVal) (s : State) : (State.recordErr e s).clkO = s.clkO := rfl
@[simp] theorem State.recordErr_dioO (e : ErrVal) (s : State) : (State.recordErr e s).dioO = s.dioO := rfl
@[simp] theorem State.recordErr_br (e : ErrVal) (s : State) : (State.recordErr e s).br = s.br := rfl
@[simp] theorem State.recordErr_en (e : ErrVal) (s : State) : (State.recordErr e s).en = s.en := rfl
@[simp] theorem State.recordErr_lf (e : ErrVal) (s : State) : (State.recordErr e s).lf = s.lf := rfl
@[simp] theorem State.recordErr_st (e : ErrVal) (s : State) : (State.recordErr e s).st = s.st := rfl
@[simp] theorem State.recordErr_errv (e : ErrVal) (s : State) : (State.recordErr e s).errv = e := rfl
@[simp] theorem State.recordErr_sr (e : ErrVal) (s : State) : (State.recordErr e s).sr = s.sr := rfl
@[simp] theorem State.recordErr_bc (e : ErrVal) (s : State) : (State.recordErr e s).bc = s.bc := rfl
@[simp] theorem State.recordErr_ac (e : ErrVal) (s : State) : (State.recordErr e s).ac = s.ac := rfl
@[simp] theorem State.recordErr_pb (e : ErrVal) (s : State) : (State.recordErr e s).pb = s.pb := rfl
@[simp] theorem State.recordErr_plen (e : ErrVal) (s : State) : (State.recordErr e s).plen = s.plen := rfl
@[simp] theorem State.recordErr_pi (e : ErrVal) (s : State) : (State.recordErr e s).pi = s.pi := rfl
@[simp] theorem State.recordErr_cmd (e : ErrVal) (s : State) : (State.recordErr e s).cmd = s.cmd := rfl
@[simp] theorem State.recordErr_tr (e : ErrVal) (s : State) : (State.recordErr e s).tr = s.tr := rfl
@[simp] theorem State.recordErr_rspValid (e : ErrVal) (s : State) : (State.recordErr e s).rspValid = s.rspValid := rfl
@[simp] theorem State.recordErr_responses (e : ErrVal) (s : State) : (State.recordErr e s).responses = s.responses := rfl
@[simp] theorem State.recordErr_host (e : ErrVal) (s : State) : (State.recordErr e s).host = s.host := rfl
@[simp] theorem State.recordErr_draws (e : ErrVal) (s : State) : (State.recordErr e s).draws = s.draws := rfl
@[simp] theorem State.recordErr_drawn (e : ErrVal) (s : State) : (State.recordErr e s).drawn = s.drawn := rfl
@[simp] theorem State.recordErr_fresh (e : ErrVal) (s : State) : (State.recordErr e s).fresh = s.fresh := rfl
@[simp] theorem State.recordErr_ret (e : ErrVal) (s : State) : (State.recordErr e s).ret = s.ret := rfl

/-! ### freeErrv -/

@[simp] theorem freeErrv_cfg (s : State) : (freeErrv s).cfg = s.cfg := rfl
@[simp] theorem freeErrv_life (s : State) : (freeErrv s).life = s.life := rfl
@[simp] theorem freeErrv_seq (s : State) : (freeErrv s).seq = s.seq := rfl
@[simp] theorem freeErrv_clk (s : State) : (freeErrv s).clk = s.clk := rfl
@[simp] theorem freeErrv_dio (s : State) : (freeErrv s).dio = s.dio := rfl
@[simp] theorem freeErrv_clkO (s : State) : (freeErrv s).clkO = s.clkO := rfl
@[simp] theorem freeErrv_dioO (s : State) : (freeErrv s).dioO = s.dioO := rfl
@[simp] theorem freeErrv_br (s : State) : (freeErrv s).br = s.br := rfl
@[simp] theorem freeErrv_en (s : State) : (freeErrv s).en = s.en := rfl
@[simp] theorem freeErrv_lf (s : State) : (freeErrv s).lf = s.lf := rfl
@[simp] theorem freeErrv_st (s : State) : (freeErrv s).st = s.st := rfl
@[simp] theorem freeErrv_errv (s : State) : (freeErrv s).errv = anyErr s.cfg (Config.freeNat s.fresh 0) := rfl
@[simp] theorem freeErrv_sr (s : State) : (freeErrv s).sr = s.sr := rfl
@[simp] theorem freeErrv_bc (s : State) : (freeErrv s).bc = s.bc := rfl
@[simp] theorem freeErrv_ac (s : State) : (freeErrv s).ac = s.ac := rfl
@[simp] theorem freeErrv_pb (s : State) : (freeErrv s).pb = s.pb := rfl
@[simp] theorem freeErrv_plen (s : State) : (freeErrv s).plen = s.plen := rfl
@[simp] theorem freeErrv_pi (s : State) : (freeErrv s).pi = s.pi := rfl
@[simp] theorem freeErrv_cmd (s : State) : (freeErrv s).cmd = s.cmd := rfl
@[simp] theorem freeErrv_tr (s : State) : (freeErrv s).tr = s.tr := rfl
@[simp] theorem freeErrv_rspValid (s : State) : (freeErrv s).rspValid = s.rspValid := rfl
@[simp] theorem freeErrv_responses (s : State) : (freeErrv s).responses = s.responses := rfl
@[simp] theorem freeErrv_host (s : State) : (freeErrv s).host = s.host := rfl
@[simp] theorem freeErrv_draws (s : State) : (freeErrv s).draws = s.draws := rfl
@[simp] theorem freeErrv_drawn (s : State) : (freeErrv s).drawn = s.drawn := rfl
@[simp] theorem freeErrv_fresh (s : State) : (freeErrv s).fresh = s.fresh + 1 := rfl
@[simp] theorem freeErrv_ret (s : State) : (freeErrv s).ret = s.ret := rfl

/-! ### respond -/

@[simp] theorem respond_cfg (st : Status) (c : Option ErrVal) (s : State) : (respond st c s).cfg = s.cfg := rfl
@[simp] theorem respond_life (st : Status) (c : Option ErrVal) (s : State) : (respond st c s).life = s.life := rfl
@[simp] theorem respond_seq (st : Status) (c : Option ErrVal) (s : State) : (respond st c s).seq = Seq.idle := rfl
@[simp] theorem respond_clk (st : Status) (c : Option ErrVal) (s : State) : (respond st c s).clk = s.clk := rfl
@[simp] theorem respond_dio (st : Status) (c : Option ErrVal) (s : State) : (respond st c s).dio = s.dio := rfl
@[simp] theorem respond_clkO (st : Status) (c : Option ErrVal) (s : State) : (respond st c s).clkO = s.clkO := rfl
@[simp] theorem respond_dioO (st : Status) (c : Option ErrVal) (s : State) : (respond st c s).dioO = s.dioO := rfl
@[simp] theorem respond_br (st : Status) (c : Option ErrVal) (s : State) : (respond st c s).br = s.br := rfl
@[simp] theorem respond_en (st : Status) (c : Option ErrVal) (s : State) : (respond st c s).en = s.en := rfl
@[simp] theorem respond_lf (st : Status) (c : Option ErrVal) (s : State) : (respond st c s).lf = s.lf := rfl
@[simp] theorem respond_st (st : Status) (c : Option ErrVal) (s : State) : (respond st c s).st = st := rfl
@[simp] theorem respond_errv (st : Status) (c : Option ErrVal) (s : State) : (respond st c s).errv = s.errv := rfl
@[simp] theorem respond_sr (st : Status) (c : Option ErrVal) (s : State) : (respond st c s).sr = s.sr := rfl
@[simp] theorem respond_bc (st : Status) (c : Option ErrVal) (s : State) : (respond st c s).bc = s.bc := rfl
@[simp] theorem respond_ac (st : Status) (c : Option ErrVal) (s : State) : (respond st c s).ac = s.ac := rfl
@[simp] theorem respond_pb (st : Status) (c : Option ErrVal) (s : State) : (respond st c s).pb = s.pb := rfl
@[simp] theorem respond_plen (st : Status) (c : Option ErrVal) (s : State) : (respond st c s).plen = s.plen := rfl
@[simp] theorem respond_pi (st : Status) (c : Option ErrVal) (s : State) : (respond st c s).pi = s.pi := rfl
@[simp] theorem respond_cmd (st : Status) (c : Option ErrVal) (s : State) : (respond st c s).cmd = s.cmd := rfl
@[simp] theorem respond_tr (st : Status) (c : Option ErrVal) (s : State) : (respond st c s).tr = s.tr := rfl
@[simp] theorem respond_rspValid (st : Status) (c : Option ErrVal) (s : State) : (respond st c s).rspValid = true := rfl
@[simp] theorem respond_responses (st : Status) (c : Option ErrVal) (s : State) : (respond st c s).responses = s.responses ++ [⟨st, c⟩] := rfl
@[simp] theorem respond_host (st : Status) (c : Option ErrVal) (s : State) : (respond st c s).host = s.host := rfl
@[simp] theorem respond_draws (st : Status) (c : Option ErrVal) (s : State) : (respond st c s).draws = s.draws := rfl
@[simp] theorem respond_drawn (st : Status) (c : Option ErrVal) (s : State) : (respond st c s).drawn = s.drawn := rfl
@[simp] theorem respond_fresh (st : Status) (c : Option ErrVal) (s : State) : (respond st c s).fresh = s.fresh := rfl
@[simp] theorem respond_ret (st : Status) (c : Option ErrVal) (s : State) : (respond st c s).ret = s.ret := rfl

/-! ### loadPayload -/

@[simp] theorem loadPayload_cfg (bs : List Byte) (s : State) : (loadPayload bs s).cfg = s.cfg := rfl
@[simp] theorem loadPayload_life (bs : List Byte) (s : State) : (loadPayload bs s).life = s.life := rfl
@[simp] theorem loadPayload_seq (bs : List Byte) (s : State) : (loadPayload bs s).seq = s.seq := rfl
@[simp] theorem loadPayload_clk (bs : List Byte) (s : State) : (loadPayload bs s).clk = s.clk := rfl
@[simp] theorem loadPayload_dio (bs : List Byte) (s : State) : (loadPayload bs s).dio = s.dio := rfl
@[simp] theorem loadPayload_clkO (bs : List Byte) (s : State) : (loadPayload bs s).clkO = s.clkO := rfl
@[simp] theorem loadPayload_dioO (bs : List Byte) (s : State) : (loadPayload bs s).dioO = s.dioO := rfl
@[simp] theorem loadPayload_br (bs : List Byte) (s : State) : (loadPayload bs s).br = s.br := rfl
@[simp] theorem loadPayload_en (bs : List Byte) (s : State) : (loadPayload bs s).en = s.en := rfl
@[simp] theorem loadPayload_lf (bs : List Byte) (s : State) : (loadPayload bs s).lf = s.lf := rfl
@[simp] theorem loadPayload_st (bs : List Byte) (s : State) : (loadPayload bs s).st = s.st := rfl
@[simp] theorem loadPayload_errv (bs : List Byte) (s : State) : (loadPayload bs s).errv = s.errv := rfl
@[simp] theorem loadPayload_sr (bs : List Byte) (s : State) : (loadPayload bs s).sr = s.sr := rfl
@[simp] theorem loadPayload_bc (bs : List Byte) (s : State) : (loadPayload bs s).bc = s.bc := rfl
@[simp] theorem loadPayload_ac (bs : List Byte) (s : State) : (loadPayload bs s).ac = s.ac := rfl
@[simp] theorem loadPayload_plen (bs : List Byte) (s : State) : (loadPayload bs s).plen = BitVec.ofNat 4 bs.length := rfl
@[simp] theorem loadPayload_pi (bs : List Byte) (s : State) : (loadPayload bs s).pi = s.pi := rfl
@[simp] theorem loadPayload_cmd (bs : List Byte) (s : State) : (loadPayload bs s).cmd = s.cmd := rfl
@[simp] theorem loadPayload_tr (bs : List Byte) (s : State) : (loadPayload bs s).tr = s.tr := rfl
@[simp] theorem loadPayload_rspValid (bs : List Byte) (s : State) : (loadPayload bs s).rspValid = s.rspValid := rfl
@[simp] theorem loadPayload_responses (bs : List Byte) (s : State) : (loadPayload bs s).responses = s.responses := rfl
@[simp] theorem loadPayload_host (bs : List Byte) (s : State) : (loadPayload bs s).host = s.host := rfl
@[simp] theorem loadPayload_draws (bs : List Byte) (s : State) : (loadPayload bs s).draws = s.draws := rfl
@[simp] theorem loadPayload_drawn (bs : List Byte) (s : State) : (loadPayload bs s).drawn = s.drawn := rfl
@[simp] theorem loadPayload_fresh (bs : List Byte) (s : State) : (loadPayload bs s).fresh = s.fresh + 1 := rfl
@[simp] theorem loadPayload_ret (bs : List Byte) (s : State) : (loadPayload bs s).ret = s.ret := rfl

/-! ### loadByte -/

@[simp] theorem loadByte_cfg (v : Byte) (s : State) : (loadByte v s).cfg = s.cfg := rfl
@[simp] theorem loadByte_life (v : Byte) (s : State) : (loadByte v s).life = s.life := rfl
@[simp] theorem loadByte_seq (v : Byte) (s : State) : (loadByte v s).seq = s.seq := rfl
@[simp] theorem loadByte_clk (v : Byte) (s : State) : (loadByte v s).clk = s.clk := rfl
@[simp] theorem loadByte_dio (v : Byte) (s : State) : (loadByte v s).dio = s.dio := rfl
@[simp] theorem loadByte_clkO (v : Byte) (s : State) : (loadByte v s).clkO = s.clkO := rfl
@[simp] theorem loadByte_dioO (v : Byte) (s : State) : (loadByte v s).dioO = s.dioO := rfl
@[simp] theorem loadByte_br (v : Byte) (s : State) : (loadByte v s).br = s.br := rfl
@[simp] theorem loadByte_en (v : Byte) (s : State) : (loadByte v s).en = s.en := rfl
@[simp] theorem loadByte_lf (v : Byte) (s : State) : (loadByte v s).lf = s.lf := rfl
@[simp] theorem loadByte_st (v : Byte) (s : State) : (loadByte v s).st = s.st := rfl
@[simp] theorem loadByte_errv (v : Byte) (s : State) : (loadByte v s).errv = s.errv := rfl
@[simp] theorem loadByte_sr (v : Byte) (s : State) : (loadByte v s).sr = v := rfl
@[simp] theorem loadByte_bc (v : Byte) (s : State) : (loadByte v s).bc = 0 := rfl
@[simp] theorem loadByte_ac (v : Byte) (s : State) : (loadByte v s).ac = s.ac := rfl
@[simp] theorem loadByte_pb (v : Byte) (s : State) : (loadByte v s).pb = s.pb := rfl
@[simp] theorem loadByte_plen (v : Byte) (s : State) : (loadByte v s).plen = s.plen := rfl
@[simp] theorem loadByte_pi (v : Byte) (s : State) : (loadByte v s).pi = s.pi := rfl
@[simp] theorem loadByte_cmd (v : Byte) (s : State) : (loadByte v s).cmd = s.cmd := rfl
@[simp] theorem loadByte_tr (v : Byte) (s : State) : (loadByte v s).tr = s.tr := rfl
@[simp] theorem loadByte_rspValid (v : Byte) (s : State) : (loadByte v s).rspValid = s.rspValid := rfl
@[simp] theorem loadByte_responses (v : Byte) (s : State) : (loadByte v s).responses = s.responses := rfl
@[simp] theorem loadByte_host (v : Byte) (s : State) : (loadByte v s).host = s.host := rfl
@[simp] theorem loadByte_draws (v : Byte) (s : State) : (loadByte v s).draws = s.draws := rfl
@[simp] theorem loadByte_drawn (v : Byte) (s : State) : (loadByte v s).drawn = s.drawn := rfl
@[simp] theorem loadByte_fresh (v : Byte) (s : State) : (loadByte v s).fresh = s.fresh := rfl
@[simp] theorem loadByte_ret (v : Byte) (s : State) : (loadByte v s).ret = s.ret := rfl

/-! ### shiftOut -/

@[simp] theorem shiftOut_cfg (s : State) : (shiftOut s).cfg = s.cfg := rfl
@[simp] theorem shiftOut_life (s : State) : (shiftOut s).life = s.life := rfl
@[simp] theorem shiftOut_seq (s : State) : (shiftOut s).seq = s.seq := rfl
@[simp] theorem shiftOut_clk (s : State) : (shiftOut s).clk = s.clk := rfl
@[simp] theorem shiftOut_dio (s : State) : (shiftOut s).dio = s.dio := rfl
@[simp] theorem shiftOut_clkO (s : State) : (shiftOut s).clkO = s.clkO := rfl
@[simp] theorem shiftOut_dioO (s : State) : (shiftOut s).dioO = s.dioO := rfl
@[simp] theorem shiftOut_br (s : State) : (shiftOut s).br = s.br := rfl
@[simp] theorem shiftOut_en (s : State) : (shiftOut s).en = s.en := rfl
@[simp] theorem shiftOut_lf (s : State) : (shiftOut s).lf = s.lf := rfl
@[simp] theorem shiftOut_st (s : State) : (shiftOut s).st = s.st := rfl
@[simp] theorem shiftOut_errv (s : State) : (shiftOut s).errv = s.errv := rfl
@[simp] theorem shiftOut_sr (s : State) : (shiftOut s).sr = s.sr >>> 1 := rfl
@[simp] theorem shiftOut_bc (s : State) : (shiftOut s).bc = s.bc + 1 := rfl
@[simp] theorem shiftOut_ac (s : State) : (shiftOut s).ac = s.ac := rfl
@[simp] theorem shiftOut_pb (s : State) : (shiftOut s).pb = s.pb := rfl
@[simp] theorem shiftOut_plen (s : State) : (shiftOut s).plen = s.plen := rfl
@[simp] theorem shiftOut_pi (s : State) : (shiftOut s).pi = s.pi := rfl
@[simp] theorem shiftOut_cmd (s : State) : (shiftOut s).cmd = s.cmd := rfl
@[simp] theorem shiftOut_tr (s : State) : (shiftOut s).tr = s.tr := rfl
@[simp] theorem shiftOut_rspValid (s : State) : (shiftOut s).rspValid = s.rspValid := rfl
@[simp] theorem shiftOut_responses (s : State) : (shiftOut s).responses = s.responses := rfl
@[simp] theorem shiftOut_host (s : State) : (shiftOut s).host = s.host := rfl
@[simp] theorem shiftOut_draws (s : State) : (shiftOut s).draws = s.draws := rfl
@[simp] theorem shiftOut_drawn (s : State) : (shiftOut s).drawn = s.drawn := rfl
@[simp] theorem shiftOut_fresh (s : State) : (shiftOut s).fresh = s.fresh := rfl
@[simp] theorem shiftOut_ret (s : State) : (shiftOut s).ret = s.ret := rfl

/-! ### clearPoll -/

@[simp] theorem clearPoll_cfg (s : State) : (clearPoll s).cfg = s.cfg := rfl
@[simp] theorem clearPoll_life (s : State) : (clearPoll s).life = s.life := rfl
@[simp] theorem clearPoll_seq (s : State) : (clearPoll s).seq = s.seq := rfl
@[simp] theorem clearPoll_clk (s : State) : (clearPoll s).clk = s.clk := rfl
@[simp] theorem clearPoll_dio (s : State) : (clearPoll s).dio = s.dio := rfl
@[simp] theorem clearPoll_clkO (s : State) : (clearPoll s).clkO = s.clkO := rfl
@[simp] theorem clearPoll_dioO (s : State) : (clearPoll s).dioO = s.dioO := rfl
@[simp] theorem clearPoll_br (s : State) : (clearPoll s).br = s.br := rfl
@[simp] theorem clearPoll_en (s : State) : (clearPoll s).en = s.en := rfl
@[simp] theorem clearPoll_lf (s : State) : (clearPoll s).lf = s.lf := rfl
@[simp] theorem clearPoll_st (s : State) : (clearPoll s).st = s.st := rfl
@[simp] theorem clearPoll_errv (s : State) : (clearPoll s).errv = s.errv := rfl
@[simp] theorem clearPoll_sr (s : State) : (clearPoll s).sr = s.sr := rfl
@[simp] theorem clearPoll_bc (s : State) : (clearPoll s).bc = s.bc := rfl
@[simp] theorem clearPoll_ac (s : State) : (clearPoll s).ac = 0 := rfl
@[simp] theorem clearPoll_pb (s : State) : (clearPoll s).pb = s.pb := rfl
@[simp] theorem clearPoll_plen (s : State) : (clearPoll s).plen = s.plen := rfl
@[simp] theorem clearPoll_pi (s : State) : (clearPoll s).pi = s.pi := rfl
@[simp] theorem clearPoll_cmd (s : State) : (clearPoll s).cmd = s.cmd := rfl
@[simp] theorem clearPoll_tr (s : State) : (clearPoll s).tr = s.tr := rfl
@[simp] theorem clearPoll_rspValid (s : State) : (clearPoll s).rspValid = s.rspValid := rfl
@[simp] theorem clearPoll_responses (s : State) : (clearPoll s).responses = s.responses := rfl
@[simp] theorem clearPoll_host (s : State) : (clearPoll s).host = s.host := rfl
@[simp] theorem clearPoll_draws (s : State) : (clearPoll s).draws = s.draws := rfl
@[simp] theorem clearPoll_drawn (s : State) : (clearPoll s).drawn = s.drawn := rfl
@[simp] theorem clearPoll_fresh (s : State) : (clearPoll s).fresh = s.fresh := rfl
@[simp] theorem clearPoll_ret (s : State) : (clearPoll s).ret = s.ret := rfl

/-! ### countSample -/

@[simp] theorem countSample_cfg (s : State) : (countSample s).cfg = s.cfg := rfl
@[simp] theorem countSample_life (s : State) : (countSample s).life = s.life := rfl
@[simp] theorem countSample_seq (s : State) : (countSample s).seq = s.seq := rfl
@[simp] theorem countSample_clk (s : State) : (countSample s).clk = s.clk := rfl
@[simp] theorem countSample_dio (s : State) : (countSample s).dio = s.dio := rfl
@[simp] theorem countSample_clkO (s : State) : (countSample s).clkO = s.clkO := rfl
@[simp] theorem countSample_dioO (s : State) : (countSample s).dioO = s.dioO := rfl
@[simp] theorem countSample_br (s : State) : (countSample s).br = s.br := rfl
@[simp] theorem countSample_en (s : State) : (countSample s).en = s.en := rfl
@[simp] theorem countSample_lf (s : State) : (countSample s).lf = s.lf := rfl
@[simp] theorem countSample_st (s : State) : (countSample s).st = s.st := rfl
@[simp] theorem countSample_errv (s : State) : (countSample s).errv = s.errv := rfl
@[simp] theorem countSample_sr (s : State) : (countSample s).sr = s.sr := rfl
@[simp] theorem countSample_bc (s : State) : (countSample s).bc = s.bc := rfl
@[simp] theorem countSample_ac (s : State) : (countSample s).ac = s.ac + 1 := rfl
@[simp] theorem countSample_pb (s : State) : (countSample s).pb = s.pb := rfl
@[simp] theorem countSample_plen (s : State) : (countSample s).plen = s.plen := rfl
@[simp] theorem countSample_pi (s : State) : (countSample s).pi = s.pi := rfl
@[simp] theorem countSample_cmd (s : State) : (countSample s).cmd = s.cmd := rfl
@[simp] theorem countSample_tr (s : State) : (countSample s).tr = s.tr := rfl
@[simp] theorem countSample_rspValid (s : State) : (countSample s).rspValid = s.rspValid := rfl
@[simp] theorem countSample_responses (s : State) : (countSample s).responses = s.responses := rfl
@[simp] theorem countSample_host (s : State) : (countSample s).host = s.host := rfl
@[simp] theorem countSample_draws (s : State) : (countSample s).draws = s.draws := rfl
@[simp] theorem countSample_drawn (s : State) : (countSample s).drawn = s.drawn := rfl
@[simp] theorem countSample_fresh (s : State) : (countSample s).fresh = s.fresh := rfl
@[simp] theorem countSample_ret (s : State) : (countSample s).ret = s.ret := rfl

/-! ### State.inPhase -/

@[simp] theorem State.inPhase_cfg (p : Phase) (s : State) : (State.inPhase p s).cfg = s.cfg := rfl
@[simp] theorem State.inPhase_life (p : Phase) (s : State) : (State.inPhase p s).life = s.life := rfl
@[simp] theorem State.inPhase_seq (p : Phase) (s : State) : (State.inPhase p s).seq = ⟨s.seq.cmd, p, s.seq.rt, s.seq.step, s.seq.payload⟩ := rfl
@[simp] theorem State.inPhase_clk (p : Phase) (s : State) : (State.inPhase p s).clk = s.clk := rfl
@[simp] theorem State.inPhase_dio (p : Phase) (s : State) : (State.inPhase p s).dio = s.dio := rfl
@[simp] theorem State.inPhase_clkO (p : Phase) (s : State) : (State.inPhase p s).clkO = s.clkO := rfl
@[simp] theorem State.inPhase_dioO (p : Phase) (s : State) : (State.inPhase p s).dioO = s.dioO := rfl
@[simp] theorem State.inPhase_br (p : Phase) (s : State) : (State.inPhase p s).br = s.br := rfl
@[simp] theorem State.inPhase_en (p : Phase) (s : State) : (State.inPhase p s).en = s.en := rfl
@[simp] theorem State.inPhase_lf (p : Phase) (s : State) : (State.inPhase p s).lf = s.lf := rfl
@[simp] theorem State.inPhase_st (p : Phase) (s : State) : (State.inPhase p s).st = s.st := rfl
@[simp] theorem State.inPhase_errv (p : Phase) (s : State) : (State.inPhase p s).errv = s.errv := rfl
@[simp] theorem State.inPhase_sr (p : Phase) (s : State) : (State.inPhase p s).sr = s.sr := rfl
@[simp] theorem State.inPhase_bc (p : Phase) (s : State) : (State.inPhase p s).bc = s.bc := rfl
@[simp] theorem State.inPhase_ac (p : Phase) (s : State) : (State.inPhase p s).ac = s.ac := rfl
@[simp] theorem State.inPhase_pb (p : Phase) (s : State) : (State.inPhase p s).pb = s.pb := rfl
@[simp] theorem State.inPhase_plen (p : Phase) (s : State) : (State.inPhase p s).plen = s.plen := rfl
@[simp] theorem State.inPhase_pi (p : Phase) (s : State) : (State.inPhase p s).pi = s.pi := rfl
@[simp] theorem State.inPhase_cmd (p : Phase) (s : State) : (State.inPhase p s).cmd = s.cmd := rfl
@[simp] theorem State.inPhase_tr (p : Phase) (s : State) : (State.inPhase p s).tr = s.tr := rfl
@[simp] theorem State.inPhase_rspValid (p : Phase) (s : State) : (State.inPhase p s).rspValid = s.rspValid := rfl
@[simp] theorem State.inPhase_responses (p : Phase) (s : State) : (State.inPhase p s).responses = s.responses := rfl
@[simp] theorem State.inPhase_host (p : Phase) (s : State) : (State.inPhase p s).host = s.host := rfl
@[simp] theorem State.inPhase_draws (p : Phase) (s : State) : (State.inPhase p s).draws = s.draws := rfl
@[simp] theorem State.inPhase_drawn (p : Phase) (s : State) : (State.inPhase p s).drawn = s.drawn := rfl
@[simp] theorem State.inPhase_fresh (p : Phase) (s : State) : (State.inPhase p s).fresh = s.fresh := rfl
@[simp] theorem State.inPhase_ret (p : Phase) (s : State) : (State.inPhase p s).ret = s.ret := rfl

/-! ### State.position -/

@[simp] theorem State.position_cfg (c : CmdName) (p : Phase) (r : Routine) (s : State) : (State.position c p r s).cfg = s.cfg := rfl
@[simp] theorem State.position_life (c : CmdName) (p : Phase) (r : Routine) (s : State) : (State.position c p r s).life = s.life := rfl
@[simp] theorem State.position_seq (c : CmdName) (p : Phase) (r : Routine) (s : State) : (State.position c p r s).seq = ⟨c, p, r, 0, false⟩ := rfl
@[simp] theorem State.position_clk (c : CmdName) (p : Phase) (r : Routine) (s : State) : (State.position c p r s).clk = s.clk := rfl
@[simp] theorem State.position_dio (c : CmdName) (p : Phase) (r : Routine) (s : State) : (State.position c p r s).dio = s.dio := rfl
@[simp] theorem State.position_clkO (c : CmdName) (p : Phase) (r : Routine) (s : State) : (State.position c p r s).clkO = s.clkO := rfl
@[simp] theorem State.position_dioO (c : CmdName) (p : Phase) (r : Routine) (s : State) : (State.position c p r s).dioO = s.dioO := rfl
@[simp] theorem State.position_br (c : CmdName) (p : Phase) (r : Routine) (s : State) : (State.position c p r s).br = s.br := rfl
@[simp] theorem State.position_en (c : CmdName) (p : Phase) (r : Routine) (s : State) : (State.position c p r s).en = s.en := rfl
@[simp] theorem State.position_lf (c : CmdName) (p : Phase) (r : Routine) (s : State) : (State.position c p r s).lf = s.lf := rfl
@[simp] theorem State.position_st (c : CmdName) (p : Phase) (r : Routine) (s : State) : (State.position c p r s).st = s.st := rfl
@[simp] theorem State.position_errv (c : CmdName) (p : Phase) (r : Routine) (s : State) : (State.position c p r s).errv = s.errv := rfl
@[simp] theorem State.position_sr (c : CmdName) (p : Phase) (r : Routine) (s : State) : (State.position c p r s).sr = s.sr := rfl
@[simp] theorem State.position_bc (c : CmdName) (p : Phase) (r : Routine) (s : State) : (State.position c p r s).bc = s.bc := rfl
@[simp] theorem State.position_ac (c : CmdName) (p : Phase) (r : Routine) (s : State) : (State.position c p r s).ac = s.ac := rfl
@[simp] theorem State.position_pb (c : CmdName) (p : Phase) (r : Routine) (s : State) : (State.position c p r s).pb = s.pb := rfl
@[simp] theorem State.position_plen (c : CmdName) (p : Phase) (r : Routine) (s : State) : (State.position c p r s).plen = s.plen := rfl
@[simp] theorem State.position_pi (c : CmdName) (p : Phase) (r : Routine) (s : State) : (State.position c p r s).pi = s.pi := rfl
@[simp] theorem State.position_cmd (c : CmdName) (p : Phase) (r : Routine) (s : State) : (State.position c p r s).cmd = s.cmd := rfl
@[simp] theorem State.position_tr (c : CmdName) (p : Phase) (r : Routine) (s : State) : (State.position c p r s).tr = s.tr := rfl
@[simp] theorem State.position_rspValid (c : CmdName) (p : Phase) (r : Routine) (s : State) : (State.position c p r s).rspValid = s.rspValid := rfl
@[simp] theorem State.position_responses (c : CmdName) (p : Phase) (r : Routine) (s : State) : (State.position c p r s).responses = s.responses := rfl
@[simp] theorem State.position_host (c : CmdName) (p : Phase) (r : Routine) (s : State) : (State.position c p r s).host = s.host := rfl
@[simp] theorem State.position_draws (c : CmdName) (p : Phase) (r : Routine) (s : State) : (State.position c p r s).draws = s.draws := rfl
@[simp] theorem State.position_drawn (c : CmdName) (p : Phase) (r : Routine) (s : State) : (State.position c p r s).drawn = s.drawn := rfl
@[simp] theorem State.position_fresh (c : CmdName) (p : Phase) (r : Routine) (s : State) : (State.position c p r s).fresh = s.fresh := rfl
@[simp] theorem State.position_ret (c : CmdName) (p : Phase) (r : Routine) (s : State) : (State.position c p r s).ret = s.ret := rfl

/-! ### clearIndex -/

@[simp] theorem clearIndex_cfg (s : State) : (clearIndex s).cfg = s.cfg := rfl
@[simp] theorem clearIndex_life (s : State) : (clearIndex s).life = s.life := rfl
@[simp] theorem clearIndex_seq (s : State) : (clearIndex s).seq = s.seq := rfl
@[simp] theorem clearIndex_clk (s : State) : (clearIndex s).clk = s.clk := rfl
@[simp] theorem clearIndex_dio (s : State) : (clearIndex s).dio = s.dio := rfl
@[simp] theorem clearIndex_clkO (s : State) : (clearIndex s).clkO = s.clkO := rfl
@[simp] theorem clearIndex_dioO (s : State) : (clearIndex s).dioO = s.dioO := rfl
@[simp] theorem clearIndex_br (s : State) : (clearIndex s).br = s.br := rfl
@[simp] theorem clearIndex_en (s : State) : (clearIndex s).en = s.en := rfl
@[simp] theorem clearIndex_lf (s : State) : (clearIndex s).lf = s.lf := rfl
@[simp] theorem clearIndex_st (s : State) : (clearIndex s).st = s.st := rfl
@[simp] theorem clearIndex_errv (s : State) : (clearIndex s).errv = s.errv := rfl
@[simp] theorem clearIndex_sr (s : State) : (clearIndex s).sr = s.sr := rfl
@[simp] theorem clearIndex_bc (s : State) : (clearIndex s).bc = s.bc := rfl
@[simp] theorem clearIndex_ac (s : State) : (clearIndex s).ac = s.ac := rfl
@[simp] theorem clearIndex_pb (s : State) : (clearIndex s).pb = s.pb := rfl
@[simp] theorem clearIndex_plen (s : State) : (clearIndex s).plen = s.plen := rfl
@[simp] theorem clearIndex_pi (s : State) : (clearIndex s).pi = 0 := rfl
@[simp] theorem clearIndex_cmd (s : State) : (clearIndex s).cmd = s.cmd := rfl
@[simp] theorem clearIndex_tr (s : State) : (clearIndex s).tr = s.tr := rfl
@[simp] theorem clearIndex_rspValid (s : State) : (clearIndex s).rspValid = s.rspValid := rfl
@[simp] theorem clearIndex_responses (s : State) : (clearIndex s).responses = s.responses := rfl
@[simp] theorem clearIndex_host (s : State) : (clearIndex s).host = s.host := rfl
@[simp] theorem clearIndex_draws (s : State) : (clearIndex s).draws = s.draws := rfl
@[simp] theorem clearIndex_drawn (s : State) : (clearIndex s).drawn = s.drawn := rfl
@[simp] theorem clearIndex_fresh (s : State) : (clearIndex s).fresh = s.fresh := rfl
@[simp] theorem clearIndex_ret (s : State) : (clearIndex s).ret = s.ret := rfl

/-! ### nextIndex -/

@[simp] theorem nextIndex_cfg (s : State) : (nextIndex s).cfg = s.cfg := rfl
@[simp] theorem nextIndex_life (s : State) : (nextIndex s).life = s.life := rfl
@[simp] theorem nextIndex_seq (s : State) : (nextIndex s).seq = s.seq := rfl
@[simp] theorem nextIndex_clk (s : State) : (nextIndex s).clk = s.clk := rfl
@[simp] theorem nextIndex_dio (s : State) : (nextIndex s).dio = s.dio := rfl
@[simp] theorem nextIndex_clkO (s : State) : (nextIndex s).clkO = s.clkO := rfl
@[simp] theorem nextIndex_dioO (s : State) : (nextIndex s).dioO = s.dioO := rfl
@[simp] theorem nextIndex_br (s : State) : (nextIndex s).br = s.br := rfl
@[simp] theorem nextIndex_en (s : State) : (nextIndex s).en = s.en := rfl
@[simp] theorem nextIndex_lf (s : State) : (nextIndex s).lf = s.lf := rfl
@[simp] theorem nextIndex_st (s : State) : (nextIndex s).st = s.st := rfl
@[simp] theorem nextIndex_errv (s : State) : (nextIndex s).errv = s.errv := rfl
@[simp] theorem nextIndex_sr (s : State) : (nextIndex s).sr = s.sr := rfl
@[simp] theorem nextIndex_bc (s : State) : (nextIndex s).bc = s.bc := rfl
@[simp] theorem nextIndex_ac (s : State) : (nextIndex s).ac = s.ac := rfl
@[simp] theorem nextIndex_pb (s : State) : (nextIndex s).pb = s.pb := rfl
@[simp] theorem nextIndex_plen (s : State) : (nextIndex s).plen = s.plen := rfl
@[simp] theorem nextIndex_pi (s : State) : (nextIndex s).pi = s.pi + 1 := rfl
@[simp] theorem nextIndex_cmd (s : State) : (nextIndex s).cmd = s.cmd := rfl
@[simp] theorem nextIndex_tr (s : State) : (nextIndex s).tr = s.tr := rfl
@[simp] theorem nextIndex_rspValid (s : State) : (nextIndex s).rspValid = s.rspValid := rfl
@[simp] theorem nextIndex_responses (s : State) : (nextIndex s).responses = s.responses := rfl
@[simp] theorem nextIndex_host (s : State) : (nextIndex s).host = s.host := rfl
@[simp] theorem nextIndex_draws (s : State) : (nextIndex s).draws = s.draws := rfl
@[simp] theorem nextIndex_drawn (s : State) : (nextIndex s).drawn = s.drawn := rfl
@[simp] theorem nextIndex_fresh (s : State) : (nextIndex s).fresh = s.fresh := rfl
@[simp] theorem nextIndex_ret (s : State) : (nextIndex s).ret = s.ret := rfl

/-! ### State.atStep -/

@[simp] theorem State.atStep_cfg (n : Nat) (s : State) : (State.atStep n s).cfg = s.cfg := rfl
@[simp] theorem State.atStep_life (n : Nat) (s : State) : (State.atStep n s).life = s.life := rfl
@[simp] theorem State.atStep_seq (n : Nat) (s : State) : (State.atStep n s).seq = ⟨s.seq.cmd, s.seq.phase, s.seq.rt, n, s.seq.payload⟩ := rfl
@[simp] theorem State.atStep_clk (n : Nat) (s : State) : (State.atStep n s).clk = s.clk := rfl
@[simp] theorem State.atStep_dio (n : Nat) (s : State) : (State.atStep n s).dio = s.dio := rfl
@[simp] theorem State.atStep_clkO (n : Nat) (s : State) : (State.atStep n s).clkO = s.clkO := rfl
@[simp] theorem State.atStep_dioO (n : Nat) (s : State) : (State.atStep n s).dioO = s.dioO := rfl
@[simp] theorem State.atStep_br (n : Nat) (s : State) : (State.atStep n s).br = s.br := rfl
@[simp] theorem State.atStep_en (n : Nat) (s : State) : (State.atStep n s).en = s.en := rfl
@[simp] theorem State.atStep_lf (n : Nat) (s : State) : (State.atStep n s).lf = s.lf := rfl
@[simp] theorem State.atStep_st (n : Nat) (s : State) : (State.atStep n s).st = s.st := rfl
@[simp] theorem State.atStep_errv (n : Nat) (s : State) : (State.atStep n s).errv = s.errv := rfl
@[simp] theorem State.atStep_sr (n : Nat) (s : State) : (State.atStep n s).sr = s.sr := rfl
@[simp] theorem State.atStep_bc (n : Nat) (s : State) : (State.atStep n s).bc = s.bc := rfl
@[simp] theorem State.atStep_ac (n : Nat) (s : State) : (State.atStep n s).ac = s.ac := rfl
@[simp] theorem State.atStep_pb (n : Nat) (s : State) : (State.atStep n s).pb = s.pb := rfl
@[simp] theorem State.atStep_plen (n : Nat) (s : State) : (State.atStep n s).plen = s.plen := rfl
@[simp] theorem State.atStep_pi (n : Nat) (s : State) : (State.atStep n s).pi = s.pi := rfl
@[simp] theorem State.atStep_cmd (n : Nat) (s : State) : (State.atStep n s).cmd = s.cmd := rfl
@[simp] theorem State.atStep_tr (n : Nat) (s : State) : (State.atStep n s).tr = s.tr := rfl
@[simp] theorem State.atStep_rspValid (n : Nat) (s : State) : (State.atStep n s).rspValid = s.rspValid := rfl
@[simp] theorem State.atStep_responses (n : Nat) (s : State) : (State.atStep n s).responses = s.responses := rfl
@[simp] theorem State.atStep_host (n : Nat) (s : State) : (State.atStep n s).host = s.host := rfl
@[simp] theorem State.atStep_draws (n : Nat) (s : State) : (State.atStep n s).draws = s.draws := rfl
@[simp] theorem State.atStep_drawn (n : Nat) (s : State) : (State.atStep n s).drawn = s.drawn := rfl
@[simp] theorem State.atStep_fresh (n : Nat) (s : State) : (State.atStep n s).fresh = s.fresh := rfl
@[simp] theorem State.atStep_ret (n : Nat) (s : State) : (State.atStep n s).ret = s.ret := rfl

/-! ### State.enter -/

@[simp] theorem State.enter_cfg (r : Routine) (s : State) : (State.enter r s).cfg = s.cfg := rfl
@[simp] theorem State.enter_life (r : Routine) (s : State) : (State.enter r s).life = s.life := rfl
@[simp] theorem State.enter_seq (r : Routine) (s : State) : (State.enter r s).seq = ⟨s.seq.cmd, s.seq.phase, r, 0, s.seq.payload⟩ := rfl
@[simp] theorem State.enter_clk (r : Routine) (s : State) : (State.enter r s).clk = s.clk := rfl
@[simp] theorem State.enter_dio (r : Routine) (s : State) : (State.enter r s).dio = s.dio := rfl
@[simp] theorem State.enter_clkO (r : Routine) (s : State) : (State.enter r s).clkO = s.clkO := rfl
@[simp] theorem State.enter_dioO (r : Routine) (s : State) : (State.enter r s).dioO = s.dioO := rfl
@[simp] theorem State.enter_br (r : Routine) (s : State) : (State.enter r s).br = s.br := rfl
@[simp] theorem State.enter_en (r : Routine) (s : State) : (State.enter r s).en = s.en := rfl
@[simp] theorem State.enter_lf (r : Routine) (s : State) : (State.enter r s).lf = s.lf := rfl
@[simp] theorem State.enter_st (r : Routine) (s : State) : (State.enter r s).st = s.st := rfl
@[simp] theorem State.enter_errv (r : Routine) (s : State) : (State.enter r s).errv = s.errv := rfl
@[simp] theorem State.enter_sr (r : Routine) (s : State) : (State.enter r s).sr = s.sr := rfl
@[simp] theorem State.enter_bc (r : Routine) (s : State) : (State.enter r s).bc = s.bc := rfl
@[simp] theorem State.enter_ac (r : Routine) (s : State) : (State.enter r s).ac = s.ac := rfl
@[simp] theorem State.enter_pb (r : Routine) (s : State) : (State.enter r s).pb = s.pb := rfl
@[simp] theorem State.enter_plen (r : Routine) (s : State) : (State.enter r s).plen = s.plen := rfl
@[simp] theorem State.enter_pi (r : Routine) (s : State) : (State.enter r s).pi = s.pi := rfl
@[simp] theorem State.enter_cmd (r : Routine) (s : State) : (State.enter r s).cmd = s.cmd := rfl
@[simp] theorem State.enter_tr (r : Routine) (s : State) : (State.enter r s).tr = s.tr := rfl
@[simp] theorem State.enter_rspValid (r : Routine) (s : State) : (State.enter r s).rspValid = s.rspValid := rfl
@[simp] theorem State.enter_responses (r : Routine) (s : State) : (State.enter r s).responses = s.responses := rfl
@[simp] theorem State.enter_host (r : Routine) (s : State) : (State.enter r s).host = s.host := rfl
@[simp] theorem State.enter_draws (r : Routine) (s : State) : (State.enter r s).draws = s.draws := rfl
@[simp] theorem State.enter_drawn (r : Routine) (s : State) : (State.enter r s).drawn = s.drawn := rfl
@[simp] theorem State.enter_fresh (r : Routine) (s : State) : (State.enter r s).fresh = s.fresh := rfl
@[simp] theorem State.enter_ret (r : Routine) (s : State) : (State.enter r s).ret = s.ret := rfl

/-! ### State.inPayload -/

@[simp] theorem State.inPayload_cfg (b : Bool) (s : State) : (State.inPayload b s).cfg = s.cfg := rfl
@[simp] theorem State.inPayload_life (b : Bool) (s : State) : (State.inPayload b s).life = s.life := rfl
@[simp] theorem State.inPayload_seq (b : Bool) (s : State) : (State.inPayload b s).seq = ⟨s.seq.cmd, s.seq.phase, s.seq.rt, s.seq.step, b⟩ := rfl
@[simp] theorem State.inPayload_clk (b : Bool) (s : State) : (State.inPayload b s).clk = s.clk := rfl
@[simp] theorem State.inPayload_dio (b : Bool) (s : State) : (State.inPayload b s).dio = s.dio := rfl
@[simp] theorem State.inPayload_clkO (b : Bool) (s : State) : (State.inPayload b s).clkO = s.clkO := rfl
@[simp] theorem State.inPayload_dioO (b : Bool) (s : State) : (State.inPayload b s).dioO = s.dioO := rfl
@[simp] theorem State.inPayload_br (b : Bool) (s : State) : (State.inPayload b s).br = s.br := rfl
@[simp] theorem State.inPayload_en (b : Bool) (s : State) : (State.inPayload b s).en = s.en := rfl
@[simp] theorem State.inPayload_lf (b : Bool) (s : State) : (State.inPayload b s).lf = s.lf := rfl
@[simp] theorem State.inPayload_st (b : Bool) (s : State) : (State.inPayload b s).st = s.st := rfl
@[simp] theorem State.inPayload_errv (b : Bool) (s : State) : (State.inPayload b s).errv = s.errv := rfl
@[simp] theorem State.inPayload_sr (b : Bool) (s : State) : (State.inPayload b s).sr = s.sr := rfl
@[simp] theorem State.inPayload_bc (b : Bool) (s : State) : (State.inPayload b s).bc = s.bc := rfl
@[simp] theorem State.inPayload_ac (b : Bool) (s : State) : (State.inPayload b s).ac = s.ac := rfl
@[simp] theorem State.inPayload_pb (b : Bool) (s : State) : (State.inPayload b s).pb = s.pb := rfl
@[simp] theorem State.inPayload_plen (b : Bool) (s : State) : (State.inPayload b s).plen = s.plen := rfl
@[simp] theorem State.inPayload_pi (b : Bool) (s : State) : (State.inPayload b s).pi = s.pi := rfl
@[simp] theorem State.inPayload_cmd (b : Bool) (s : State) : (State.inPayload b s).cmd = s.cmd := rfl
@[simp] theorem State.inPayload_tr (b : Bool) (s : State) : (State.inPayload b s).tr = s.tr := rfl
@[simp] theorem State.inPayload_rspValid (b : Bool) (s : State) : (State.inPayload b s).rspValid = s.rspValid := rfl
@[simp] theorem State.inPayload_responses (b : Bool) (s : State) : (State.inPayload b s).responses = s.responses := rfl
@[simp] theorem State.inPayload_host (b : Bool) (s : State) : (State.inPayload b s).host = s.host := rfl
@[simp] theorem State.inPayload_draws (b : Bool) (s : State) : (State.inPayload b s).draws = s.draws := rfl
@[simp] theorem State.inPayload_drawn (b : Bool) (s : State) : (State.inPayload b s).drawn = s.drawn := rfl
@[simp] theorem State.inPayload_fresh (b : Bool) (s : State) : (State.inPayload b s).fresh = s.fresh := rfl
@[simp] theorem State.inPayload_ret (b : Bool) (s : State) : (State.inPayload b s).ret = s.ret := rfl

/-! ### State.capture -/

@[simp] theorem State.capture_cfg (w : HostWord) (rest : List HostWord) (s : State) : (State.capture w rest s).cfg = s.cfg := rfl
@[simp] theorem State.capture_life (w : HostWord) (rest : List HostWord) (s : State) : (State.capture w rest s).life = s.life := rfl
@[simp] theorem State.capture_seq (w : HostWord) (rest : List HostWord) (s : State) : (State.capture w rest s).seq = s.seq := rfl
@[simp] theorem State.capture_clk (w : HostWord) (rest : List HostWord) (s : State) : (State.capture w rest s).clk = s.clk := rfl
@[simp] theorem State.capture_dio (w : HostWord) (rest : List HostWord) (s : State) : (State.capture w rest s).dio = s.dio := rfl
@[simp] theorem State.capture_clkO (w : HostWord) (rest : List HostWord) (s : State) : (State.capture w rest s).clkO = s.clkO := rfl
@[simp] theorem State.capture_dioO (w : HostWord) (rest : List HostWord) (s : State) : (State.capture w rest s).dioO = s.dioO := rfl
@[simp] theorem State.capture_br (w : HostWord) (rest : List HostWord) (s : State) : (State.capture w rest s).br = s.br := rfl
@[simp] theorem State.capture_en (w : HostWord) (rest : List HostWord) (s : State) : (State.capture w rest s).en = s.en := rfl
@[simp] theorem State.capture_lf (w : HostWord) (rest : List HostWord) (s : State) : (State.capture w rest s).lf = s.lf := rfl
@[simp] theorem State.capture_st (w : HostWord) (rest : List HostWord) (s : State) : (State.capture w rest s).st = s.st := rfl
@[simp] theorem State.capture_errv (w : HostWord) (rest : List HostWord) (s : State) : (State.capture w rest s).errv = s.errv := rfl
@[simp] theorem State.capture_sr (w : HostWord) (rest : List HostWord) (s : State) : (State.capture w rest s).sr = s.sr := rfl
@[simp] theorem State.capture_bc (w : HostWord) (rest : List HostWord) (s : State) : (State.capture w rest s).bc = s.bc := rfl
@[simp] theorem State.capture_ac (w : HostWord) (rest : List HostWord) (s : State) : (State.capture w rest s).ac = s.ac := rfl
@[simp] theorem State.capture_pb (w : HostWord) (rest : List HostWord) (s : State) : (State.capture w rest s).pb = s.pb := rfl
@[simp] theorem State.capture_plen (w : HostWord) (rest : List HostWord) (s : State) : (State.capture w rest s).plen = s.plen := rfl
@[simp] theorem State.capture_pi (w : HostWord) (rest : List HostWord) (s : State) : (State.capture w rest s).pi = s.pi := rfl
@[simp] theorem State.capture_cmd (w : HostWord) (rest : List HostWord) (s : State) : (State.capture w rest s).cmd = w := rfl
@[simp] theorem State.capture_tr (w : HostWord) (rest : List HostWord) (s : State) : (State.capture w rest s).tr = s.tr := rfl
@[simp] theorem State.capture_rspValid (w : HostWord) (rest : List HostWord) (s : State) : (State.capture w rest s).rspValid = false := rfl
@[simp] theorem State.capture_responses (w : HostWord) (rest : List HostWord) (s : State) : (State.capture w rest s).responses = s.responses := rfl
@[simp] theorem State.capture_host (w : HostWord) (rest : List HostWord) (s : State) : (State.capture w rest s).host = rest := rfl
@[simp] theorem State.capture_draws (w : HostWord) (rest : List HostWord) (s : State) : (State.capture w rest s).draws = s.draws := rfl
@[simp] theorem State.capture_drawn (w : HostWord) (rest : List HostWord) (s : State) : (State.capture w rest s).drawn = s.drawn := rfl
@[simp] theorem State.capture_fresh (w : HostWord) (rest : List HostWord) (s : State) : (State.capture w rest s).fresh = s.fresh := rfl
@[simp] theorem State.capture_ret (w : HostWord) (rest : List HostWord) (s : State) : (State.capture w rest s).ret = s.ret := rfl

/-! ### State.dropResponse -/

@[simp] theorem State.dropResponse_cfg (s : State) : (State.dropResponse s).cfg = s.cfg := rfl
@[simp] theorem State.dropResponse_life (s : State) : (State.dropResponse s).life = s.life := rfl
@[simp] theorem State.dropResponse_seq (s : State) : (State.dropResponse s).seq = s.seq := rfl
@[simp] theorem State.dropResponse_clk (s : State) : (State.dropResponse s).clk = s.clk := rfl
@[simp] theorem State.dropResponse_dio (s : State) : (State.dropResponse s).dio = s.dio := rfl
@[simp] theorem State.dropResponse_clkO (s : State) : (State.dropResponse s).clkO = s.clkO := rfl
@[simp] theorem State.dropResponse_dioO (s : State) : (State.dropResponse s).dioO = s.dioO := rfl
@[simp] theorem State.dropResponse_br (s : State) : (State.dropResponse s).br = s.br := rfl
@[simp] theorem State.dropResponse_en (s : State) : (State.dropResponse s).en = s.en := rfl
@[simp] theorem State.dropResponse_lf (s : State) : (State.dropResponse s).lf = s.lf := rfl
@[simp] theorem State.dropResponse_st (s : State) : (State.dropResponse s).st = s.st := rfl
@[simp] theorem State.dropResponse_errv (s : State) : (State.dropResponse s).errv = s.errv := rfl
@[simp] theorem State.dropResponse_sr (s : State) : (State.dropResponse s).sr = s.sr := rfl
@[simp] theorem State.dropResponse_bc (s : State) : (State.dropResponse s).bc = s.bc := rfl
@[simp] theorem State.dropResponse_ac (s : State) : (State.dropResponse s).ac = s.ac := rfl
@[simp] theorem State.dropResponse_pb (s : State) : (State.dropResponse s).pb = s.pb := rfl
@[simp] theorem State.dropResponse_plen (s : State) : (State.dropResponse s).plen = s.plen := rfl
@[simp] theorem State.dropResponse_pi (s : State) : (State.dropResponse s).pi = s.pi := rfl
@[simp] theorem State.dropResponse_cmd (s : State) : (State.dropResponse s).cmd = s.cmd := rfl
@[simp] theorem State.dropResponse_tr (s : State) : (State.dropResponse s).tr = s.tr := rfl
@[simp] theorem State.dropResponse_rspValid (s : State) : (State.dropResponse s).rspValid = false := rfl
@[simp] theorem State.dropResponse_responses (s : State) : (State.dropResponse s).responses = s.responses := rfl
@[simp] theorem State.dropResponse_host (s : State) : (State.dropResponse s).host = s.host := rfl
@[simp] theorem State.dropResponse_draws (s : State) : (State.dropResponse s).draws = s.draws := rfl
@[simp] theorem State.dropResponse_drawn (s : State) : (State.dropResponse s).drawn = s.drawn := rfl
@[simp] theorem State.dropResponse_fresh (s : State) : (State.dropResponse s).fresh = s.fresh := rfl
@[simp] theorem State.dropResponse_ret (s : State) : (State.dropResponse s).ret = s.ret := rfl

/-! ### Parameters -/

/-- What an instantiation's constraints say (00_scope.md R11). -/
theorem params_ok_iff {p : Params} : p.ok = true ↔
    1 ≤ p.tHalfUs.toNat ∧ p.tHalfUs.toNat ≤ p.tFullUs.toNat ∧ (∀ d : Digit, (p.segTable[d]).getLsbD 7 = false) ∧
      p.ctrlOnMask &&& 0x07 = 0 ∧ 1 ≤ p.payloadMax ∧ p.payloadMax ≤ 15 := by
  simp [Params.ok, and_assoc]

/-! ### Draws -/

theorem State.drawAt_congr {s t : State} (h : s.draws = t.draws) (h' : s.drawn = t.drawn) (hc : s.cfg = t.cfg) (i : Nat) :
    s.drawAt i = t.drawAt i := by
  simp only [State.drawAt, h, h', hc]

/-- A number read as a value of `E` is one, unless `E` is empty (00_scope.md R12). -/
theorem anyErr_isErr {p : Params} (h : p.errors ≠ some 0) (n : Nat) : p.isErr (anyErr p n) = true := by
  unfold anyErr Params.isErr
  cases hk : p.errors with
  | none => rfl
  | some k =>
    have : k ≠ 0 := fun h0 => h (by rw [hk, h0])
    exact decide_eq_true (Nat.mod_lt n (Nat.pos_of_ne_zero this))

/-- A value of `E` is its own number. -/
theorem anyErr_of_isErr {p : Params} {e : ErrVal} (h : p.isErr e = true) : anyErr p e.token = e := by
  unfold Params.isErr at h
  unfold anyErr
  cases hk : p.errors with
  | none => rfl
  | some k =>
    simp only [hk] at h
    exact congrArg ErrVal.mk (Nat.mod_eq_of_lt (of_decide_eq_true h))

/-- An outcome of the instantiation is itself. -/
theorem outcome_of_isErr {p : Params} {e : ErrVal} (h : p.isErr e = true) : outcome p (.err e) = .err e := by
  have hne : p.errors ≠ some 0 := fun h0 => by simp [Params.isErr, h0] at h
  simp only [outcome, if_neg hne, anyErr_of_isErr h]

/-- An outcome fails with a value of `E` only, so never where `E` is empty (00_scope.md R12). -/
theorem outcome_err {p : Params} {d : Draw} {e : ErrVal} (h : outcome p d = .err e) :
    p.isErr e = true ∧ p.errors ≠ some 0 := by
  cases d with
  | ok b => cases h
  | err e' =>
    simp only [outcome] at h
    split at h
    · cases h
    · rename_i h0
      cases h
      exact ⟨anyErr_isErr h0 _, h0⟩

/-- So does a draw (40_line_actions.md R137). -/
theorem State.drawAt_err {s : State} {i : Nat} {e : ErrVal} (h : s.drawAt i = .err e) :
    s.cfg.isErr e = true ∧ s.cfg.errors ≠ some 0 := outcome_err h

@[simp] theorem State.drawAt_skipDraws (n : Nat) (s : State) (i : Nat) : (s.skipDraws n).drawAt i = s.drawAt (n + i) := by
  simp only [State.drawAt, State.skipDraws, List.getElem?_drop, Nat.add_assoc]

@[simp] theorem State.setClk_drawAt (o : Bool) (l : Level) (s : State) (i : Nat) : (State.setClk o l s).drawAt i = s.drawAt i := rfl
@[simp] theorem State.setDio_drawAt (o : Bool) (l : Level) (s : State) (i : Nat) : (State.setDio o l s).drawAt i = s.drawAt i := rfl
@[simp] theorem State.markFault_drawAt (s : State) (i : Nat) : (State.markFault s).drawAt i = s.drawAt i := rfl
@[simp] theorem State.returning_drawAt (r : Ret) (s : State) (i : Nat) : (State.returning r s).drawAt i = s.drawAt i := rfl
@[simp] theorem State.logTok_drawAt (t : Tok) (s : State) (i : Nat) : (State.logTok t s).drawAt i = s.drawAt i := rfl
@[simp] theorem State.setEn_drawAt (b : Bool) (s : State) (i : Nat) : (State.setEn b s).drawAt i = s.drawAt i := rfl
@[simp] theorem State.setBr_drawAt (b : BitVec 3) (s : State) (i : Nat) : (State.setBr b s).drawAt i = s.drawAt i := rfl
@[simp] theorem State.build_drawAt (s : State) (i : Nat) : (State.build s).drawAt i = s.drawAt i := rfl
@[simp] theorem State.clearFault_drawAt (s : State) (i : Nat) : (State.clearFault s).drawAt i = s.drawAt i := rfl
@[simp] theorem State.recordErr_drawAt (e : ErrVal) (s : State) (i : Nat) : (State.recordErr e s).drawAt i = s.drawAt i := rfl
@[simp] theorem freeErrv_drawAt (s : State) (i : Nat) : (freeErrv s).drawAt i = s.drawAt i := rfl
@[simp] theorem respond_drawAt (st : Status) (c : Option ErrVal) (s : State) (i : Nat) : (respond st c s).drawAt i = s.drawAt i := rfl
@[simp] theorem loadPayload_drawAt (bs : List Byte) (s : State) (i : Nat) : (loadPayload bs s).drawAt i = s.drawAt i := rfl
@[simp] theorem loadByte_drawAt (v : Byte) (s : State) (i : Nat) : (loadByte v s).drawAt i = s.drawAt i := rfl
@[simp] theorem shiftOut_drawAt (s : State) (i : Nat) : (shiftOut s).drawAt i = s.drawAt i := rfl
@[simp] theorem clearPoll_drawAt (s : State) (i : Nat) : (clearPoll s).drawAt i = s.drawAt i := rfl
@[simp] theorem countSample_drawAt (s : State) (i : Nat) : (countSample s).drawAt i = s.drawAt i := rfl
@[simp] theorem State.inPhase_drawAt (p : Phase) (s : State) (i : Nat) : (State.inPhase p s).drawAt i = s.drawAt i := rfl
@[simp] theorem State.position_drawAt (c : CmdName) (p : Phase) (r : Routine) (s : State) (i : Nat) : (State.position c p r s).drawAt i = s.drawAt i := rfl
@[simp] theorem clearIndex_drawAt (s : State) (i : Nat) : (clearIndex s).drawAt i = s.drawAt i := rfl
@[simp] theorem nextIndex_drawAt (s : State) (i : Nat) : (nextIndex s).drawAt i = s.drawAt i := rfl
@[simp] theorem State.atStep_drawAt (n : Nat) (s : State) (i : Nat) : (State.atStep n s).drawAt i = s.drawAt i := rfl
@[simp] theorem State.enter_drawAt (r : Routine) (s : State) (i : Nat) : (State.enter r s).drawAt i = s.drawAt i := rfl
@[simp] theorem State.inPayload_drawAt (b : Bool) (s : State) (i : Nat) : (State.inPayload b s).drawAt i = s.drawAt i := rfl
@[simp] theorem State.capture_drawAt (w : HostWord) (rest : List HostWord) (s : State) (i : Nat) : (State.capture w rest s).drawAt i = s.drawAt i := rfl
@[simp] theorem State.dropResponse_drawAt (s : State) (i : Nat) : (State.dropResponse s).drawAt i = s.drawAt i := rfl

end Sys2Proof.Machine
end

