-- ==== Sys2Proof/Laws/Encoders.lean ====
section
/-!
SUPPORT. The decimal decomposition and the digit items: what DEC's loop builds, and when a list of items is a list of digits.
-/
namespace Sys2Proof.Machine

/-- The loop of DEC puts the digits of `v` in front, most significant first (42_encoders.md R174). -/
theorem decLoop_fold (fuel v : Nat) (acc : List Digit) (h : v < 10 ^ fuel) :
    ∃ ds : List Digit, decLoop fuel v acc = ds ++ acc ∧ ds.foldl (fun n d => 10 * n + d.val) 0 = v ∧
      (v ≠ 0 → ds.head? ≠ some 0 ∧ ds ≠ []) ∧ (v = 0 → ds = []) ∧ (∀ n, ds.length ≤ n ↔ v < 10 ^ n) := by
  induction fuel generalizing v acc with
  | zero =>
    have : v = 0 := by simpa using h
    subst this
    exact ⟨[], rfl, rfl, by simp, by simp, by intro n; simp⟩
  | succ fuel ih =>
    by_cases hv : v = 0
    · subst hv
      exact ⟨[], by simp [decLoop], rfl, by simp, by simp, by intro n; simp⟩
    · obtain ⟨ds, h1, h2, h3, h4, h5⟩ := ih (v / 10) (⟨v % 10, Nat.mod_lt v (by decide)⟩ :: acc) (by rw [pow_succ] at h; omega)
      refine ⟨ds ++ [⟨v % 10, Nat.mod_lt v (by decide)⟩], ?_, ?_, fun _ => ⟨?_, by simp⟩, fun h => absurd h hv, ?_⟩
      · rw [decLoop, if_neg hv, h1]; simp
      · rw [List.foldl_append, h2]; simp; omega
      · by_cases h0 : v / 10 = 0
        · rw [h4 h0]
          simp
          intro hh
          omega
        · have := (h3 h0).1
          have hne := (h3 h0).2
          cases ds with
          | nil => exact absurd rfl hne
          | cons d ds => simpa using this
      · intro n
        cases n with
        | zero => simp; omega
        | succ n =>
          rw [List.length_append, List.length_singleton, Nat.add_le_add_iff_right, h5 n, pow_succ]
          omega

/-- DEC: the decimal digits in the minimal count (42_encoders.md R174). -/
theorem dec_spec (v : Word32) :
    (dec v).foldl (fun n d => 10 * n + d.val) 0 = v.toNat ∧ 1 ≤ (dec v).length ∧ (dec v).length ≤ 10 ∧
      (v = 0 → dec v = [0]) ∧ (v ≠ 0 → (dec v).head? ≠ some 0) ∧
      ∀ n, 1 ≤ n → ((dec v).length ≤ n ↔ v.toNat < 10 ^ n) := by
  by_cases hv : v.toNat = 0
  · have : v = 0 := BitVec.eq_of_toNat_eq hv
    subst this
    refine ⟨rfl, by decide, by decide, fun _ => rfl, fun h => absurd rfl h, fun n hn => ?_⟩
    simp [dec]; omega
  · have hne : v ≠ 0 := fun h => hv (by rw [h]; rfl)
    obtain ⟨ds, h1, h2, h3, h4, h5⟩ := decLoop_fold 10 v.toNat [] (by have := v.isLt; omega)
    have : dec v = ds := by rw [dec, if_neg hv, h1, List.append_nil]
    rw [this]
    refine ⟨h2, ?_, ?_, fun h => absurd h hne, fun _ => (h3 hv).1, fun n _ => h5 n⟩
    · exact List.length_pos_iff.mpr (h3 hv).2
    · rw [h5 10]; have := v.isLt; omega

/-- Items that hold digit values are read as those digits (43_framing.md R194). -/
theorem digits_items (ds : List Digit) (arg : HostArg) (hl : ds.length ≤ 15) (h : ∀ i d, ds[i]? = some d → (arg.extractLsb' (8 * i) 8).toNat = d.val) :
    digitsOf (items (BitVec.ofNat 4 ds.length) arg) = some ds := by
  have gen : ∀ (ds : List Digit) (bs : List Byte), bs.length = ds.length → (∀ (i : Nat) d b, ds[i]? = some d → bs[i]? = some b → b.toNat = d.val) → digitsOf bs = some ds := by
    intro ds
    induction ds with
    | nil => intro bs hb _; rw [List.eq_nil_of_length_eq_zero hb]; rfl
    | cons d ds ih =>
      intro bs hb hh
      cases bs with
      | nil => simp at hb
      | cons b bs =>
        have h0 := hh 0 d b rfl rfl
        have : digitOf b = some d := by
          rw [digitOf, dif_pos (by have := d.isLt; omega)]
          simp [h0]
        rw [digitsOf, this, ih bs (by simpa using hb) (fun i d b h1 h2 => hh (i+1) d b (by simpa using h1) (by simpa using h2))]
  apply gen
  · simp [items]; omega
  · intro i d b h1 h2
    have hi : i < ds.length := by by_contra hn; rw [List.getElem?_eq_none (by omega)] at h1; cases h1
    have hib : b = itemAt arg i := by
      have hlt : i < (BitVec.ofNat 4 ds.length).toNat := by simp; omega
      rw [items, List.getElem?_map, List.getElem?_range hlt] at h2
      exact (Option.some.inj h2).symm
    rw [hib]; exact h i d h1

/-- An item above 9 rejects the whole operand (43_framing.md R192). -/
theorem digitsOf_bad {bs : List Byte} (h : ∃ b ∈ bs, 9 < b.toNat) : digitsOf bs = none := by
  induction bs with
  | nil => simp at h
  | cons b bs ih =>
    obtain ⟨c, hc, h9⟩ := h
    rw [digitsOf]
    rcases List.mem_cons.mp hc with rfl | hc
    · have : digitOf c = none := by rw [digitOf, dif_neg (by omega)]
      rw [this]
    · rw [ih ⟨c, hc, h9⟩]; cases digitOf b <;> rfl

end Sys2Proof.Machine
end

