-- ==== Sys2Proof/Laws/Transport.lean ====
section
/-!
SUPPORT. What each operation of the transport does: the line actions, START, STOP, the bit loop, the poll and a byte slot,
when no line action fails, as one equation each.
-/
namespace Sys2Proof.Machine

theorem State.okAt.get {s : State} {off n : Nat} (h : s.okAt off n) {i : Nat} (hi : i < n) :
    (s.drawAt (off + i)).isOk = true := h i hi

theorem driveClk_ok {hi : Bool} {s : State} (h : (s.drawAt 0).isOk = true) :
    driveClk hi s = .go (((s.skipDraws 1).setClk hi (levelOf hi)).logTok (clkTok hi)) := by
  cases hd : s.drawAt 0 with
  | ok b => simp [driveClk, hd]
  | err e => simp [hd, Draw.isOk] at h

theorem driveDio_ok {hi : Bool} {s : State} (h : (s.drawAt 0).isOk = true) :
    driveDio hi s = .go (((s.skipDraws 1).setDio hi (levelOf hi)).logTok (dioTok hi)) := by
  cases hd : s.drawAt 0 with
  | ok b => simp [driveDio, hd]
  | err e => simp [hd, Draw.isOk] at h

theorem sampleDio_ok {b : Bool} {s : State} (h : s.drawAt 0 = .ok b) :
    sampleDio s = .go (((s.skipDraws 1).returning (.bit b)).logTok (sampleTok b)) := by
  simp [sampleDio, h]

@[simp] theorem Flow.go_bind (s : State) (k : State → Flow) : (Flow.go s).bind k = k s := rfl

@[simp] theorem Flow.ended_bind (s : State) (k : State → Flow) : (Flow.ended s).bind k = .ended s := rfl

@[simp] theorem Flow.go_state (s : State) : (Flow.go s).state = s := rfl

@[simp] theorem Flow.ended_state (s : State) : (Flow.ended s).state = s := rfl

theorem Flow.bind_assoc (f : Flow) (g h : State → Flow) : (f.bind g).bind h = f.bind fun s => (g s).bind h := by
  cases f <;> rfl

theorem Flow.bind_congr {f : Flow} {g h : State → Flow} (hk : ∀ t, f = .go t → g t = h t) : f.bind g = f.bind h := by
  cases f with
  | go t => exact hk t rfl
  | ended t => rfl

/-- A line action leaves the parameters. -/
theorem perform_cfg {a : Act} {s t : State} (h : a.perform s = .go t) : t.cfg = s.cfg := by
  cases a <;> simp only [Act.perform, driveClk, driveDio, sampleDio, pauseHalf, pauseFull] at h
  case waitHalf => cases h; rfl
  case waitFull => cases h; rfl
  all_goals
    cases hd : s.drawAt 0 with
    | ok b => simp only [hd] at h; cases h; rfl
    | err e => simp [hd, Flow.raise] at h

theorem performAll_cfg {as : List Act} {s t : State} (h : performAll as s = .go t) : t.cfg = s.cfg := by
  induction as generalizing s with
  | nil => cases h; rfl
  | cons a as ih =>
    rw [performAll] at h
    cases hp : a.perform s with
    | ended u => rw [hp] at h; cases h
    | go u => rw [hp] at h; exact (ih h).trans (perform_cfg hp)

@[simp] theorem State.started_drawAt (s : State) (i : Nat) : s.started.drawAt i = s.drawAt (4 + i) :=
  State.drawAt_skipDraws 4 s i

@[simp] theorem State.stopped_drawAt (s : State) (i : Nat) : s.stopped.drawAt i = s.drawAt (4 + i) :=
  State.drawAt_skipDraws 4 s i

@[simp] theorem State.slotSent_drawAt (v : Byte) (k : Nat) (s : State) (i : Nat) :
    (s.slotSent v k).drawAt i = s.drawAt (slotDraws k + i) :=
  State.drawAt_skipDraws (slotDraws k) s i

/-- START when its four drives succeed (41_transport.md R150). -/
theorem startCondition_ok {s : State} (h : s.okAt 0 4) : startCondition s = .go s.started := by
  have h0 := h 0 (by decide)
  have h1 := h 1 (by decide)
  have h2 := h 2 (by decide)
  have h3 := h 3 (by decide)
  simp only [Nat.zero_add] at h0 h1 h2 h3
  simp only [startCondition, startActs, performAll, Act.perform, Flow.go_bind, pauseHalf, pauseFull]
  simp [driveClk_ok, driveDio_ok, h0, h1, h2, h3]
  apply State.ext <;> simp [levelOf, clkTok, dioTok, Wire.start, State.started]

/-- STOP when its four drives succeed (41_transport.md R151). -/
theorem stopCondition_ok {s : State} (h : s.okAt 0 4) : stopCondition s = .go s.stopped := by
  have h0 := h 0 (by decide)
  have h1 := h 1 (by decide)
  have h2 := h 2 (by decide)
  have h3 := h 3 (by decide)
  simp only [Nat.zero_add] at h0 h1 h2 h3
  simp only [stopCondition, stopActs, performAll, Act.perform, Flow.go_bind, pauseFull]
  simp [driveClk_ok, driveDio_ok, h0, h1, h2, h3]
  apply State.ext <;> simp [levelOf, clkTok, dioTok, Wire.stop, State.stopped]

/-- The state after `n` bit cells (41_transport.md R152). -/
def State.cellsSent (n : Nat) (s : State) : State :=
  { s.skipDraws (3 * n) with
    sr := s.sr >>> n
    bc := s.bc + BitVec.ofNat 4 n
    clk := if n = 0 then s.clk else .lo
    clkO := if n = 0 then s.clkO else false
    dio := if n = 0 then s.dio else levelOf (s.sr.getLsbD (n - 1))
    dioO := if n = 0 then s.dioO else s.sr.getLsbD (n - 1)
    tr := s.tr ++ Wire.cells s.sr n }

@[simp] theorem State.cellsSent_drawAt (n : Nat) (s : State) (i : Nat) :
    (s.cellsSent n).drawAt i = s.drawAt (3 * n + i) :=
  State.drawAt_skipDraws (3 * n) s i

theorem cell_ok {s : State} (h : s.okAt 0 3) :
    (performAll (cellActs (s.sr.getLsbD 0)) s).bind (fun s => .go (shiftOut s)) = .go (s.cellsSent 1) := by
  have h0 := h 0 (by decide)
  have h1 := h 1 (by decide)
  have h2 := h 2 (by decide)
  simp only [Nat.zero_add] at h0 h1 h2
  obtain ⟨b, hb⟩ : ∃ b, s.sr.getLsbD 0 = b := ⟨_, rfl⟩
  have hb' : s.sr[0] = b := hb
  rw [hb]
  cases b
  all_goals
    simp only [cellActs, performAll, Act.ofBit, Act.perform, Flow.go_bind, pauseHalf, pauseFull, if_true,
      Bool.false_eq_true, if_false]
    simp [driveClk_ok, driveDio_ok, h0, h1, h2]
    apply State.ext <;> simp [levelOf, clkTok, dioTok, State.cellsSent, Wire.cells, Wire.cell, hb']

theorem Wire.cells_succ (v : Byte) (n : Nat) :
    Wire.cells v (n + 1) = Wire.cells v 1 ++ Wire.cells (v >>> 1) n := by
  simp [Wire.cells, List.range_succ_eq_map, Function.comp_def, Nat.add_comm]

theorem State.cellsSent_cellsSent (n : Nat) (s : State) :
    (s.cellsSent 1).cellsSent n = s.cellsSent (n + 1) := by
  apply State.ext <;> simp [State.cellsSent]
  case dio => cases n <;> simp [Nat.add_comm]
  case dioO => cases n <;> simp [Nat.add_comm]
  case sr => rw [← BitVec.shiftRight_add, Nat.add_comm]
  case bc => rw [BitVec.add_assoc, Nat.add_comm n 1, BitVec.ofNat_add]
  case tr => exact (Wire.cells_succ _ _).symm
  case draws => congr 1; omega
  case drawn => omega

/-- The bit loop when no drive fails (41_transport.md R152). -/
theorem sendBits_ok {n : Nat} {s : State} (h : s.okAt 0 (3 * n)) : sendBits n s = .go (s.cellsSent n) := by
  induction n generalizing s with
  | zero => simp [sendBits]; apply State.ext <;> simp [State.cellsSent, Wire.cells]
  | succ n ih =>
    have hc := cell_ok (s := s) (fun i hi => h i (by omega))
    have hr : (s.cellsSent 1).okAt 0 (3 * n) := by
      intro i hi
      have := h (3 + i) (by omega)
      simpa using this
    have : sendBits (n + 1) s =
        ((performAll (cellActs (s.sr.getLsbD 0)) s).bind fun s => .go (shiftOut s)).bind (sendBits n) := by
      rw [Flow.bind_assoc]; rfl
    rw [this, hc, Flow.go_bind, ih hr, State.cellsSent_cellsSent]

/-- What follows a low sample: the window is closed with a clock pulse (41_transport.md R153). -/
theorem ackActs_ok {s : State} (h : s.okAt 0 2) :
    performAll ackActs s = .go { s.skipDraws 2 with
      clk := .lo, clkO := false, tr := s.tr ++ [.wf, .c1, .wf, .c0] } := by
  have h0 := h 0 (by decide)
  have h1 := h 1 (by decide)
  simp only [Nat.zero_add] at h0 h1
  simp only [ackActs, performAll, Act.perform, Flow.go_bind, pauseFull]
  simp [driveClk_ok, h0, h1]
  apply State.ext <;> simp [levelOf, clkTok]

/-- The state after `k` high samples of the poll (41_transport.md R153). -/
def State.highsSeen (k : Nat) (s : State) : State :=
  { s.skipDraws k with
    ac := s.ac + BitVec.ofNat 8 k
    ret := if k = 0 then s.ret else .bit true
    tr := s.tr ++ Wire.highs k }

@[simp] theorem State.highsSeen_drawAt (k : Nat) (s : State) (i : Nat) :
    (s.highsSeen k).drawAt i = s.drawAt (k + i) :=
  State.drawAt_skipDraws k s i

theorem Wire.highs_succ (k : Nat) : Wire.highs (k + 1) = [.s1, .wf] ++ Wire.highs k := by
  simp [Wire.highs, List.replicate_succ]

theorem State.highsSeen_highsSeen (k : Nat) (s : State) : (s.highsSeen 1).highsSeen k = s.highsSeen (k + 1) := by
  apply State.ext <;> simp [State.highsSeen]
  case ac => rw [BitVec.add_assoc, Nat.add_comm k 1, BitVec.ofNat_add]
  case tr => simp [Wire.highs, List.replicate_succ]
  case drawn => omega

theorem poll_high {left : Nat} {s : State} (h : s.drawAt 0 = .ok true) :
    poll (left + 1) s = poll left (s.highsSeen 1) := by
  simp only [poll, sampleDio_ok h, Flow.go_bind, countSample_ret, State.logTok_ret, State.returning_ret, if_true,
    pauseFull]
  refine congrArg (poll left) ?_
  apply State.ext <;> simp [State.highsSeen, sampleTok, Wire.highs]

/-- High samples of the poll, one by one (41_transport.md R153). -/
theorem poll_highs {k left : Nat} {s : State} (h : ∀ i, i < k → s.drawAt i = .ok true) :
    poll (k + left) s = poll left (s.highsSeen k) := by
  induction k generalizing s with
  | zero =>
    rw [Nat.zero_add]
    refine congrArg (poll left) ?_
    apply State.ext <;> simp [State.highsSeen, Wire.highs]
  | succ k ih =>
    have h0 := h 0 (by omega)
    rw [Nat.add_right_comm, poll_high h0, ih, State.highsSeen_highsSeen]
    intro i hi
    simpa [Nat.add_comm] using h (i + 1) (by omega)

/-- The poll ends at the first low sample (41_transport.md R153). -/
theorem poll_acked {k left : Nat} {s : State} (h : ∀ i, i < k → s.drawAt i = .ok true)
    (h0 : s.drawAt k = .ok false) (h2 : s.okAt (k + 1) 2) :
    poll (k + (left + 1)) s = .go { s.skipDraws (k + 3) with
      ac := s.ac + BitVec.ofNat 8 (k + 1), ret := .bit false, clk := .lo, clkO := false,
      tr := s.tr ++ (Wire.highs k ++ [.s0, .wf, .c1, .wf, .c0]) } := by
  rw [poll_highs h]
  have hd : (s.highsSeen k).drawAt 0 = .ok false := by simpa using h0
  simp only [poll, sampleDio_ok hd, Flow.go_bind, countSample_ret, State.logTok_ret, State.returning_ret, Ret.bit.injEq,
    Bool.false_eq_true, if_false]
  rw [ackActs_ok]
  · refine congrArg Flow.go ?_
    apply State.ext <;> simp [State.highsSeen, sampleTok]
    case ac => rw [BitVec.add_assoc, BitVec.ofNat_add]
    case drawn => omega
  · intro i hi
    simpa [Nat.add_assoc] using h2 i hi

/-- The poll gives up when no sample is left (41_transport.md R153). -/
theorem poll_timeout {k : Nat} {s : State} (h : ∀ i, i < k → s.drawAt i = .ok true) :
    poll k s = .raise .ackTimeout (s.highsSeen k) := by
  have := poll_highs (left := 0) h
  simpa [poll] using this

/-- The state when a byte has been clocked out and the data line released (41_transport.md R152). -/
def State.released (v : Byte) (s : State) : State :=
  { s.skipDraws 25 with
    sr := 0, bc := 8, clk := .lo, clkO := false, dio := .hi, dioO := true,
    tr := s.tr ++ (Wire.cells v 8 ++ [.d1]) }

@[simp] theorem State.released_drawAt (v : Byte) (s : State) (i : Nat) :
    (s.released v).drawAt i = s.drawAt (25 + i) :=
  State.drawAt_skipDraws 25 s i

/-- The eight bit cells and the release of the data line (41_transport.md R152). -/
theorem bits_released {v : Byte} {s : State} (h : s.okAt 0 25) :
    (sendBits 8 (loadByte v s)).bind (driveDio true) = .go (s.released v) := by
  rw [sendBits_ok (n := 8) (fun i hi => by simpa using h i (by omega)), Flow.go_bind,
    driveDio_ok (by simpa using h 24 (by omega))]
  refine congrArg Flow.go ?_
  apply State.ext <;> simp [State.cellsSent, State.released, levelOf, dioTok]
  exact BitVec.ushiftRight_eq_zero (by omega)

/-- A byte slot that is acknowledged (41_transport.md R152). -/
theorem sendByte_acked {v : Byte} {k : Nat} {s : State} (h : s.ackedSlot 0 k) :
    sendByte v s = .go (s.slotSent v k) := by
  obtain ⟨hk, hok, hhi, hlo, hend⟩ := h
  simp only [Nat.zero_add] at hhi hlo hend
  have hb := bits_released (v := v) hok
  rw [sendByte, ← Flow.bind_assoc, hb, Flow.go_bind, waitAck,
    show Config.ackPollMax = k + ((254 - k) + 1) by simp [Config.ackPollMax]; omega,
    poll_acked (fun i hi => by simpa using hhi i hi) (by simpa using hlo)
      (fun i hi => by simpa [show 25 + (k + 1 + i) = 26 + k + i by omega] using hend i hi),
    Flow.go_bind, pauseHalf]
  refine congrArg Flow.go ?_
  apply State.ext <;> simp [State.slotSent, State.released, slotDraws, Wire.slot]
  case draws => rw [show 25 + (k + 3) = 28 + k by omega]
  case drawn => omega

/-- A byte that is never acknowledged ends in AckTimeout (41_transport.md R153; 60_exceptions.md R242). -/
theorem sendByte_unacked {v : Byte} {s : State} (h : s.unackedSlot 0) :
    sendByte v s = .raise .ackTimeout (s.slotUnacked v) := by
  obtain ⟨hok, hhi⟩ := h
  simp only [Nat.zero_add] at hhi
  rw [sendByte, ← Flow.bind_assoc, bits_released hok, Flow.go_bind, waitAck,
    poll_timeout (fun i hi => by simpa using hhi i hi), Flow.raise, Flow.ended_bind, Flow.raise]
  refine congrArg (fun t => Flow.ended (raise .ackTimeout t)) ?_
  apply State.ext <;> simp [State.slotUnacked, State.released, State.highsSeen, Wire.unacked, Config.ackPollMax]

end Sys2Proof.Machine
end

