-- ==== Sys2Proof/Laws/Faults.lean ====
section
/-!
SUPPORT. What taking an exception leaves, outside TEARDOWN and inside it, and what each fallible line action leaves when it
fails.
-/
namespace Sys2Proof.Machine

/-- `raise LineFault(e)` outside TEARDOWN, `LF` and the event counter having been set by the failed action
(60_exceptions.md R240, R241). -/
theorem raise_lineFault {e : ErrVal} {s : State} (hc : s.seq.cmd ≠ .teardown) :
    raise (.lineFault e) s.markFault = s.faulted e := by
  have hc' : ¬ s.markFault.seq.cmd = .teardown := hc
  rw [raise, if_neg hc']
  rfl

/-- `raise AckTimeout` outside TEARDOWN (60_exceptions.md R240, R242). -/
theorem raise_ackTimeout {s : State} (hc : s.seq.cmd ≠ .teardown) :
    raise .ackTimeout s = s.timedOut (anyErr s.cfg (Config.freeNat s.fresh 0)) := by
  rw [raise, if_neg hc]
  rfl

/-- A LineFault or an AckTimeout of TEARDOWN's own disable is discarded (44_lifecycle.md R215). -/
theorem raise_teardown {x : Exn} {s : State} (hx : (∃ e, x = .lineFault e) ∨ x = .ackTimeout)
    (hc : s.seq.cmd = .teardown) : raise x s = teardownEnd s := by
  rcases hx with ⟨e, rfl⟩ | rfl <;> rw [raise, if_pos hc]

/-- `respond(OK)`, with the unspecified `ERRV` free (10_state.md R37). -/
theorem respondOk_eq (s : State) : respondOk s = s.answeredOk (anyErr s.cfg (Config.freeNat s.fresh 0)) := rfl

/-- The end of each command but TEARDOWN, well done. -/
theorem finishCommand_init {s : State} (h : s.seq.cmd = .init) : finishCommand s =
    State.answeredOk (anyErr s.cfg (Config.freeNat s.fresh 0)) { s with life := .live, br := Config.brightnessInit, en := true } := by
  simp only [finishCommand, h]; rfl

theorem finishCommand_on {s : State}
    (h : s.seq.cmd = .sendBytes ∨ s.seq.cmd = .sendDigits ∨ s.seq.cmd = .sendNumber ∨ s.seq.cmd = .enable) :
    finishCommand s = State.answeredOk (anyErr s.cfg (Config.freeNat s.fresh 0)) { s with en := true } := by
  rcases h with h | h | h | h <;> simp only [finishCommand, h] <;> rfl

theorem finishCommand_off {s : State} (h : s.seq.cmd = .disable) :
    finishCommand s = State.answeredOk (anyErr s.cfg (Config.freeNat s.fresh 0)) { s with en := false } := by
  simp only [finishCommand, h]; rfl

theorem finishCommand_teardown {s : State} (h : s.seq.cmd = .teardown) : finishCommand s = teardownEnd s := by
  simp only [finishCommand, h]

/-- What the end of TEARDOWN leaves of what the spec fixes (44_lifecycle.md R215). -/
theorem teardownEnd_spec (s : State) : responded s (teardownEnd s) ⟨.ok, none⟩ ∧ (teardownEnd s).life = .unbuilt ∧
    (teardownEnd s).lf = false ∧ (teardownEnd s).en = false ∧ (teardownEnd s).clk = .x ∧ (teardownEnd s).dio = .x ∧
    (teardownEnd s).tr = s.tr ∧ (teardownEnd s).cmd = s.cmd ∧ (teardownEnd s).host = s.host :=
  ⟨⟨rfl, rfl, rfl, rfl⟩, rfl, rfl, rfl, rfl, rfl, rfl, rfl, rfl⟩

/-- Whatever is raised, the command is over, answered, and the trace is as it was (60_exceptions.md R240). -/
theorem raise_responded (x : Exn) (s : State) :
    ∃ r, responded s (raise x s) r ∧ (raise x s).tr = s.tr ∧ (raise x s).cmd = s.cmd ∧ (raise x s).host = s.host := by
  cases x <;> simp only [raise]
  all_goals try split
  all_goals exact ⟨⟨_, _⟩, ⟨rfl, rfl, rfl, rfl⟩, rfl, rfl, rfl⟩

@[simp] theorem raise_cfg (x : Exn) (s : State) : (raise x s).cfg = s.cfg := by
  cases x <;> simp only [raise] <;> (try split) <;> rfl

@[simp] theorem finishCommand_cfg (s : State) : (finishCommand s).cfg = s.cfg := by
  simp only [finishCommand]
  split <;> rfl

/-- A clock drive that fails, outside TEARDOWN (40_line_actions.md R130, R131). -/
theorem driveClk_err {hi : Bool} {e : ErrVal} {s : State} (h : s.drawAt 0 = .err e) (hc : s.seq.cmd ≠ .teardown) :
    driveClk hi s = .ended (State.faulted e
      { s.skipDraws 1 with clk := .x, clkO := Config.freeNat s.fresh 1 % 2 == 1, tr := s.tr ++ [clkErrTok hi e] }) := by
  rw [driveClk, h]
  exact congrArg Flow.ended (raise_lineFault (s := { s.skipDraws 1 with
    clk := .x, clkO := Config.freeNat s.fresh 1 % 2 == 1, tr := s.tr ++ [clkErrTok hi e] }) hc)

/-- A data drive that fails, outside TEARDOWN (40_line_actions.md R132, R133). -/
theorem driveDio_err {hi : Bool} {e : ErrVal} {s : State} (h : s.drawAt 0 = .err e) (hc : s.seq.cmd ≠ .teardown) :
    driveDio hi s = .ended (State.faulted e
      { s.skipDraws 1 with dio := .x, dioO := Config.freeNat s.fresh 2 % 2 == 1, tr := s.tr ++ [dioErrTok hi e] }) := by
  rw [driveDio, h]
  exact congrArg Flow.ended (raise_lineFault (s := { s.skipDraws 1 with
    dio := .x, dioO := Config.freeNat s.fresh 2 % 2 == 1, tr := s.tr ++ [dioErrTok hi e] }) hc)

/-- A sample that fails, outside TEARDOWN (40_line_actions.md R134). -/
theorem sampleDio_err {e : ErrVal} {s : State} (h : s.drawAt 0 = .err e) (hc : s.seq.cmd ≠ .teardown) :
    sampleDio s = .ended (State.faulted e { s.skipDraws 1 with tr := s.tr ++ [.se e] }) := by
  rw [sampleDio, h]
  exact congrArg Flow.ended (raise_lineFault (s := { s.skipDraws 1 with tr := s.tr ++ [.se e] }) hc)

/-! ### A bit cell and the acknowledgment window cut short -/

/-- The data drive of a bit cell fails. -/
theorem cell_err_data {b : Bool} {e : ErrVal} {s : State} (h : s.drawAt 0 = .err e) (hc : s.seq.cmd ≠ .teardown) :
    performAll (cellActs b) s = .ended (State.faulted e
      { s.skipDraws 1 with dio := .x, dioO := Config.freeNat s.fresh 2 % 2 == 1, tr := s.tr ++ [dioErrTok b e] }) := by
  cases b <;> simp only [cellActs, Act.ofBit, if_true, Bool.false_eq_true, if_false, performAll, Act.perform] <;>
    rw [driveDio_err h hc] <;> rfl

/-- The rising clock edge of a bit cell fails. -/
theorem cell_err_rise {b : Bool} {e : ErrVal} {s : State} (h0 : (s.drawAt 0).isOk = true) (h : s.drawAt 1 = .err e)
    (hc : s.seq.cmd ≠ .teardown) :
    performAll (cellActs b) s = .ended (State.faulted e
      { s.skipDraws 2 with
        dio := levelOf b, dioO := b, clk := .x, clkO := Config.freeNat s.fresh 1 % 2 == 1,
        tr := s.tr ++ [dioTok b, .wh, .c1e e] }) := by
  cases b <;> simp only [cellActs, Act.ofBit, if_true, Bool.false_eq_true, if_false, performAll, Act.perform] <;>
    rw [driveDio_ok h0] <;> simp only [Flow.go_bind, pauseHalf] <;>
    rw [driveClk_err (e := e) (by simpa using h) (by simpa using hc)] <;>
    refine congrArg (fun s => Flow.ended (State.faulted e s)) ?_ <;> apply State.ext <;> simp [clkErrTok]

/-- The falling clock edge of a bit cell fails. -/
theorem cell_err_fall {b : Bool} {e : ErrVal} {s : State} (h0 : (s.drawAt 0).isOk = true)
    (h1 : (s.drawAt 1).isOk = true) (h : s.drawAt 2 = .err e) (hc : s.seq.cmd ≠ .teardown) :
    performAll (cellActs b) s = .ended (State.faulted e
      { s.skipDraws 3 with
        dio := levelOf b, dioO := b, clk := .x, clkO := Config.freeNat s.fresh 1 % 2 == 1,
        tr := s.tr ++ [dioTok b, .wh, .c1, .wf, .c0e e] }) := by
  cases b <;> simp only [cellActs, Act.ofBit, if_true, Bool.false_eq_true, if_false, performAll, Act.perform] <;>
    rw [driveDio_ok h0] <;> simp only [Flow.go_bind, pauseHalf] <;>
    rw [driveClk_ok (by simpa using h1)] <;> simp only [Flow.go_bind, pauseFull] <;>
    rw [driveClk_err (e := e) (by simpa using h) (by simpa using hc)] <;>
    refine congrArg (fun s => Flow.ended (State.faulted e s)) ?_ <;> apply State.ext <;> simp [clkErrTok, clkTok]

/-- The bit loop after its first `i` cells. -/
theorem sendBits_split (i n : Nat) (s : State) (h : s.okAt 0 (3 * i)) :
    sendBits (i + n) s = sendBits n (s.cellsSent i) := by
  induction i generalizing s with
  | zero =>
    rw [Nat.zero_add]
    refine congrArg (sendBits n) ?_
    apply State.ext <;> simp [State.cellsSent, Wire.cells]
  | succ i ih =>
    have hc := cell_ok (s := s) (fun j hj => h j (by omega))
    have hr : (s.cellsSent 1).okAt 0 (3 * i) := by
      intro j hj
      have := h (3 + j) (by omega)
      simpa using this
    have : sendBits (i + 1 + n) s =
        ((performAll (cellActs (s.sr.getLsbD 0)) s).bind fun s => .go (shiftOut s)).bind (sendBits (i + n)) := by
      rw [Flow.bind_assoc, show i + 1 + n = (i + n) + 1 by omega]; rfl
    rw [this, hc, Flow.go_bind, ih _ hr, State.cellsSent_cellsSent]

/-- A bit cell that ends the command ends the bit loop. -/
theorem sendBits_ended {i : Nat} {s t : State} (hi : i < 8) (h : s.okAt 0 (3 * i))
    (ht : performAll (cellActs ((s.sr >>> i).getLsbD 0)) (s.cellsSent i) = .ended t) : sendBits 8 s = .ended t := by
  have hs := sendBits_split i (7 - i + 1) s h
  rw [show i + (7 - i + 1) = 8 by omega] at hs
  have hsr : (s.cellsSent i).sr = s.sr >>> i := rfl
  rw [hs, sendBits, hsr, ht, Flow.ended_bind]

/-- The clock pulse that closes the acknowledgment window fails as it rises. -/
theorem ackActs_err_rise {e : ErrVal} {s : State} (h : s.drawAt 0 = .err e) (hc : s.seq.cmd ≠ .teardown) :
    performAll ackActs s = .ended (State.faulted e
      { s.skipDraws 1 with clk := .x, clkO := Config.freeNat s.fresh 1 % 2 == 1, tr := s.tr ++ [.wf, .c1e e] }) := by
  simp only [ackActs, performAll, Act.perform, Flow.go_bind, pauseFull]
  rw [driveClk_err (e := e) (by simpa using h) (by simpa using hc), Flow.ended_bind]
  refine congrArg (fun s => Flow.ended (State.faulted e s)) ?_
  apply State.ext <;> simp [clkErrTok]

/-- The clock pulse that closes the acknowledgment window fails as it falls. -/
theorem ackActs_err_fall {e : ErrVal} {s : State} (h0 : (s.drawAt 0).isOk = true) (h : s.drawAt 1 = .err e)
    (hc : s.seq.cmd ≠ .teardown) :
    performAll ackActs s = .ended (State.faulted e
      { s.skipDraws 2 with
        clk := .x, clkO := Config.freeNat s.fresh 1 % 2 == 1, tr := s.tr ++ [.wf, .c1, .wf, .c0e e] }) := by
  simp only [ackActs, performAll, Act.perform, Flow.go_bind, pauseFull]
  rw [driveClk_ok (by simpa using h0)]
  simp only [Flow.go_bind]
  rw [driveClk_err (e := e) (by simpa using h) (by simpa using hc), Flow.ended_bind]
  refine congrArg (fun s => Flow.ended (State.faulted e s)) ?_
  apply State.ext <;> simp [clkErrTok, clkTok]

end Sys2Proof.Machine
end

