-- ==== Sys2Proof/Laws/Frames.lean ====
section
/-!
SUPPORT. One principle for everything that holds whatever the draws: if the seven line actions and the register updates
between them keep a relation, and a failure leaves another, then every routine, transmission and frame does.
-/
namespace Sys2Proof.Machine

/-- A flow from `s` that goes on keeps `R`; one that ends the command leaves `E`. -/
def Flow.Leaves (R E : State → State → Prop) (s : State) : Flow → Prop
  | .go t => R s t
  | .ended t => E s t

/-- `R` is kept by every action and every register update of the transport and of the framing, and `E` is left by every
exception raised there. -/
structure Kept (R E : State → State → Prop) : Prop where
  refl : ∀ s, R s s
  trans : ∀ s t u, R s t → R t u → R s u
  comp : ∀ s t u, R s t → E t u → E s u
  act : ∀ (a : Act) s, Flow.Leaves R E s (a.perform s)
  timeout : ∀ s, E s (raise .ackTimeout s)
  shift : ∀ s, R s (shiftOut s)
  poll : ∀ s, R s (clearPoll s)
  count : ∀ s, R s (countSample s)
  load : ∀ v s, R s (loadByte v s)
  phase : ∀ p s, R s (s.inPhase p)
  clear : ∀ s, R s (clearIndex s)
  next : ∀ s, R s (nextIndex s)

variable {R E : State → State → Prop}

theorem Kept.bind (h : Kept R E) {s : State} {f : Flow} {g : State → Flow} (hf : f.Leaves R E s)
    (hg : ∀ t, (g t).Leaves R E t) : (f.bind g).Leaves R E s := by
  cases f with
  | ended t => exact hf
  | go t =>
    have hg := hg t
    rw [Flow.go_bind]
    cases hgt : g t with
    | go u => rw [hgt] at hg; exact h.trans _ _ _ hf hg
    | ended u => rw [hgt] at hg; exact h.comp _ _ _ hf hg

theorem Kept.after (h : Kept R E) {s t : State} {f : Flow} (hs : R s t) (hf : f.Leaves R E t) : f.Leaves R E s := by
  cases f with
  | go u => exact h.trans _ _ _ hs hf
  | ended u => exact h.comp _ _ _ hs hf

theorem Kept.performAll (h : Kept R E) (as : List Act) (s : State) : (performAll as s).Leaves R E s := by
  induction as generalizing s with
  | nil => exact h.refl s
  | cons a as ih => exact h.bind (h.act a s) ih

theorem Kept.startCondition (h : Kept R E) (s : State) : (startCondition s).Leaves R E s := h.performAll _ s

theorem Kept.stopCondition (h : Kept R E) (s : State) : (stopCondition s).Leaves R E s := h.performAll _ s

theorem Kept.sendBits (h : Kept R E) (n : Nat) (s : State) : (sendBits n s).Leaves R E s := by
  induction n generalizing s with
  | zero => exact h.refl s
  | succ n ih => exact h.bind (h.performAll _ s) fun t => h.after (h.shift t) (ih _)

theorem Kept.pollLoop (h : Kept R E) (n : Nat) (s : State) : (Machine.poll n s).Leaves R E s := by
  induction n generalizing s with
  | zero => exact h.timeout s
  | succ n ih =>
    refine h.bind (h.act .dioSample s) fun t => h.after (h.count t) ?_
    dsimp only
    split
    · exact h.bind (h.act .waitFull _) fun u => ih u
    · exact h.performAll _ _

theorem Kept.waitAck (h : Kept R E) (s : State) : (waitAck s).Leaves R E s := h.after (h.poll s) (h.pollLoop _ _)

theorem Kept.sendByte (h : Kept R E) (v : Byte) (s : State) : (sendByte v s).Leaves R E s :=
  h.after (h.load v s) <| h.bind (h.sendBits 8 _) fun t => h.bind (h.act .dioHi t) fun u =>
    h.bind (h.waitAck u) fun x => h.act .waitHalf x

theorem Kept.phaseC (h : Kept R E) (c : Byte) (s : State) : (phaseC c s).Leaves R E s :=
  h.after (h.phase .c s) <| h.bind (h.startCondition _) fun t => h.bind (h.sendByte c t) fun u => h.stopCondition u

theorem Kept.sendPayload (h : Kept R E) (n : Nat) (s : State) : (sendPayload n s).Leaves R E s := by
  induction n generalizing s with
  | zero => exact h.refl s
  | succ n ih => exact h.bind (h.sendByte _ s) fun t => h.after (h.next t) (ih _)

theorem Kept.frame (h : Kept R E) (s : State) : (frame s).Leaves R E s :=
  h.after (h.phase .a s) <| h.bind (h.startCondition _) fun t => h.bind (h.sendByte _ t) fun u =>
    h.bind (h.stopCondition u) fun v => h.after (h.phase .b v) <| h.bind (h.startCondition _) fun w =>
      h.bind (h.sendByte _ w) fun x => h.after (h.clear x) <| h.bind (h.sendPayload _ _) fun y =>
        h.bind (h.stopCondition y) fun z => h.phaseC _ z

/-! ### The registers that no line action and no routine writes -/

/-- `LIFE`, `BR`, `EN`, `PB`, `PLEN`, `CMD`, the port, the command in progress, `LF`, the responses and the event counter are as
they were, and the trace has grown. -/
def Steady (s t : State) : Prop :=
  t.life = s.life ∧ t.br = s.br ∧ t.en = s.en ∧ t.pb = s.pb ∧ t.plen = s.plen ∧ t.cmd = s.cmd ∧ t.host = s.host ∧
    t.seq.cmd = s.seq.cmd ∧ t.lf = s.lf ∧ t.responses = s.responses ∧ t.fresh = s.fresh ∧ s.traceGrew t

/-- Outside TEARDOWN an exception leaves `LIFE`, `BR`, `EN`, `PB`, `PLEN`, `CMD` and the port, and answers; inside TEARDOWN it
completes the teardown (60_exceptions.md R240; 44_lifecycle.md R215). -/
def Answered (s t : State) : Prop :=
  s.traceGrew t ∧ t.cmd = s.cmd ∧ t.host = s.host ∧
    (s.seq.cmd ≠ .teardown →
      t.life = s.life ∧ t.br = s.br ∧ t.en = s.en ∧ t.pb = s.pb ∧ t.plen = s.plen ∧
        ((responded s t ⟨.ackTimeout, none⟩ ∧ t.lf = s.lf) ∨
          ∃ e, responded s t ⟨.lineFault, some e⟩ ∧ t.errv = e ∧ t.lf = true)) ∧
    (s.seq.cmd = .teardown →
      responded s t ⟨.ok, none⟩ ∧ t.life = .unbuilt ∧ t.lf = false ∧ t.en = false ∧ t.clk = .x ∧ t.dio = .x)

theorem traceGrew_refl (s : State) : s.traceGrew s := ⟨[], by simp⟩

theorem traceGrew_trans {s t u : State} (h : s.traceGrew t) (h' : t.traceGrew u) : s.traceGrew u := by
  obtain ⟨a, ha⟩ := h
  obtain ⟨b, hb⟩ := h'
  exact ⟨a ++ b, by rw [hb, ha, List.append_assoc]⟩

theorem steady_refl (s : State) : Steady s s :=
  ⟨rfl, rfl, rfl, rfl, rfl, rfl, rfl, rfl, rfl, rfl, rfl, traceGrew_refl s⟩

/-- An update of a register of the datapath is steady. -/
theorem steady_of_tr {s t : State} (h : t.life = s.life ∧ t.br = s.br ∧ t.en = s.en ∧ t.pb = s.pb ∧ t.plen = s.plen ∧
    t.cmd = s.cmd ∧ t.host = s.host ∧ t.seq.cmd = s.seq.cmd ∧ t.lf = s.lf ∧ t.responses = s.responses ∧ t.fresh = s.fresh)
    (htr : t.tr = s.tr) : Steady s t := by
  obtain ⟨h1, h2, h3, h4, h5, h6, h7, h8, h9, h10, h11⟩ := h
  exact ⟨h1, h2, h3, h4, h5, h6, h7, h8, h9, h10, h11, [], by rw [htr, List.append_nil]⟩

/-- A LineFault or an AckTimeout, from a state in which the failed action has been recorded. -/
theorem answered_lineFault (e : ErrVal) (s u : State) (tok : Tok)
    (h : u.life = s.life ∧ u.br = s.br ∧ u.en = s.en ∧ u.pb = s.pb ∧ u.plen = s.plen ∧ u.cmd = s.cmd ∧ u.host = s.host ∧
      u.seq.cmd = s.seq.cmd ∧ u.lf = true ∧ u.responses = s.responses) (htr : u.tr = s.tr ++ [tok]) :
    Answered s (raise (.lineFault e) u) := by
  obtain ⟨h1, h2, h3, h4, h5, h6, h7, h8, h9, h10⟩ := h
  refine ⟨⟨[tok], ?_⟩, ?_, ?_, fun hc => ?_, fun hc => ?_⟩
  · rw [← htr]; simp only [raise]; split <;> rfl
  · rw [← h6]; simp only [raise]; split <;> rfl
  · rw [← h7]; simp only [raise]; split <;> rfl
  · rw [raise, if_neg (by rw [h8]; exact hc)]
    exact ⟨h1, h2, h3, h4, h5, .inr ⟨e, ⟨rfl, rfl, by rw [← h10]; rfl, rfl⟩, rfl, h9⟩⟩
  · rw [raise, if_pos (by rw [h8]; exact hc)]
    exact ⟨⟨rfl, rfl, by rw [← h10]; rfl, rfl⟩, rfl, rfl, rfl, rfl, rfl⟩

theorem kept_steady : Kept Steady Answered where
  refl := steady_refl
  trans := by
    intro s t u ⟨h1, h2, h3, h4, h5, h6, h7, h8, h9, h10, h11, h12⟩ ⟨g1, g2, g3, g4, g5, g6, g7, g8, g9, g10, g11, g12⟩
    exact ⟨g1.trans h1, g2.trans h2, g3.trans h3, g4.trans h4, g5.trans h5, g6.trans h6, g7.trans h7, g8.trans h8,
      g9.trans h9, g10.trans h10, g11.trans h11, traceGrew_trans h12 g12⟩
  comp := by
    intro s t u ⟨h1, h2, h3, h4, h5, h6, h7, h8, h9, h10, h11, h12⟩ ⟨g1, g2, g3, g4, g5⟩
    refine ⟨traceGrew_trans h12 g1, g2.trans h6, g3.trans h7, fun hc => ?_, fun hc => ?_⟩
    · obtain ⟨k1, k2, k3, k4, k5, k6⟩ := g4 (by rw [h8]; exact hc)
      refine ⟨k1.trans h1, k2.trans h2, k3.trans h3, k4.trans h4, k5.trans h5, ?_⟩
      simp only [responded, h10] at k6 ⊢
      rwa [h9] at k6
    · have := g5 (by rw [h8]; exact hc)
      simp only [responded, h10] at this ⊢
      exact this
  act := by
    intro a s
    cases a <;> simp only [Act.perform, driveClk, driveDio, sampleDio, pauseHalf, pauseFull]
    case waitHalf => exact ⟨rfl, rfl, rfl, rfl, rfl, rfl, rfl, rfl, rfl, rfl, rfl, _, rfl⟩
    case waitFull => exact ⟨rfl, rfl, rfl, rfl, rfl, rfl, rfl, rfl, rfl, rfl, rfl, _, rfl⟩
    all_goals
      split
      · exact ⟨rfl, rfl, rfl, rfl, rfl, rfl, rfl, rfl, rfl, rfl, rfl, _, rfl⟩
      · exact answered_lineFault _ s _ _ ⟨rfl, rfl, rfl, rfl, rfl, rfl, rfl, rfl, rfl, rfl⟩ rfl
  timeout := by
    intro s
    refine ⟨⟨[], by simp only [raise]; split <;> exact (List.append_nil s.tr).symm⟩, ?_, ?_, fun hc => ?_, fun hc => ?_⟩
    · simp only [raise]; split <;> rfl
    · simp only [raise]; split <;> rfl
    · rw [raise, if_neg hc]
      exact ⟨rfl, rfl, rfl, rfl, rfl, .inl ⟨⟨rfl, rfl, rfl, rfl⟩, rfl⟩⟩
    · rw [raise, if_pos hc]
      exact ⟨⟨rfl, rfl, rfl, rfl⟩, rfl, rfl, rfl, rfl, rfl⟩
  shift s := steady_of_tr ⟨rfl, rfl, rfl, rfl, rfl, rfl, rfl, rfl, rfl, rfl, rfl⟩ rfl
  poll s := steady_of_tr ⟨rfl, rfl, rfl, rfl, rfl, rfl, rfl, rfl, rfl, rfl, rfl⟩ rfl
  count s := steady_of_tr ⟨rfl, rfl, rfl, rfl, rfl, rfl, rfl, rfl, rfl, rfl, rfl⟩ rfl
  load v s := steady_of_tr ⟨rfl, rfl, rfl, rfl, rfl, rfl, rfl, rfl, rfl, rfl, rfl⟩ rfl
  phase p s := steady_of_tr ⟨rfl, rfl, rfl, rfl, rfl, rfl, rfl, rfl, rfl, rfl, rfl⟩ rfl
  clear s := steady_of_tr ⟨rfl, rfl, rfl, rfl, rfl, rfl, rfl, rfl, rfl, rfl, rfl⟩ rfl
  next s := steady_of_tr ⟨rfl, rfl, rfl, rfl, rfl, rfl, rfl, rfl, rfl, rfl, rfl⟩ rfl

/-! ### The parameters, and what a response carries -/

/-- The parameters and the responses are as they were. -/
def Silent (s t : State) : Prop := t.cfg = s.cfg ∧ t.responses = s.responses

/-- The parameters are as they were, and the one response given carries nothing or a value of `E` (00_scope.md R12). -/
def Carried (s t : State) : Prop :=
  t.cfg = s.cfg ∧ ∃ r, t.responses = s.responses ++ [r] ∧ ∀ e, r.err = some e → s.cfg.isErr e = true

theorem carried_raise {x : Exn} {s u : State} (hc : u.cfg = s.cfg) (hr : u.responses = s.responses)
    (hx : ∀ e, x = .lineFault e → s.cfg.isErr e = true) : Carried s (raise x u) := by
  cases x <;> simp only [raise]
  case lineFault e =>
    split
    · exact ⟨hc, ⟨.ok, none⟩, by rw [← hr]; rfl, fun e he => by cases he⟩
    · exact ⟨hc, ⟨.lineFault, some e⟩, by rw [← hr]; rfl, fun e' he => by cases he; exact hx e rfl⟩
  case ackTimeout =>
    split
    · exact ⟨hc, ⟨.ok, none⟩, by rw [← hr]; rfl, fun e he => by cases he⟩
    · exact ⟨hc, ⟨.ackTimeout, none⟩, by rw [← hr]; rfl, fun e he => by cases he⟩
  all_goals exact ⟨hc, _, by rw [← hr]; rfl, fun e he => by cases he⟩

theorem kept_silent : Kept Silent Carried where
  refl s := ⟨rfl, rfl⟩
  trans _ _ _ h g := ⟨g.1.trans h.1, g.2.trans h.2⟩
  comp := by
    rintro s t u ⟨h1, h2⟩ ⟨g1, r, g2, g3⟩
    exact ⟨g1.trans h1, r, by rw [g2, h2], fun e he => by rw [← h1]; exact g3 e he⟩
  act := by
    intro a s
    cases a <;> simp only [Act.perform, driveClk, driveDio, sampleDio, pauseHalf, pauseFull]
    case waitHalf => exact ⟨rfl, rfl⟩
    case waitFull => exact ⟨rfl, rfl⟩
    all_goals
      cases hd : s.drawAt 0 with
      | ok b => exact ⟨rfl, rfl⟩
      | err e => exact carried_raise rfl rfl fun e' he => by cases he; exact (State.drawAt_err hd).1
  timeout s := carried_raise rfl rfl fun e he => by cases he
  shift s := ⟨rfl, rfl⟩
  poll s := ⟨rfl, rfl⟩
  count s := ⟨rfl, rfl⟩
  load v s := ⟨rfl, rfl⟩
  phase p s := ⟨rfl, rfl⟩
  clear s := ⟨rfl, rfl⟩
  next s := ⟨rfl, rfl⟩

end Sys2Proof.Machine
end

