-- ==== Sys2Proof/Laws/Framing.lean ====
section
/-!
SUPPORT. What a transmission and a frame do when no line action fails and every byte is acknowledged, as one equation each.
-/
namespace Sys2Proof.Machine

theorem State.okAt_congr {s t : State} {off off' n : Nat} (h : ∀ i, t.drawAt (off' + i) = s.drawAt (off + i))
    (hs : s.okAt off n) : t.okAt off' n := fun i hi => by rw [h]; exact hs i hi

theorem State.ackedSlot_congr {s t : State} {off off' k : Nat} (h : ∀ i, t.drawAt (off' + i) = s.drawAt (off + i))
    (hs : s.ackedSlot off k) : t.ackedSlot off' k := by
  obtain ⟨h1, h2, h3, h4, h5⟩ := hs
  refine ⟨h1, State.okAt_congr h h2, fun i hi => ?_, ?_, fun i hi => ?_⟩
  · rw [Nat.add_assoc, h, ← Nat.add_assoc]; exact h3 i hi
  · rw [Nat.add_assoc, h, ← Nat.add_assoc]; exact h4
  · rw [Nat.add_assoc, Nat.add_assoc, h, ← Nat.add_assoc, ← Nat.add_assoc]; exact h5 i hi

theorem State.ackedSlots_congr {s t : State} {off off' : Nat} {ks : List Nat}
    (h : ∀ i, t.drawAt (off' + i) = s.drawAt (off + i)) (hs : s.ackedSlots off ks) : t.ackedSlots off' ks := by
  induction ks generalizing off off' with
  | nil => trivial
  | cons k ks ih =>
    refine ⟨State.ackedSlot_congr h hs.1, ih (fun i => ?_) hs.2⟩
    rw [Nat.add_assoc, h, ← Nat.add_assoc]

theorem State.ackedTransmission_congr {s t : State} {off off' : Nat} {ks : List Nat}
    (h : ∀ i, t.drawAt (off' + i) = s.drawAt (off + i)) (hs : s.ackedTransmission off ks) :
    t.ackedTransmission off' ks := by
  obtain ⟨h1, h2, h3⟩ := hs
  refine ⟨State.okAt_congr h h1, State.ackedSlots_congr (fun i => ?_) h2, State.okAt_congr (fun i => ?_) h3⟩
  · rw [Nat.add_assoc, h, ← Nat.add_assoc]
  · rw [Nat.add_assoc, Nat.add_assoc, h, ← Nat.add_assoc, ← Nat.add_assoc]

/-- The state after a transmission of one byte that was acknowledged after `k` high samples. -/
def State.byteTransmitted (v : Byte) (k : Nat) (s : State) : State :=
  { s.skipDraws (transmissionDraws [k]) with
    sr := 0, bc := 8, ac := BitVec.ofNat 8 (k + 1), clk := .hi, dio := .hi, clkO := true, dioO := true,
    ret := .bit false, tr := s.tr ++ Wire.transmission [v] [k] }

@[simp] theorem State.byteTransmitted_drawAt (v : Byte) (k : Nat) (s : State) (i : Nat) :
    (s.byteTransmitted v k).drawAt i = s.drawAt (transmissionDraws [k] + i) :=
  State.drawAt_skipDraws _ s i

/-- A transmission of one byte (30_encoding.md R99). -/
theorem transmit_byte {v : Byte} {k : Nat} {s : State} (h : s.ackedTransmission 0 [k]) :
    (startCondition s).bind (fun s => (sendByte v s).bind stopCondition) = .go (s.byteTransmitted v k) := by
  obtain ⟨h1, h2, h3⟩ := h
  rw [startCondition_ok h1, Flow.go_bind,
    sendByte_acked (State.ackedSlot_congr (fun i => by simp) h2.1), Flow.go_bind,
    stopCondition_ok (State.okAt_congr (fun i => by simp [slotsDraws, slotDraws, Nat.add_assoc]) h3)]
  refine congrArg Flow.go ?_
  apply State.ext <;>
    simp [State.byteTransmitted, State.started, State.slotSent, State.stopped, slotDraws, transmissionDraws, slotsDraws,
      Wire.transmission, Wire.slots]
  case draws => rw [show 4 + (28 + k) + 4 = 8 + (28 + k) by omega]
  case drawn => omega

/-- PHASE_C when its byte is acknowledged (43_framing.md R191). -/
theorem phaseC_acked {c : Byte} {k : Nat} {s : State} (h : s.ackedTransmission 0 [k]) :
    phaseC c s = .go ((s.inPhase .c).byteTransmitted c k) :=
  transmit_byte (State.ackedTransmission_congr (fun i => by simp) h)

/-- The state after the slots of `bs`, from payload index `s.pi` on. -/
def State.slotsSent (bs : List Byte) (ks : List Nat) (s : State) : State :=
  { s.skipDraws (slotsDraws ks) with
    pi := s.pi + BitVec.ofNat 4 bs.length
    sr := if bs = [] then s.sr else 0
    bc := if bs = [] then s.bc else 8
    ac := if bs = [] then s.ac else BitVec.ofNat 8 (ks.getLastD 0 + 1)
    clk := if bs = [] then s.clk else .lo
    clkO := if bs = [] then s.clkO else false
    dio := if bs = [] then s.dio else .hi
    dioO := if bs = [] then s.dioO else true
    ret := if bs = [] then s.ret else .bit false
    tr := s.tr ++ Wire.slots bs ks }

@[simp] theorem State.slotsSent_drawAt (bs : List Byte) (ks : List Nat) (s : State) (i : Nat) :
    (s.slotsSent bs ks).drawAt i = s.drawAt (slotsDraws ks + i) :=
  State.drawAt_skipDraws _ s i

theorem State.slotSent_slotsSent (b : Byte) (bs : List Byte) (k : Nat) (ks : List Nat) (s : State)
    (h : bs.length = ks.length) :
    (nextIndex (s.slotSent b k)).slotsSent bs ks = s.slotsSent (b :: bs) (k :: ks) := by
  apply State.ext <;> simp [State.slotsSent, State.slotSent, slotsDraws, Wire.slots]
  case ac => cases ks <;> cases bs <;> simp_all
  case pi => rw [BitVec.add_assoc, Nat.add_comm bs.length 1, BitVec.ofNat_add]
  case drawn => omega

/-- The payload loop when every byte is acknowledged (43_framing.md R190). -/
theorem sendPayload_acked {bs : List Byte} {ks : List Nat} {s : State} (hl : bs.length = ks.length)
    (hb : ∀ i (hi : i < bs.length), s.pbAt ((s.pi + BitVec.ofNat 4 i).toNat) = bs[i]) (h : s.ackedSlots 0 ks) :
    sendPayload bs.length s = .go (s.slotsSent bs ks) := by
  induction bs generalizing ks s with
  | nil =>
    cases ks with
    | nil =>
      simp only [List.length_nil, sendPayload]
      refine congrArg Flow.go ?_
      apply State.ext <;> simp [State.slotsSent, slotsDraws, Wire.slots]
    | cons k ks => simp at hl
  | cons b bs ih =>
    cases ks with
    | nil => simp at hl
    | cons k ks =>
      have h0 : s.pbAt s.pi.toNat = b := by
        have := hb 0 (Nat.succ_pos _)
        rwa [BitVec.add_zero] at this
      have hl' : bs.length = ks.length := by simpa using hl
      have hb' : ∀ i (hi : i < bs.length),
          (nextIndex (s.slotSent b k)).pbAt (((nextIndex (s.slotSent b k)).pi + BitVec.ofNat 4 i).toNat) = bs[i] := by
        intro i hi
        have := hb (i + 1) (Nat.succ_lt_succ hi)
        have hadd : s.pi + 1 + BitVec.ofNat 4 i = s.pi + BitVec.ofNat 4 (i + 1) := by
          rw [BitVec.add_assoc, Nat.add_comm i 1, BitVec.ofNat_add]; rfl
        rw [← hadd, List.getElem_cons_succ] at this
        exact this
      simp only [List.length_cons, sendPayload, h0]
      rw [sendByte_acked h.1, Flow.go_bind, ih hl' hb' (State.ackedSlots_congr (fun i => by simp) h.2),
        State.slotSent_slotsSent _ _ _ _ _ hl']

theorem State.payload_length (s : State) : s.payload.length = s.plen.toNat := by simp [State.payload]

/-- The state after phase (b) when every byte was acknowledged (43_framing.md R190). -/
def State.burstSent (kb : Nat) (kp : List Nat) (s : State) : State :=
  { (s.inPhase .b).skipDraws (transmissionDraws (kb :: kp)) with
    pi := s.plen, sr := 0, bc := 8, ac := BitVec.ofNat 8 ((kb :: kp).getLastD 0 + 1), clk := .hi, dio := .hi,
    clkO := true, dioO := true, ret := .bit false,
    tr := s.tr ++ Wire.transmission (s.cfg.addrCmd :: s.payload) (kb :: kp) }

@[simp] theorem State.burstSent_drawAt (kb : Nat) (kp : List Nat) (s : State) (i : Nat) :
    (s.burstSent kb kp).drawAt i = s.drawAt (transmissionDraws (kb :: kp) + i) :=
  State.drawAt_skipDraws _ s i

/-- Phase (b) when every byte is acknowledged (43_framing.md R190). -/
theorem phaseB_acked {s : State} {kb : Nat} {kp : List Nat} (hl : kp.length = s.plen.toNat)
    (h : s.ackedTransmission 0 (kb :: kp)) :
    (startCondition (s.inPhase .b)).bind (fun t => (sendByte s.cfg.addrCmd t).bind fun t =>
      (sendPayload t.plen.toNat (clearIndex t)).bind stopCondition) =
    .go (s.burstSent kb kp) := by
  obtain ⟨h1, h2, h3⟩ := h
  have hlen : s.payload.length = kp.length := by rw [State.payload_length, hl]
  have hplen : s.payload.length = s.plen.toNat := State.payload_length s
  rw [startCondition_ok (State.okAt_congr (fun i => by simp) h1), Flow.go_bind,
    sendByte_acked (State.ackedSlot_congr (fun i => by simp) h2.1), Flow.go_bind]
  have hn : (((s.inPhase .b).started).slotSent s.cfg.addrCmd kb).plen.toNat = s.payload.length := by
    rw [hplen]; rfl
  rw [hn, sendPayload_acked (ks := kp) hlen, Flow.go_bind, stopCondition_ok]
  · refine congrArg Flow.go ?_
    apply State.ext <;>
      simp [State.burstSent, State.slotsSent, State.started, State.slotSent, State.stopped, transmissionDraws, slotsDraws,
        Wire.transmission, Wire.slots, hplen]
    case ac =>
      cases hp : s.payload with
      | nil =>
        have : kp = [] := List.eq_nil_of_length_eq_zero (by rw [← hlen, hp]; rfl)
        simp [this]
      | cons b bs =>
        cases kp with
        | nil => rw [hp] at hlen; simp at hlen
        | cons k ks => simp [List.getLast?_cons_cons]
    case draws =>
      rw [show 4 + slotDraws kb + (List.map slotDraws kp).sum + 4 = 8 + (slotDraws kb + (List.map slotDraws kp).sum) by omega]
    case drawn => omega
  · refine State.okAt_congr (fun i => ?_) h3
    simp [slotsDraws, Nat.add_assoc]
  · intro i hi
    have hi4 : i < 16 := by omega
    change s.pbAt (0#4 + BitVec.ofNat 4 i).toNat = _
    rw [BitVec.zero_add, BitVec.toNat_ofNat, Nat.mod_eq_of_lt hi4]
    simp [State.payload]
  · exact State.ackedSlots_congr (fun i => by simp [Nat.add_assoc]) h2.2

/-- FRAME as three transmissions, the bytes of each being the instantiation's (43_framing.md R190). -/
theorem frame_eq (s : State) : frame s =
    ((startCondition (s.inPhase .a)).bind fun t => (sendByte s.cfg.dataCmd t).bind stopCondition).bind fun s =>
      (startCondition (s.inPhase .b)).bind fun t => (sendByte s.cfg.addrCmd t).bind fun t =>
        (sendPayload t.plen.toNat (clearIndex t)).bind fun t => (stopCondition t).bind fun t => phaseC (ctrl t.cfg t.br) t := by
  rw [Flow.bind_assoc, frame]
  refine Flow.bind_congr fun t ht => ?_
  rw [Flow.bind_assoc, show t.cfg = s.cfg from performAll_cfg (as := startActs) (s := s.inPhase .a) ht]
  refine Flow.bind_congr fun u _ => Flow.bind_congr fun v _ => Flow.bind_congr fun w hw => ?_
  rw [show w.cfg = v.cfg from performAll_cfg (as := startActs) (s := v.inPhase .b) hw]

/-- FRAME when no line action fails and every byte is acknowledged (43_framing.md R190). -/
theorem frame_acked {s : State} {w : FrameWaits} (hl : w.kp.length = s.plen.toNat) (h : s.ackedFrame w) :
    frame s = .go (s.frameSent w) := by
  obtain ⟨ha, hb, hc⟩ := h
  have hA := transmit_byte (v := s.cfg.dataCmd) (State.ackedTransmission_congr (s := s) (t := s.inPhase .a) (fun i => by simp) ha)
  have hB := phaseB_acked (s := (s.inPhase .a).byteTransmitted s.cfg.dataCmd w.ka) (kb := w.kb) (kp := w.kp) hl
    (State.ackedTransmission_congr (fun i => by simp) hb)
  have hfr : frame s = ((startCondition (s.inPhase .a)).bind fun t => (sendByte s.cfg.dataCmd t).bind stopCondition).bind
      fun s => ((startCondition (s.inPhase .b)).bind fun t => (sendByte s.cfg.addrCmd t).bind fun t =>
        (sendPayload t.plen.toNat (clearIndex t)).bind stopCondition).bind fun t => phaseC (ctrl t.cfg t.br) t := by
    simp only [frame_eq, Flow.bind_assoc]
  have hpay : ((s.inPhase .a).byteTransmitted s.cfg.dataCmd w.ka).payload = s.payload := rfl
  rw [hfr, hA, Flow.go_bind, hB, Flow.go_bind, phaseC_acked (k := w.kc)]
  · refine congrArg Flow.go ?_
    apply State.ext <;>
      simp [State.frameSent, State.burstSent, State.byteTransmitted, Wire.frame, frameDraws, Nat.add_assoc]
    case tr => exact congrArg (fun p => Wire.transmission (s.cfg.addrCmd :: p) (w.kb :: w.kp)) hpay
  · exact State.ackedTransmission_congr (fun i => by simp [Nat.add_assoc]) hc

end Sys2Proof.Machine
end

