-- ==== Sys2Proof/Laws/Sequencer.lean ====
section
/-!
SUPPORT. The sequencer performs what the routines say: from the position of a routine, steps of the machine reach the state
in which the routine, run to its end, leaves the engine, with `SEQ` where the sequencer puts it next.
-/
namespace Sys2Proof.Machine

/-- A state with `SEQ` at a position. -/
def State.at (q : Seq) (s : State) : State := { s with seq := q }

@[simp] theorem State.at_seq (q : Seq) (s : State) : (s.at q).seq = q := rfl

@[simp] theorem State.at_at (q r : Seq) (s : State) : (s.at q).at r = s.at r := rfl

@[simp] theorem State.at_ret (q : Seq) (s : State) : (s.at q).ret = s.ret := rfl

@[simp] theorem State.at_ac (q : Seq) (s : State) : (s.at q).ac = s.ac := rfl

theorem State.at_self (s : State) : s.at s.seq = s := rfl

/-- A flow with `SEQ` at a position, if it goes on. -/
def Flow.at (q : Seq) : Flow → Flow
  | .go s => .go (s.at q)
  | .ended s => .ended s

/-- What a flow leaves when it is continued with `k`. -/
def Flow.after (f : Flow) (k : State → State) : State :=
  match f with
  | .go t => k t
  | .ended t => t

@[simp] theorem Flow.go_after (t : State) (k : State → State) : (Flow.go t).after k = k t := rfl

@[simp] theorem Flow.ended_after (t : State) (k : State → State) : (Flow.ended t).after k = t := rfl

/-! ### Runs -/

theorem run_zero (s : State) : Host.Core.run core 0 s = .next s := rfl

theorem run_step {n : Nat} {s t : State} (h : step s = .next t) :
    Host.Core.run core (n + 1) s = Host.Core.run core n t := by
  have h' : core.step s = .next t := h
  simp only [Host.Core.run, h']

theorem run_add (n m : Nat) (s t : State) (h : Host.Core.run core n s = .next t) :
    Host.Core.run core (n + m) s = Host.Core.run core m t := by
  induction n generalizing s with
  | zero =>
    rw [run_zero] at h
    cases h
    rw [Nat.zero_add]
  | succ n ih =>
    cases hs : step s with
    | next u => rw [Nat.add_right_comm, run_step hs]; rw [run_step hs] at h; exact ih u h
    | fault f => have hs' : core.step s = .fault f := hs; simp [Host.Core.run, hs'] at h
    | refused r => have hs' : core.step s = .refused r := hs; simp [Host.Core.run, hs'] at h

/-- At most `B` steps from `s` reach what `f`, continued with `k`, leaves. -/
def Sim (B : Nat) (s : State) (f : Flow) (k : State → State) : Prop :=
  ∃ n, n ≤ B ∧ Host.Core.run core n s = .next (f.after k)

theorem Sim.bind {B C : Nat} {s : State} {f : Flow} {g : State → Flow} {k l : State → State}
    (h : Sim B s f k) (h' : ∀ t, f = .go t → Sim C (k t) (g t) l) : Sim (B + C) s (f.bind g) l := by
  obtain ⟨n, hn, hr⟩ := h
  cases f with
  | ended t => exact ⟨n, by omega, hr⟩
  | go t =>
    obtain ⟨m, hm, hr'⟩ := h' t rfl
    exact ⟨n + m, by omega, by rw [run_add n m s _ hr]; exact hr'⟩

theorem Sim.zero (s t : State) (k : State → State) (h : k t = s) : Sim 0 s (.go t) k :=
  ⟨0, Nat.le_refl 0, by rw [run_zero, Flow.go_after, h]⟩

theorem Sim.ended (s : State) (k : State → State) : Sim 0 s (.ended s) k := ⟨0, Nat.le_refl 0, rfl⟩

theorem Sim.mono {B C : Nat} {s : State} {f : Flow} {k : State → State} (h : Sim B s f k) (hB : B ≤ C) : Sim C s f k :=
  let ⟨n, hn, hr⟩ := h
  ⟨n, by omega, hr⟩

theorem Sim.congr {B : Nat} {s : State} {f : Flow} {k l : State → State} (h : Sim B s f k)
    (hk : ∀ t, f = .go t → k t = l t) : Sim B s f l := by
  obtain ⟨n, hn, hr⟩ := h
  refine ⟨n, hn, ?_⟩
  rw [hr]
  cases f with
  | go t => simp [hk t rfl]
  | ended t => rfl

/-! ### One line action -/

theorem raise_at (x : Exn) (s : State) (q : Seq) (hq : q.cmd = s.seq.cmd) : raise x (s.at q) = raise x s := by
  have hteardown : teardownEnd (s.at q) = teardownEnd s := rfl
  cases x <;> simp only [raise, State.at_seq, hq, hteardown] <;> rfl

theorem raise_eq_of_at {x : Exn} {s s' : State} {q : Seq} (h : s' = s.at q) (hq : q.cmd = s.seq.cmd) :
    raise x s' = raise x s := by rw [h, raise_at x s q hq]

theorem perform_at (a : Act) (s : State) (q : Seq) (hq : q.cmd = s.seq.cmd) : a.perform (s.at q) = (a.perform s).at q := by
  have hd : (s.at q).drawAt 0 = s.drawAt 0 := rfl
  cases a <;> simp only [Act.perform, driveClk, driveDio, sampleDio, pauseHalf, pauseFull, hd] <;> try rfl
  all_goals
    cases s.drawAt 0 with
    | ok b => rfl
    | err e => exact congrArg Flow.ended (raise_eq_of_at (q := q) rfl hq)

theorem raise_lineFault_idle (e : ErrVal) (s : State) : (raise (.lineFault e) s).seq = Seq.idle := by
  simp only [raise]
  split <;> rfl

theorem raise_ackTimeout_idle (s : State) : (raise .ackTimeout s).seq = Seq.idle := by
  simp only [raise]
  split <;> rfl

/-- What a line action that succeeds leaves as it was, but for the lines, the trace, the draws and the returned bit. -/
theorem perform_go {a : Act} {s t : State} (h : a.perform s = .go t) :
    t.seq = s.seq ∧ t.sr = s.sr ∧ t.bc = s.bc ∧ t.ac = s.ac ∧ t.pi = s.pi ∧ t.plen = s.plen ∧ t.pb = s.pb ∧
      t.br = s.br ∧ t.fresh = s.fresh ∧ t.cfg = s.cfg := by
  cases a <;> simp only [Act.perform, driveClk, driveDio, sampleDio, pauseHalf, pauseFull] at h
  case waitHalf => cases h; simp
  case waitFull => cases h; simp
  all_goals
    cases hd : s.drawAt 0 with
    | ok b => simp only [hd] at h; cases h; simp
    | err e => simp [hd, Flow.raise] at h

theorem perform_ended {a : Act} {s t : State} (h : a.perform s = .ended t) : t.seq = Seq.idle := by
  cases a <;> simp only [Act.perform, driveClk, driveDio, sampleDio, pauseHalf, pauseFull] at h
  case waitHalf => cases h
  case waitFull => cases h
  all_goals
    cases hd : s.drawAt 0 with
    | ok b => simp [hd] at h
    | err e =>
      simp only [hd, Flow.raise] at h
      cases h
      exact raise_lineFault_idle _ _

theorem exec_instr (a : Act) (s : State) : exec a.instr s = .next (a.perform s).state := by
  cases a <;> rfl

/-- A step of the busy engine: the action `SEQ` names, then the sequencer's move if the command is not over. -/
theorem step_busy {s : State} {a : Act} (hc : s.seq.cmd ≠ .idle) (ha : currentAct s = some a) :
    step s = .next ((a.perform s).after advance) := by
  rw [step, stepEngine, if_neg hc, lineStep, ha]
  simp only [exec_instr, afterAct]
  cases hp : a.perform s with
  | go t => simp [(perform_go hp).1, hc]
  | ended t => simp [perform_ended hp, Seq.idle]

theorem sim_act {s : State} {q : Seq} {a : Act} (hq : q.cmd = s.seq.cmd) (hc : q.cmd ≠ .idle)
    (ha : currentAct (s.at q) = some a) : Sim 1 (s.at q) (a.perform s) fun t => advance (t.at q) := by
  refine ⟨1, Nat.le_refl 1, ?_⟩
  rw [run_step (step_busy hc ha), run_zero, perform_at a s q hq]
  cases a.perform s <;> rfl

/-! ### The table routines -/

/-- A routine whose table is `L` and in which the sequencer counts the steps: from step `j` on it performs the rest of
the table, and then stands at its last step. -/
theorem sim_table {L : List Act} {q : Seq} (hc : q.cmd ≠ .idle)
    (hact : ∀ (s : State) j, currentAct (s.at { q with step := j }) = L[j]?)
    (hadv : ∀ (s : State) j, j + 1 < L.length →
      advance (s.at { q with step := j }) = s.at { q with step := j + 1 }) :
    ∀ (n j : Nat) (s : State), j + n + 1 = L.length → q.cmd = s.seq.cmd →
      Sim (n + 1) (s.at { q with step := j }) (performAll (L.drop j) s)
        fun t => advance (t.at { q with step := L.length - 1 }) := by
  intro n
  induction n with
  | zero =>
    intro j s hj hs
    have hlt : j < L.length := by omega
    have hdrop : L.drop j = [L[j]] := by
      rw [List.drop_eq_getElem_cons hlt, List.drop_eq_nil_of_le (by omega)]
    rw [hdrop, performAll, show L.length - 1 = j by omega]
    have h1 := sim_act (s := s) (q := { q with step := j }) (a := L[j]) hs hc (by rw [hact, List.getElem?_eq_getElem hlt])
    refine (Sim.bind (C := 0) h1 fun t ht => ?_)
    rw [performAll]
    exact Sim.zero _ _ _ rfl
  | succ n ih =>
    intro j s hj hs
    have hlt : j < L.length := by omega
    rw [List.drop_eq_getElem_cons hlt, performAll, Nat.add_comm (n + 1) 1]
    have h1 := sim_act (s := s) (q := { q with step := j }) (a := L[j]) hs hc (by rw [hact, List.getElem?_eq_getElem hlt])
    refine Sim.bind h1 fun t ht => ?_
    rw [hadv t j (by omega)]
    exact ih (j + 1) t (by omega) (by rw [(perform_go ht).1]; exact hs)

theorem sim_start {q : Seq} {s : State} (hc : q.cmd ≠ .idle) (hs : q.cmd = s.seq.cmd) (hr : q.rt = .start) (h0 : q.step = 0) :
    Sim 7 (s.at q) (startCondition s) fun t => afterStart (t.at { q with step := 6 }) := by
  have h := sim_table (L := startActs) (q := q) hc (fun s j => by simp [currentAct, hr]) (fun s j hj => by
    have : j < 6 := by simp [startActs] at hj; omega
    simp [advance, hr, this, State.atStep, State.at]) 6 0 s rfl hs
  have hq : ({ q with step := 0 } : Seq) = q := by cases q; simp_all
  rw [hq] at h
  refine h.congr fun t _ => ?_
  simp [advance, hr, startActs]

theorem sim_stop {q : Seq} {s : State} (hc : q.cmd ≠ .idle) (hs : q.cmd = s.seq.cmd) (hr : q.rt = .stop) (h0 : q.step = 0) :
    Sim 8 (s.at q) (stopCondition s) fun t => afterStop (t.at { q with step := 7 }) := by
  have h := sim_table (L := stopActs) (q := q) hc (fun s j => by simp [currentAct, hr]) (fun s j hj => by
    have : j < 7 := by simp [stopActs] at hj; omega
    simp [advance, hr, this, State.atStep, State.at]) 7 0 s rfl hs
  have hq : ({ q with step := 0 } : Seq) = q := by cases q; simp_all
  rw [hq] at h
  refine h.congr fun t _ => ?_
  simp [advance, hr, stopActs]

theorem sim_init {q : Seq} {s : State} (hc : q.cmd ≠ .idle) (hs : q.cmd = s.seq.cmd) (hr : q.rt = .initSeq) (h0 : q.step = 0) :
    Sim 3 (s.at q) (performAll initActs s) fun t => finishCommand (t.at { q with step := 2 }) := by
  have h := sim_table (L := initActs) (q := q) hc (fun s j => by simp [currentAct, hr]) (fun s j hj => by
    have : j < 2 := by simp [initActs] at hj; omega
    simp [advance, hr, this, State.atStep, State.at]) 2 0 s rfl hs
  have hq : ({ q with step := 0 } : Seq) = q := by cases q; simp_all
  rw [hq] at h
  refine h.congr fun t _ => ?_
  simp [advance, hr, initActs]

/-! ### SEND_BYTE and WAIT_ACK -/

theorem currentAct_byte {q : Seq} (hr : q.rt = .sendByte) (s : State) (j : Nat) :
    currentAct (s.at { q with step := j }) = byteAct (s.sr.getLsbD 0) j := by
  simp [currentAct, hr, State.at]

theorem byteAct_cell (b : Bool) (i k : Nat) (hi : i < 8) (hk : k < 6) :
    byteAct b (6 * i + k) = (cellActs b)[k]? := by
  simp only [byteAct]
  rw [if_pos (by omega), show (6 * i + k) % 6 = k by omega]

/-- One bit cell: six steps. -/
theorem sim_cell {q : Seq} {s : State} (hc : q.cmd ≠ .idle) (hs : q.cmd = s.seq.cmd) (hr : q.rt = .sendByte)
    {i : Nat} (hi : i < 8) :
    Sim 6 (s.at { q with step := 6 * i })
      ((performAll (cellActs (s.sr.getLsbD 0)) s).bind fun s => .go (shiftOut s))
      fun t => t.at { q with step := 6 * (i + 1) } := by
  obtain ⟨b, hb⟩ : ∃ b, s.sr.getLsbD 0 = b := ⟨_, rfl⟩
  have hcell : ∀ (n k : Nat) (t : State), k + n + 1 = 6 → t.sr.getLsbD 0 = b → q.cmd = t.seq.cmd →
      Sim (n + 1) (t.at { q with step := 6 * i + k })
        ((performAll ((cellActs b).drop k) t).bind fun s => .go (shiftOut s))
        fun t => t.at { q with step := 6 * (i + 1) } := by
    intro n
    induction n with
    | zero =>
      intro k t hk htb htc
      obtain rfl : k = 5 := by omega
      have h1 := sim_act (s := t) (q := { q with step := 6 * i + 5 }) (a := .waitHalf) htc hc (by
        rw [currentAct_byte hr, htb, byteAct_cell b i 5 hi (by omega)]; rfl)
      have hdrop : (cellActs b).drop 5 = [.waitHalf] := rfl
      rw [hdrop, performAll]
      have hbind : ((Act.perform .waitHalf t).bind (performAll [])).bind (fun s => Flow.go (shiftOut s)) =
          (Act.perform .waitHalf t).bind fun s => Flow.go (shiftOut s) := by
        rw [Flow.bind_assoc]; rfl
      rw [hbind]
      refine Sim.bind (C := 0) h1 fun u hu => Sim.zero _ _ _ ?_
      have h48 : 6 * i + 5 < 48 := by omega
      have h6 : (6 * i + 5) % 6 = 5 := by omega
      simp only [advance, State.at_seq, hr, if_pos h48, if_pos h6]
      rw [show 6 * (i + 1) = 6 * i + 5 + 1 by omega]
      rfl
    | succ n ih =>
      intro k t hk htb htc
      have hklt : k < (cellActs b).length := by simp [cellActs]; omega
      have hact : currentAct (t.at { q with step := 6 * i + k }) = some ((cellActs b)[k]) := by
        rw [currentAct_byte hr, htb, byteAct_cell b i k hi (by omega), List.getElem?_eq_getElem hklt]
      have h1 := sim_act (s := t) (q := { q with step := 6 * i + k }) htc hc hact
      rw [List.drop_eq_getElem_cons hklt, performAll, Flow.bind_assoc, Nat.add_comm (n + 1) 1]
      refine Sim.bind h1 fun u hu => ?_
      have hp := perform_go hu
      have hadv : advance (u.at { q with step := 6 * i + k }) = u.at { q with step := 6 * i + (k + 1) } := by
        have h48 : 6 * i + k < 48 := by omega
        have h6 : ¬ (6 * i + k) % 6 = 5 := by omega
        simp only [advance, State.at_seq, hr, if_pos h48, if_neg h6]
        rfl
      rw [hadv]
      exact ih (k + 1) u (by omega) (by rw [hp.2.1]; exact htb) (by rw [hp.1]; exact htc)
  rw [hb]
  exact hcell 5 0 s rfl hb hs

/-- A piece that leaves the command in progress as it is. -/
theorem performAll_go {as : List Act} {s t : State} (h : performAll as s = .go t) :
    t.seq = s.seq ∧ t.sr = s.sr ∧ t.bc = s.bc ∧ t.ac = s.ac ∧ t.pi = s.pi ∧ t.plen = s.plen ∧ t.pb = s.pb ∧
      t.br = s.br ∧ t.fresh = s.fresh ∧ t.cfg = s.cfg := by
  induction as generalizing s with
  | nil => cases h; simp
  | cons a as ih =>
    rw [performAll] at h
    cases hp : a.perform s with
    | ended u => rw [hp] at h; cases h
    | go u =>
      rw [hp, Flow.go_bind] at h
      have h1 := perform_go hp
      have h2 := ih h
      simp_all

/-- The bit loop: six steps a bit. -/
theorem sim_bits {q : Seq} (hc : q.cmd ≠ .idle) (hr : q.rt = .sendByte) :
    ∀ (n i : Nat) (s : State), i + n = 8 → q.cmd = s.seq.cmd →
      Sim (6 * n) (s.at { q with step := 6 * i }) (sendBits n s) fun t => t.at { q with step := 48 } := by
  intro n
  induction n with
  | zero =>
    intro i s hi hs
    obtain rfl : i = 8 := by omega
    exact Sim.zero _ _ _ rfl
  | succ n ih =>
    intro i s hi hs
    have hb : sendBits (n + 1) s =
        ((performAll (cellActs (s.sr.getLsbD 0)) s).bind fun s => .go (shiftOut s)).bind (sendBits n) := by
      rw [Flow.bind_assoc]; rfl
    rw [hb, show 6 * (n + 1) = 6 + 6 * n by omega]
    refine Sim.bind (sim_cell hc hs hr (by omega)) fun t ht => ih (i + 1) t (by omega) ?_
    cases hp : performAll (cellActs (s.sr.getLsbD 0)) s with
    | ended u => rw [hp] at ht; cases ht
    | go u =>
      rw [hp, Flow.go_bind] at ht
      cases ht
      rw [shiftOut_seq, (performAll_go hp).1]
      exact hs

theorem currentAct_ack {q : Seq} (hr : q.rt = .waitAck) (s : State) (j : Nat) :
    currentAct (s.at { q with step := j }) = ackAct j := by
  simp [currentAct, hr, State.at]

/-- What follows a low sample: four steps. -/
theorem sim_ack {q : Seq} {s : State} (hc : q.cmd ≠ .idle) (hs : q.cmd = s.seq.cmd) (hr : q.rt = .waitAck) :
    Sim 4 (s.at { q with step := 2 }) (performAll ackActs s) fun t => t.at { q with rt := .sendByte, step := 49 } := by
  have one : ∀ (a : Act) (j : Nat) (t : State), ackAct j = some a → q.cmd = t.seq.cmd →
      Sim 1 (t.at { q with step := j }) (a.perform t) fun u => advance (u.at { q with step := j }) :=
    fun a j t ha htc => sim_act (q := { q with step := j }) htc hc (by rw [currentAct_ack hr, ha])
  have next : ∀ (j : Nat) (t : State), 2 ≤ j → j < 5 →
      advance (t.at { q with step := j }) = t.at { q with step := j + 1 } := by
    intro j t h2 h5
    simp only [advance, State.at_seq, hr, if_neg (show ¬ j = 0 by omega), if_neg (show ¬ j = 1 by omega), if_pos h5]
    rfl
  rw [ackActs, performAll]
  refine Sim.bind (C := 3) (one .waitFull 2 s rfl hs) fun t ht => ?_
  have h1 : q.cmd = t.seq.cmd := by rw [(perform_go ht).1, hs]
  rw [next 2 t (by omega) (by omega), performAll]
  refine Sim.bind (C := 2) (one .clkHi 3 t rfl h1) fun u hu => ?_
  have h2 : q.cmd = u.seq.cmd := by rw [(perform_go hu).1, h1]
  rw [next 3 u (by omega) (by omega), performAll]
  refine Sim.bind (C := 1) (one .waitFull 4 u rfl h2) fun v hv => ?_
  have h3 : q.cmd = v.seq.cmd := by rw [(perform_go hv).1, h2]
  rw [next 4 v (by omega) (by omega), performAll]
  refine Sim.bind (C := 0) (one .clkLo 5 v rfl h3) fun w hw => Sim.zero _ _ _ ?_
  simp only [advance, State.at_seq, hr, if_neg (show ¬ (5 : Nat) = 0 by omega), if_neg (show ¬ (5 : Nat) = 1 by omega),
    if_neg (show ¬ (5 : Nat) < 5 by omega)]
  rfl

theorem sampleDio_go {s t : State} (h : sampleDio s = .go t) : ∃ b, t.ret = .bit b := by
  simp only [sampleDio] at h
  cases hd : s.drawAt 0 with
  | ok b => simp only [hd] at h; cases h; exact ⟨b, rfl⟩
  | err e => simp [hd, Flow.raise] at h

theorem poll_advance {q : Seq} {b : Bool} {t : State} (hr : q.rt = .waitAck) (hb : t.ret = .bit b) :
    advance (t.at { q with step := 0 }) = (countSample t).at { q with step := if b then 1 else 2 } := by
  simp only [advance, State.at_seq, State.at_ret, hr, hb, if_true]
  cases b <;> rfl

theorem poll_again {q : Seq} {u : State} (hr : q.rt = .waitAck) (h : u.ac ≠ 255) :
    advance (u.at { q with step := 1 }) = u.at { q with step := 0 } := by
  simp only [advance, State.at_seq, State.at_ac, hr, if_neg (show ¬ (1 : Nat) = 0 by omega), if_true, if_neg h]
  rfl

theorem poll_over {q : Seq} {u : State} (hr : q.rt = .waitAck) (hq : q.cmd = u.seq.cmd) (h : u.ac = 255) :
    advance (u.at { q with step := 1 }) = raise .ackTimeout u := by
  rw [← raise_at .ackTimeout u { q with step := 1 } hq]
  simp only [advance, State.at_seq, State.at_ac, hr, if_neg (show ¬ (1 : Nat) = 0 by omega), if_true, if_pos h]

/-- The poll: at most two steps a sample, and four to close the window. -/
theorem sim_poll {q : Seq} (hc : q.cmd ≠ .idle) (hr : q.rt = .waitAck) :
    ∀ (left : Nat) (s : State), left + 1 + s.ac.toNat = 255 → q.cmd = s.seq.cmd →
      Sim (2 * left + 5) (s.at { q with step := 0 }) (poll (left + 1) s)
        fun t => t.at { q with rt := .sendByte, step := 49 } := by
  intro left
  induction left with
  | zero =>
    intro s hac hs
    rw [poll]
    refine Sim.bind (B := 1) (C := 4)
      (sim_act (a := .dioSample) (q := { q with step := 0 }) hs hc (by rw [currentAct_ack hr]; rfl)) fun t ht => ?_
    obtain ⟨b, hb⟩ := sampleDio_go ht
    have hp := perform_go (a := .dioSample) ht
    have htc : q.cmd = t.seq.cmd := by rw [hp.1, hs]
    rw [poll_advance hr hb]
    cases b with
    | false =>
      simp only [countSample_ret, hb, Ret.bit.injEq, Bool.false_eq_true, if_false]
      exact sim_ack hc htc hr
    | true =>
      simp only [countSample_ret, hb, if_true]
      refine Sim.mono (B := 1 + 0) (Sim.bind
        (sim_act (a := .waitFull) (q := { q with step := 1 }) (s := countSample t) htc hc
        (by rw [currentAct_ack hr]; rfl)) fun u hu => ?_) (by omega)
      have hu' := perform_go (a := .waitFull) hu
      have huc : q.cmd = u.seq.cmd := by rw [hu'.1]; exact htc
      rw [poll_over hr huc]
      · exact Sim.ended _ _
      · rw [hu'.2.2.2.1, countSample_ac, hp.2.2.2.1]
        apply BitVec.eq_of_toNat_eq
        simp; omega
  | succ left ih =>
    intro s hac hs
    rw [poll]
    refine Sim.mono (B := 1 + (2 * left + 6)) (Sim.bind
      (sim_act (a := .dioSample) (q := { q with step := 0 }) hs hc (by rw [currentAct_ack hr]; rfl)) fun t ht => ?_) (by omega)
    obtain ⟨b, hb⟩ := sampleDio_go ht
    have hp := perform_go (a := .dioSample) ht
    have htc : q.cmd = t.seq.cmd := by rw [hp.1, hs]
    rw [poll_advance hr hb]
    cases b with
    | false =>
      simp only [countSample_ret, hb, Ret.bit.injEq, Bool.false_eq_true, if_false]
      exact Sim.mono (sim_ack hc htc hr) (by omega)
    | true =>
      simp only [countSample_ret, hb, if_true]
      refine Sim.mono (B := 1 + (2 * left + 5)) (Sim.bind
        (sim_act (a := .waitFull) (q := { q with step := 1 }) (s := countSample t) htc hc
        (by rw [currentAct_ack hr]; rfl)) fun u hu => ?_) (by omega)
      have hu' := perform_go (a := .waitFull) hu
      have huc : q.cmd = u.seq.cmd := by rw [hu'.1]; exact htc
      have hac' : u.ac.toNat = s.ac.toNat + 1 := by
        rw [hu'.2.2.2.1, countSample_ac, hp.2.2.2.1]
        simp; omega
      rw [poll_again hr]
      · exact ih u (by omega) huc
      · intro h
        rw [h] at hac'
        have : (255 : Byte).toNat = 255 := rfl
        omega

theorem sendBits_go {n : Nat} {s t : State} (h : sendBits n s = .go t) :
    t.seq = s.seq ∧ t.pi = s.pi ∧ t.plen = s.plen ∧ t.pb = s.pb ∧ t.br = s.br ∧ t.fresh = s.fresh ∧ t.cfg = s.cfg := by
  induction n generalizing s with
  | zero => cases h; simp
  | succ n ih =>
    rw [sendBits] at h
    cases hp : performAll (cellActs (s.sr.getLsbD 0)) s with
    | ended u => rw [hp] at h; cases h
    | go u =>
      rw [hp, Flow.go_bind] at h
      have h1 := performAll_go hp
      have h2 := ih h
      simp_all

theorem poll_go {n : Nat} {s t : State} (h : poll n s = .go t) :
    t.seq = s.seq ∧ t.pi = s.pi ∧ t.plen = s.plen ∧ t.pb = s.pb ∧ t.br = s.br ∧ t.fresh = s.fresh ∧ t.cfg = s.cfg := by
  induction n generalizing s with
  | zero => cases h
  | succ n ih =>
    rw [poll] at h
    cases hd : sampleDio s with
    | ended u => rw [hd] at h; cases h
    | go u =>
      have h1 := perform_go (a := .dioSample) hd
      rw [hd, Flow.go_bind] at h
      dsimp only at h
      split at h
      · have h2 := ih (s := (countSample u).logTok .wf) h
        simp_all
      · have h2 := performAll_go h
        simp_all

theorem Flow.bind_go {f : Flow} {g : State → Flow} {t : State} (h : f.bind g = .go t) :
    ∃ u, f = .go u ∧ g u = .go t := by
  cases f with
  | go u => exact ⟨u, rfl, h⟩
  | ended u => cases h

/-- What a byte slot that succeeds leaves as it was, of what the framing reads. -/
theorem sendByte_go {v : Byte} {s t : State} (h : sendByte v s = .go t) :
    t.seq = s.seq ∧ t.pi = s.pi ∧ t.plen = s.plen ∧ t.pb = s.pb ∧ t.br = s.br ∧ t.fresh = s.fresh ∧ t.cfg = s.cfg := by
  obtain ⟨u1, h1, h⟩ := Flow.bind_go h
  obtain ⟨u2, h2, h⟩ := Flow.bind_go h
  obtain ⟨u3, h3, h⟩ := Flow.bind_go h
  have h1 := sendBits_go h1
  have h2 := perform_go (a := .dioHi) h2
  have h3 := poll_go h3
  cases h
  simp_all

/-- A byte slot: at most 563 steps (70_reset_and_hazards.md R284). -/
theorem sim_byte {c : CmdName} {p : Phase} {b : Bool} {s : State} {v : Byte} (hc : c ≠ .idle) (hs : c = s.seq.cmd) :
    Sim 563 ((loadByte v s).at ⟨c, p, .sendByte, 0, b⟩) (sendByte v s) fun t => afterByte (t.at ⟨c, p, .sendByte, 49, b⟩) := by
  refine Sim.bind (B := 48) (C := 515) (sim_bits (q := ⟨c, p, .sendByte, 0, b⟩) hc rfl 8 0 (loadByte v s) rfl hs)
    fun t ht => ?_
  have htc : c = t.seq.cmd := by rw [(sendBits_go ht).1]; exact hs
  refine Sim.bind (B := 1) (C := 514) (sim_act (a := .dioHi) (q := ⟨c, p, .sendByte, 48, b⟩) htc hc rfl) fun u hu => ?_
  have huc : c = u.seq.cmd := by rw [(perform_go (a := .dioHi) hu).1]; exact htc
  refine Sim.bind (B := 513) (C := 1) (sim_poll (q := ⟨c, p, .waitAck, 0, b⟩) hc rfl 254 (clearPoll u) rfl huc)
    fun w hw => ?_
  have hwc : c = w.seq.cmd := by rw [(poll_go hw).1]; exact huc
  exact sim_act (a := .waitHalf) (q := ⟨c, p, .sendByte, 49, b⟩) hwc hc rfl

/-! ### Transmissions and frames -/

theorem performAll_start_go {s t : State} (h : startCondition s = .go t) :
    t.seq = s.seq ∧ t.pi = s.pi ∧ t.plen = s.plen ∧ t.pb = s.pb ∧ t.br = s.br ∧ t.fresh = s.fresh ∧ t.cfg = s.cfg := by
  have := performAll_go h
  simp_all

theorem stopCondition_go {s t : State} (h : stopCondition s = .go t) :
    t.seq = s.seq ∧ t.pi = s.pi ∧ t.plen = s.plen ∧ t.pb = s.pb ∧ t.br = s.br ∧ t.fresh = s.fresh ∧ t.cfg = s.cfg := by
  have := performAll_go h
  simp_all

/-- A transmission of the one byte of phase (a) or (c): at most 578 steps. -/
theorem sim_transmission {c : CmdName} {p : Phase} {s : State} {v : Byte} (hc : c ≠ .idle) (hs : c = s.seq.cmd)
    (hp : p ≠ .b)
    (hv : ∀ t : State, t.br = s.br → t.cfg = s.cfg → afterStart (t.at ⟨c, p, .start, 6, false⟩) =
      (loadByte v t).at ⟨c, p, .sendByte, 0, false⟩) :
    Sim 578 (s.at ⟨c, p, .start, 0, false⟩)
      ((startCondition s).bind fun s => (sendByte v s).bind stopCondition)
      fun t => afterStop (t.at ⟨c, p, .stop, 7, false⟩) := by
  refine Sim.bind (B := 7) (C := 571) (sim_start (q := ⟨c, p, .start, 0, false⟩) hc hs rfl rfl) fun t ht => ?_
  have ht' := performAll_start_go ht
  have htc : c = t.seq.cmd := by rw [ht'.1]; exact hs
  rw [show afterStart (t.at ⟨c, p, .start, 6, false⟩) = _ from hv t ht'.2.2.2.2.1 ht'.2.2.2.2.2.2]
  refine Sim.bind (B := 563) (C := 8) (sim_byte hc htc) fun u hu => ?_
  have huc : c = u.seq.cmd := by rw [(sendByte_go hu).1]; exact htc
  have hb : afterByte (u.at ⟨c, p, .sendByte, 49, false⟩) = u.at ⟨c, p, .stop, 0, false⟩ := by
    cases p
    case b => exact absurd rfl hp
    all_goals rfl
  rw [hb]
  exact sim_stop (q := ⟨c, p, .stop, 0, false⟩) hc huc rfl rfl

/-- Phase (c): at most 578 steps (43_framing.md R191). -/
theorem sim_phaseC {c : CmdName} {s : State} {v : Byte} (hc : c ≠ .idle) (hs : c = s.seq.cmd)
    (hv : ∀ t : State, t.br = s.br → t.cfg = s.cfg → controlByte (t.at ⟨c, .c, .start, 6, false⟩) = v) :
    Sim 578 (s.at ⟨c, .c, .start, 0, false⟩) (phaseC v s) fun t => afterStop (t.at ⟨c, .c, .stop, 7, false⟩) := by
  refine sim_transmission (s := s.inPhase .c) hc hs (by decide) fun t ht hcf => ?_
  change enterByte (controlByte (t.at ⟨c, .c, .start, 6, false⟩)) (t.at ⟨c, .c, .start, 6, false⟩) = _
  rw [hv t ht hcf]
  rfl

/-- The payload loop: at most 563 steps a byte (43_framing.md R190). -/
theorem sim_payload {c : CmdName} (hc : c ≠ .idle) (left : Nat) :
    ∀ (s : State) (b : Bool), c = s.seq.cmd → s.pi.toNat + left = s.plen.toNat →
      Sim (563 * left) (payloadHead (s.at ⟨c, .b, .sendByte, 49, b⟩)) (sendPayload left s)
        fun t => t.at ⟨c, .b, .stop, 0, false⟩ := by
  induction left with
  | zero =>
    intro s b hs hl
    have he : s.pi = s.plen := BitVec.eq_of_toNat_eq (by omega)
    have : payloadHead (s.at ⟨c, .b, .sendByte, 49, b⟩) = s.at ⟨c, .b, .stop, 0, false⟩ := by
      exact if_pos he
    rw [this]
    exact Sim.zero _ _ _ rfl
  | succ left ih =>
    intro s b hs hl
    have he : ¬ s.pi = s.plen := by intro h; rw [h] at hl; omega
    have hhead : payloadHead (s.at ⟨c, .b, .sendByte, 49, b⟩) =
        (loadByte (s.pbAt s.pi.toNat) s).at ⟨c, .b, .sendByte, 0, true⟩ := by
      exact if_neg he
    rw [hhead, sendPayload, show 563 * (left + 1) = 563 + 563 * left by omega]
    refine Sim.bind (sim_byte hc hs) fun t ht => ?_
    have ht' := sendByte_go ht
    have htc : c = t.seq.cmd := by rw [ht'.1]; exact hs
    refine ih (nextIndex t) true htc ?_
    rw [nextIndex_pi, nextIndex_plen, ht'.2.1, ht'.2.2.1]
    have := s.plen.isLt
    have h1 : BitVec.toNat (1 : BitVec 4) = 1 := rfl
    rw [BitVec.toNat_add, h1, Nat.mod_eq_of_lt (by omega)]
    omega

theorem sendPayload_go {n : Nat} {s t : State} (h : sendPayload n s = .go t) :
    t.seq = s.seq ∧ t.plen = s.plen ∧ t.pb = s.pb ∧ t.br = s.br ∧ t.fresh = s.fresh ∧ t.cfg = s.cfg := by
  induction n generalizing s with
  | zero => cases h; simp
  | succ n ih =>
    obtain ⟨u, hu, h⟩ := Flow.bind_go h
    have h1 := sendByte_go hu
    have h2 := ih h
    simp_all

/-- A frame: at most 3986 steps at `PAYLOAD_MAX = 4` (43_framing.md R190; 70_reset_and_hazards.md R284). -/
theorem sim_frame {c : CmdName} {s : State} (hc : c = .sendBytes ∨ c = .sendDigits ∨ c = .sendNumber)
    (hs : c = s.seq.cmd) {n : Nat} (hl : s.plen.toNat ≤ n) :
    Sim (1734 + 563 * n) (s.at ⟨c, .a, .start, 0, false⟩) (frame s) fun t => afterStop (t.at ⟨c, .c, .stop, 7, false⟩) := by
  have hne : c ≠ .idle := by rcases hc with rfl | rfl | rfl <;> decide
  have hctrl : ∀ t : State, ∀ q : Seq, q.cmd = c → controlByte (t.at q) = ctrl t.cfg t.br := by
    intro t q hq
    rw [controlByte, State.at_seq, hq]
    rcases hc with rfl | rfl | rfl <;> rfl
  rw [frame_eq]
  refine Sim.mono (B := 578 + (7 + (563 + (563 * s.plen.toNat + (8 + 578))))) ?_ (by omega)
  refine Sim.bind (sim_transmission (s := s.inPhase .a) hne hs (by decide) fun t _ hcf => by
    rw [← show t.cfg = s.cfg from hcf]; rfl) fun t ht => ?_
  obtain ⟨u1, h1, ht⟩ := Flow.bind_go ht
  obtain ⟨u2, h2, h3⟩ := Flow.bind_go ht
  have h1 := performAll_start_go h1
  have h2 := sendByte_go h2
  have h3 := stopCondition_go h3
  have htc : c = t.seq.cmd := by rw [h3.1, h2.1, h1.1]; exact hs
  have htl : t.plen = s.plen := by rw [h3.2.2.1, h2.2.2.1, h1.2.2.1]; rfl
  change Sim _ (t.at ⟨c, .b, .start, 0, false⟩) _ _
  refine Sim.bind (sim_start (s := t.inPhase .b) (q := ⟨c, .b, .start, 0, false⟩) hne htc rfl rfl) fun u hu => ?_
  have hu' := performAll_start_go hu
  have huc : c = u.seq.cmd := by rw [hu'.1]; exact htc
  have hul : u.plen = s.plen := by rw [hu'.2.2.1]; exact htl
  have huf : t.cfg = u.cfg := hu'.2.2.2.2.2.2.symm
  rw [huf]
  change Sim _ ((loadByte u.cfg.addrCmd u).at ⟨c, .b, .sendByte, 0, false⟩) _ _
  refine Sim.bind (sim_byte hne huc) fun x hx => ?_
  have hx' := sendByte_go hx
  have hxc : c = (clearIndex x).seq.cmd := by rw [clearIndex_seq, hx'.1]; exact huc
  have hxl : x.plen = s.plen := by rw [hx'.2.2.1]; exact hul
  change Sim _ (payloadHead ((clearIndex x).at ⟨c, .b, .sendByte, 49, false⟩)) _ _
  rw [← hxl]
  refine Sim.bind (sim_payload hne x.plen.toNat (clearIndex x) false hxc (by simp)) fun y hy => ?_
  have hy' := sendPayload_go hy
  have hyc : c = y.seq.cmd := by rw [hy'.1]; exact hxc
  refine Sim.bind (sim_stop (q := ⟨c, .b, .stop, 0, false⟩) hne hyc rfl rfl) fun z hz => ?_
  have hz' := stopCondition_go hz
  have hzc : c = z.seq.cmd := by rw [hz'.1]; exact hyc
  change Sim _ (z.at ⟨c, .c, .start, 0, false⟩) _ _
  exact sim_phaseC hne hzc fun t ht hcf => by rw [hctrl t _ rfl, ht, hcf]

/-! ### Commands -/

theorem finishCommand_at (s : State) (q : Seq) (hc : q.cmd ≠ .idle) (hq : q.cmd = s.seq.cmd) :
    finishCommand (s.at q) = finishCommand s := by
  simp only [finishCommand, State.at_seq, hq]
  cases h : s.seq.cmd
  case idle => exact absurd h (hq ▸ hc)
  all_goals rfl

theorem finish_after (f : Flow) : (f.bind finish).state = f.after finishCommand := by cases f <;> rfl

/-- A host command accepted from the idle engine reaches, in at most 3987 steps at `PAYLOAD_MAX = 4`, what its meaning leaves. -/
def Completes (s : State) (w : HostWord) (rest : List HostWord) : Prop :=
  ∃ n, n ≤ 46 + (3 + s.cfg.payloadMax) * 563 ∧ ∀ t, exec (decodeHost (s.cfg.onPort w)) (s.capture (s.cfg.onPort w) rest) = .next t → Host.Core.run core n s = .next t

theorem step_accept {s : State} {w : HostWord} {rest : List HostWord} {f : Flow} (hi : s.seq.cmd = .idle)
    (hh : s.host = w :: rest)
    (hb : beginCommand (decodeHost (s.cfg.onPort w)) (s.capture (s.cfg.onPort w) rest) = some f) :
    step s = .next f.state := by
  simp only [step, stepEngine, if_pos hi, acceptStep, hh, hb]

/-- A command in its begun state, its body and its end. -/
theorem completes_of {s : State} {w : HostWord} {rest : List HostWord} {f : Flow} {body : State → Flow} {B : Nat}
    (hi : s.seq.cmd = .idle) (hh : s.host = w :: rest)
    (hb : beginCommand (decodeHost (s.cfg.onPort w)) (s.capture (s.cfg.onPort w) rest) = some f)
    (hB : B ≤ 45 + (3 + s.cfg.payloadMax) * 563)
    (hx : exec (decodeHost (s.cfg.onPort w)) (s.capture (s.cfg.onPort w) rest) = .next ((f.bind body).bind finish).state)
    (hgo : ∀ u, f = .go u → Sim B u (body u) finishCommand) : Completes s w rest := by
  have hstep := step_accept hi hh hb
  cases f with
  | ended u =>
    refine ⟨1, by omega, fun t ht => ?_⟩
    rw [hx] at ht
    cases ht
    rw [run_step hstep, run_zero]
    rfl
  | go u =>
    obtain ⟨n, hn, hr⟩ := hgo u rfl
    refine ⟨n + 1, by omega, fun t ht => ?_⟩
    rw [hx] at ht
    cases ht
    rw [run_step hstep, Flow.go_state, hr, Flow.go_bind, finish_after]

theorem loadPayload_plen_le (bs : List Byte) (s : State) {n : Nat} (h : bs.length ≤ n) :
    (loadPayload bs s).plen.toNat ≤ n := by
  change (BitVec.ofNat 4 bs.length).toNat ≤ n
  rw [BitVec.toNat_ofNat]
  exact (Nat.mod_le _ _).trans h

theorem requireLive_go {s u : State} {k : State → Flow} (h : requireLive s k = .go u) : k s = .go u := by
  rw [requireLive] at h
  split at h
  · exact h
  · cases h

theorem beginSendBytes_go {len : BitVec 4} {arg : HostArg} {s u : State} (h : beginSendBytes len arg s = .go u) :
    u.seq = ⟨.sendBytes, .a, .start, 0, false⟩ ∧ u.plen.toNat ≤ s.cfg.payloadMax := by
  have h := requireLive_go h
  split at h
  · cases h
  · cases h
    rename_i hl
    exact ⟨rfl, loadPayload_plen_le _ s (by simpa [items] using hl)⟩

theorem digitsOf_length {bs : List Byte} {ds : List Digit} (h : digitsOf bs = some ds) : ds.length = bs.length := by
  induction bs generalizing ds with
  | nil => cases h; rfl
  | cons b bs ih =>
    rw [digitsOf] at h
    split at h
    · rename_i d ds' h1 h2
      cases h
      simp [ih h2]
    · cases h

theorem beginSendDigits_go {bit : Bool} {len : BitVec 4} {arg : HostArg} {s u : State}
    (h : beginSendDigits bit len arg s = .go u) :
    u.seq = ⟨.sendDigits, .a, .start, 0, false⟩ ∧ u.plen.toNat ≤ s.cfg.payloadMax := by
  have h := requireLive_go h
  split at h
  · cases h
  · rename_i hl
    split at h
    · cases h
    · rename_i ds hd
      cases h
      exact ⟨rfl, loadPayload_plen_le _ s (by simp only [enc, List.length_map, digitsOf_length hd]; simpa [items] using hl)⟩

theorem beginSendNumber_go {v : Word32} {s u : State} (h : beginSendNumber v s = .go u) :
    u.seq = ⟨.sendNumber, .a, .start, 0, false⟩ ∧ u.plen.toNat ≤ s.cfg.payloadMax := by
  have h := requireLive_go h
  split at h
  · cases h
  · cases h
    rename_i hl
    exact ⟨rfl, loadPayload_plen_le _ s (by simpa using hl)⟩

theorem sim_send {c : CmdName} {u : State} {n : Nat} (hc : c = .sendBytes ∨ c = .sendDigits ∨ c = .sendNumber)
    (hu : u.seq = ⟨c, .a, .start, 0, false⟩ ∧ u.plen.toNat ≤ n) : Sim (1734 + 563 * n) u (frame u) finishCommand := by
  have hcu : c = u.seq.cmd := by rw [hu.1]
  have hne : c ≠ .idle := by rcases hc with rfl | rfl | rfl <;> decide
  have hself : u.at ⟨c, .a, .start, 0, false⟩ = u := by rw [← hu.1]; rfl
  have h := sim_frame hc hcu hu.2
  rw [hself] at h
  refine h.congr fun t ht => ?_
  have htc : c = t.seq.cmd := by
    rw [hcu]
    simp only [frame] at ht
    obtain ⟨u1, h1, ht⟩ := Flow.bind_go ht
    obtain ⟨u2, h2, ht⟩ := Flow.bind_go ht
    obtain ⟨u3, h3, ht⟩ := Flow.bind_go ht
    obtain ⟨u4, h4, ht⟩ := Flow.bind_go ht
    obtain ⟨u5, h5, ht⟩ := Flow.bind_go ht
    obtain ⟨u6, h6, ht⟩ := Flow.bind_go ht
    obtain ⟨u7, h7, ht⟩ := Flow.bind_go ht
    obtain ⟨u8, h8, ht⟩ := Flow.bind_go ht
    obtain ⟨u9, h9, ht⟩ := Flow.bind_go ht
    rw [(stopCondition_go ht).1, (sendByte_go h9).1, (performAll_start_go h8).1]
    simp only [State.inPhase_seq]
    rw [(stopCondition_go h7).1, (sendPayload_go h6).1, clearIndex_seq, (sendByte_go h5).1, (performAll_start_go h4).1]
    simp only [State.inPhase_seq]
    rw [(stopCondition_go h3).1, (sendByte_go h2).1, (performAll_start_go h1).1]
    simp only [State.inPhase_seq]
  exact finishCommand_at t _ hne htc

theorem sim_control {c : CmdName} {u : State} {v : Byte} (hne : c ≠ .idle)
    (hu : u.seq = ⟨c, .c, .start, 0, false⟩)
    (hv : ∀ t : State, t.br = u.br → t.cfg = u.cfg → controlByte (t.at ⟨c, .c, .start, 6, false⟩) = v) :
    Sim 578 u (phaseC v u) finishCommand := by
  have hcu : c = u.seq.cmd := by rw [hu]
  have hself : u.at ⟨c, .c, .start, 0, false⟩ = u := by rw [← hu]; rfl
  have h := sim_phaseC hne hcu hv
  rw [hself] at h
  refine h.congr fun t ht => ?_
  have htc : c = t.seq.cmd := by
    rw [hcu]
    obtain ⟨u8, h8, ht⟩ := Flow.bind_go ht
    obtain ⟨u9, h9, ht⟩ := Flow.bind_go ht
    rw [(stopCondition_go ht).1, (sendByte_go h9).1, (performAll_start_go h8).1]
    simp only [State.inPhase_seq]
  exact finishCommand_at t _ hne htc

theorem sim_initialise {u : State} (hu : u.seq = ⟨.init, .none, .initSeq, 0, false⟩) :
    Sim 3 u (performAll initActs u) finishCommand := by
  have hself : u.at ⟨.init, .none, .initSeq, 0, false⟩ = u := by rw [← hu]; rfl
  have h := sim_init (q := ⟨.init, .none, .initSeq, 0, false⟩) (s := u) (by decide) (by rw [hu]) rfl rfl
  rw [hself] at h
  refine h.congr fun t ht => ?_
  exact finishCommand_at t _ (by decide) (by rw [(performAll_go ht).1, hu])

end Sys2Proof.Machine
end

