-- ==== Sys2Proof/Laws/Invariant.lean ====
section
/-!
SUPPORT. What acceptance, a line action, the sequencer's move, an exception and the end of a command leave of the
invariant of the engine.
-/
namespace Sys2Proof.Machine

/-- The part of the invariant that does not speak of `SEQ`. -/
structure State.Base (s : State) : Prop where
  bc : s.bc.toNat ≤ 8
  plen : s.plen.toNat ≤ s.cfg.payloadMax
  pi : s.pi.toNat ≤ s.cfg.payloadMax
  en : s.life = .unbuilt → s.en = false
  wires : s.wiresOk

theorem State.Inv.base {s : State} (h : s.Inv) : s.Base :=
  ⟨h.2.2.1.1, h.2.2.1.2.1, h.2.2.1.2.2.1, h.2.1.2.2, h.2.2.2.2⟩

theorem inv_of_idle {s : State} (h : s.Base) (hq : s.seq = Seq.idle) : s.Inv := by
  refine ⟨?_, ⟨?_, ?_, h.en⟩, ⟨h.bc, h.plen, h.pi, ?_, ?_⟩, ?_, h.wires⟩ <;> simp [hq, Seq.legal, Seq.idle, State.linesOk]

theorem respond_inv {st : Status} {c : Option ErrVal} {s : State} (h : s.Base) : (respond st c s).Inv :=
  inv_of_idle ⟨h.bc, h.plen, h.pi, h.en, h.wires⟩ rfl

theorem levelOf_ne_x (b : Bool) : levelOf b ≠ .x := by cases b <;> decide

theorem freeUpTo_le {top event place : Nat} : (freeUpTo top event place).toNat ≤ top := by
  rw [freeUpTo, BitVec.toNat_ofNat]
  exact (Nat.mod_le _ _).trans (Nat.le_of_lt_succ (Nat.mod_lt _ (Nat.succ_pos top)))

theorem teardownEnd_inv (s : State) : (teardownEnd s).Inv := by
  refine respond_inv ⟨freeUpTo_le, freeUpTo_le, freeUpTo_le, fun _ => rfl, ?_⟩
  exact ⟨fun b hb => absurd hb.symm (levelOf_ne_x b), fun b hb => absurd hb.symm (levelOf_ne_x b)⟩

theorem raise_inv {x : Exn} {s : State} (h : s.Base) : (raise x s).Inv := by
  cases x <;> simp only [raise]
  case lineFault e =>
    split
    · exact teardownEnd_inv s
    · exact respond_inv ⟨h.bc, h.plen, h.pi, h.en, h.wires⟩
  case ackTimeout =>
    split
    · exact teardownEnd_inv s
    · exact respond_inv ⟨h.bc, h.plen, h.pi, h.en, h.wires⟩
  all_goals exact respond_inv h

theorem finishCommand_inv {s : State} (h : s.Base) (hc : s.seq.cmd ≠ .idle)
    (hl : s.seq.cmd ≠ .init → s.life = .live) : (finishCommand s).Inv := by
  have hlive : s.life = .live → s.life = .unbuilt → s.en = false := fun h1 h2 => by rw [h1] at h2; cases h2
  have hlive' : ∀ b, s.life = .live → s.life = .unbuilt → b = false := fun _ h1 h2 => by rw [h1] at h2; cases h2
  cases hq : s.seq.cmd <;> simp only [finishCommand, hq] <;> simp only [hq] at hl
  case idle => exact absurd hq hc
  case teardown => exact teardownEnd_inv s
  case init => exact respond_inv ⟨h.bc, h.plen, h.pi, fun hh => (by cases hh), h.wires⟩
  case setBrightness => exact respond_inv ⟨h.bc, h.plen, h.pi, h.en, h.wires⟩
  all_goals exact respond_inv ⟨h.bc, h.plen, h.pi, fun hh => hlive' _ (hl (by decide)) hh, h.wires⟩

theorem levelOf_inj {a b : Bool} (h : levelOf a = levelOf b) : a = b := by
  cases a <;> cases b <;> first | rfl | cases h

/-- What an action leaves the clock line's shadow register at. -/
def Act.clkAfter (l : Level) : Act → Level
  | .clkHi => .hi
  | .clkLo => .lo
  | .dioLo | .dioHi | .dioSample | .waitHalf | .waitFull => l

/-- What an action leaves the data line's shadow register at. -/
def Act.dioAfter (l : Level) : Act → Level
  | .dioHi => .hi
  | .dioLo => .lo
  | .clkLo | .clkHi | .dioSample | .waitHalf | .waitFull => l

/-- A line action keeps the part of the invariant that does not speak of `SEQ`, and what it drives is known. -/
theorem perform_base {a : Act} {s t : State} (hs : s.Base) (h : a.perform s = .go t) :
    t.Base ∧ t.life = s.life ∧
      t.clk = a.clkAfter s.clk ∧ t.dio = a.dioAfter s.dio := by
  cases a <;> simp only [Act.perform, driveClk, driveDio, sampleDio, pauseHalf, pauseFull] at h
  case waitHalf => cases h; exact ⟨⟨hs.bc, hs.plen, hs.pi, hs.en, hs.wires⟩, rfl, rfl, rfl⟩
  case waitFull => cases h; exact ⟨⟨hs.bc, hs.plen, hs.pi, hs.en, hs.wires⟩, rfl, rfl, rfl⟩
  case dioSample =>
    split at h
    · cases h; exact ⟨⟨hs.bc, hs.plen, hs.pi, hs.en, hs.wires⟩, rfl, rfl, rfl⟩
    · cases h
  case clkLo =>
    split at h
    · cases h; exact ⟨⟨hs.bc, hs.plen, hs.pi, hs.en, ⟨fun _ hb => levelOf_inj (a := false) hb, hs.wires.2⟩⟩, rfl, rfl, rfl⟩
    · cases h
  case clkHi =>
    split at h
    · cases h; exact ⟨⟨hs.bc, hs.plen, hs.pi, hs.en, ⟨fun _ hb => levelOf_inj (a := true) hb, hs.wires.2⟩⟩, rfl, rfl, rfl⟩
    · cases h
  case dioLo =>
    split at h
    · cases h; exact ⟨⟨hs.bc, hs.plen, hs.pi, hs.en, ⟨hs.wires.1, fun _ hb => levelOf_inj (a := false) hb⟩⟩, rfl, rfl, rfl⟩
    · cases h
  case dioHi =>
    split at h
    · cases h; exact ⟨⟨hs.bc, hs.plen, hs.pi, hs.en, ⟨hs.wires.1, fun _ hb => levelOf_inj (a := true) hb⟩⟩, rfl, rfl, rfl⟩
    · cases h

theorem perform_ended_inv {a : Act} {s t : State} (hs : s.Base) (h : a.perform s = .ended t) : t.Inv := by
  have hx : ∀ b : Bool, Level.x ≠ levelOf b := fun b h => levelOf_ne_x b h.symm
  cases a <;> simp only [Act.perform, driveClk, driveDio, sampleDio, pauseHalf, pauseFull] at h
  case waitHalf => cases h
  case waitFull => cases h
  case dioSample =>
    split at h
    · cases h
    · cases h; exact raise_inv ⟨hs.bc, hs.plen, hs.pi, hs.en, hs.wires⟩
  case clkLo =>
    split at h
    · cases h
    · cases h; exact raise_inv ⟨hs.bc, hs.plen, hs.pi, hs.en, ⟨fun b hb => absurd hb (hx b), hs.wires.2⟩⟩
  case clkHi =>
    split at h
    · cases h
    · cases h; exact raise_inv ⟨hs.bc, hs.plen, hs.pi, hs.en, ⟨fun b hb => absurd hb (hx b), hs.wires.2⟩⟩
  case dioLo =>
    split at h
    · cases h
    · cases h; exact raise_inv ⟨hs.bc, hs.plen, hs.pi, hs.en, ⟨hs.wires.1, fun b hb => absurd hb (hx b)⟩⟩
  case dioHi =>
    split at h
    · cases h
    · cases h; exact raise_inv ⟨hs.bc, hs.plen, hs.pi, hs.en, ⟨hs.wires.1, fun b hb => absurd hb (hx b)⟩⟩

theorem flowRaise_inv {x : Exn} {s : State} (h : s.Base) : (Flow.raise x s).state.Inv := raise_inv h

/-! ### Acceptance -/
theorem requireLive_inv {s : State} {k : State → Flow} (hb : s.Base) (hk : s.life = .live → (k s).state.Inv) :
    (requireLive s k).state.Inv := by
  rw [requireLive]
  split
  · rename_i h; exact hk h
  · exact raise_inv (x := .badLifecycle) hb

theorem inv_position {c : CmdName} {p : Phase} {s : State} (h : s.Base) (hlive : s.life = .live)
    (hc : (c = .sendBytes ∨ c = .sendDigits ∨ c = .sendNumber) ∧ p = .a ∨ (c = .enable ∨ c = .disable ∨ c = .teardown) ∧ p = .c) :
    (s.position c p .start).Inv := by
  have hne : c ≠ .init := by rcases hc with ⟨rfl | rfl | rfl, _⟩ | ⟨rfl | rfl | rfl, _⟩ <;> decide
  refine ⟨?_, ⟨fun h => absurd h hne, fun _ _ => hlive, h.en⟩, ⟨h.bc, h.plen, h.pi, fun h => (by cases h), trivial⟩, ?_, h.wires⟩
  · rcases hc with ⟨rfl | rfl | rfl, rfl⟩ | ⟨rfl | rfl | rfl, rfl⟩ <;> simp [Seq.legal, State.position, Seq.inTable]
  · simp [State.linesOk, State.position]

theorem loadPayload_base {bs : List Byte} {s : State} (h : s.Base) (hl : bs.length ≤ s.cfg.payloadMax) : (loadPayload bs s).Base :=
  ⟨h.bc, loadPayload_plen_le bs s hl, h.pi, h.en, h.wires⟩

theorem accept_inv {s : State} {t : State} (h : s.Inv) (hq : s.seq.cmd = .idle) (hs : acceptStep s = .next t) : t.Inv := by
  have hb := h.base
  have hidle : s.seq = Seq.idle := by
    have := h.1
    rw [Seq.legal, hq] at this
    exact this
  rw [acceptStep] at hs
  split at hs
  · cases hs; exact inv_of_idle ⟨hb.bc, hb.plen, hb.pi, hb.en, hb.wires⟩ hidle
  · rename_i w rest _
    have hb' : (s.capture (s.cfg.onPort w) rest).Base := ⟨hb.bc, hb.plen, hb.pi, hb.en, hb.wires⟩
    split at hs
    · rename_i f hf
      cases hs
      revert hf
      generalize s.capture (s.cfg.onPort w) rest = s' at hb'
      generalize decodeHost (s.cfg.onPort w) = i
      cases i <;> intro hf
      all_goals first | (cases hf; done) | skip
      all_goals (injection hf with hf; subst hf)
      case init =>
        rw [beginInit]
        split
        · exact flowRaise_inv hb'
        · rename_i hl
          have hu : s'.life = .unbuilt := by cases hl' : s'.life; rfl; exact absurd hl' hl
          refine ⟨?_, ⟨fun _ => hu, fun _ hne => absurd rfl hne, hb'.en⟩, ⟨hb'.bc, hb'.plen, hb'.pi, ?_, trivial⟩, ?_, hb'.wires⟩
          · simp [Seq.legal, State.position, Seq.inTable]
          · intro h; cases h
          · simp [State.linesOk, State.position]
      case sendBytes =>
        refine requireLive_inv hb' fun hl => ?_
        split
        · exact flowRaise_inv hb'
        · rename_i h4
          exact inv_position (loadPayload_base hb' (by simpa [items] using h4)) hl (by simp)
      case sendDigits =>
        refine requireLive_inv hb' fun hl => ?_
        split
        · exact flowRaise_inv hb'
        · rename_i h4
          split
          · exact flowRaise_inv hb'
          · rename_i ds hd
            exact inv_position (loadPayload_base hb' (by
              simp only [enc, List.length_map, digitsOf_length hd]; simpa [items] using h4)) hl (by simp)
      case sendNumber =>
        refine requireLive_inv hb' fun hl => ?_
        split
        · exact flowRaise_inv hb'
        · rename_i h4
          exact inv_position (loadPayload_base hb' (by simpa using h4)) hl (by simp)
      case enable => exact requireLive_inv hb' fun hl => inv_position hb' hl (by simp)
      case disable => exact requireLive_inv hb' fun hl => inv_position hb' hl (by simp)
      case teardown => exact requireLive_inv hb' fun hl => inv_position hb' hl (by simp)
      case setBrightness =>
        refine requireLive_inv hb' fun hl => ?_
        split
        · exact flowRaise_inv hb'
        · exact respond_inv ⟨hb'.bc, hb'.plen, hb'.pi, hb'.en, hb'.wires⟩
    · cases hs


/-! ### The sequencer's move -/

theorem Seq.legal_step {q : Seq} {n : Nat} (h : q.legal) (hc : q.cmd ≠ .idle) (hn : ({ q with step := n } : Seq).inTable) :
    ({ q with step := n } : Seq).legal := by
  obtain ⟨c, p, r, m, b⟩ := q
  cases c <;> simp_all [Seq.legal]

theorem inv_atStep {s t : State} {n : Nat} (h : s.Inv) (ht : t.Base) (hseq : t.seq = s.seq) (hlife : t.life = s.life)
    (hc : s.seq.cmd ≠ .idle) (hpi : t.pi = s.pi) (hplen : t.plen = s.plen)
    (hn : ({ s.seq with step := n } : Seq).inTable)
    (hcnt : match s.seq.rt with
      | .sendByte => t.bc.toNat = n / 6 ∧ t.sr.toNat < 2 ^ (8 - n / 6)
      | .waitAck => t.bc = 8 ∧ t.sr = 0 ∧ (n = 0 → t.ac.toNat < 255) ∧ (n ≠ 0 → t.ac ≠ 0)
      | .none | .start | .stop | .initSeq => True)
    (hl : (t.atStep n).linesOk) : (t.atStep n).Inv := by
  refine ⟨?_, ⟨?_, ?_, ht.en⟩, ⟨ht.bc, ht.plen, ht.pi, ?_, ?_⟩, hl, ht.wires⟩
  · rw [show (t.atStep n).seq = { t.seq with step := n } from rfl, hseq]
    exact Seq.legal_step h.1 hc hn
  · intro hi; rw [show (t.atStep n).life = t.life from rfl, hlife]; exact h.2.1.1 (by rw [← hseq]; exact hi)
  · intro _ hi; rw [show (t.atStep n).life = t.life from rfl, hlife]; exact h.2.1.2.1 hc (by rw [← hseq]; exact hi)
  · intro hp
    change t.pi.toNat < t.plen.toNat
    rw [hpi, hplen]; exact h.2.2.1.2.2.2.1 (by rw [← hseq]; exact hp)
  · have : (t.atStep n).seq = { t.seq with step := n } := rfl
    rw [this, hseq]
    exact hcnt

theorem seq_inTable {s : State} (h : s.Inv) (hc : s.seq.cmd ≠ .idle) : s.seq.inTable := by
  have hl := h.1
  cases hq : s.seq.cmd <;> simp only [Seq.legal, hq] at hl
  case idle => exact absurd hq hc
  case init => exact hl.2.2.1
  case sendBytes => exact hl.2.2.1
  case sendDigits => exact hl.2.2.1
  case sendNumber => exact hl.2.2.1
  all_goals exact hl.2.2.1

/-- Calling SEND_BYTE keeps the invariant. -/
theorem inv_enterByte {s t : State} {v : Byte} {b : Bool} (h : s.Inv) (ht : t.Base) (hseq : t.seq = s.seq) (hlife : t.life = s.life)
    (hc : s.seq.cmd ≠ .idle) (hr : s.seq.rt ≠ .initSeq) (hclk : t.clk = .lo)
    (hp : b = true → s.seq.phase = .b ∧ (s.seq.cmd = .sendBytes ∨ s.seq.cmd = .sendDigits ∨ s.seq.cmd = .sendNumber) ∧ t.pi.toNat < t.plen.toNat) :
    (enterByte v (t.inPayload b)).Inv := by
  have hl := h.1
  refine ⟨?_, ⟨?_, ?_, ht.en⟩, ⟨by simp [enterByte, State.enter, loadByte], ht.plen, ht.pi, ?_, ?_⟩, ?_, ht.wires⟩
  · rcases hs : s.seq with ⟨c, p, r, n, b'⟩
    rw [show (enterByte v (t.inPayload b)).seq = ⟨t.seq.cmd, t.seq.phase, .sendByte, 0, b⟩ from rfl, hseq, hs]
    rw [hs] at hl hc hp hr
    cases c <;> simp_all [Seq.legal, Seq.inTable]
  · intro hi
    have hi' : t.seq.cmd = .init := hi
    change t.life = _
    rw [hlife]; exact h.2.1.1 (by rw [← hseq]; exact hi')
  · intro _ hi
    have hi' : t.seq.cmd ≠ .init := hi
    change t.life = _
    rw [hlife]; exact h.2.1.2.1 hc (by rw [← hseq]; exact hi')
  · intro hb; exact (hp hb).2.2
  · have hq : (enterByte v (t.inPayload b)).seq = ⟨t.seq.cmd, t.seq.phase, .sendByte, 0, b⟩ := rfl
    have hv : (enterByte v (t.inPayload b)).sr = v := rfl
    have hb : (enterByte v (t.inPayload b)).bc = 0 := rfl
    simp only [hq, hv, hb]
    exact ⟨rfl, v.isLt⟩
  · refine ⟨?_, ?_, ?_⟩
    · change t.clk = _; rw [hclk]; rfl
    · intro _ h0; exact absurd rfl h0
    · intro h0; cases h0

theorem inv_enterStop {s t : State} (h : s.Inv) (ht : t.Base) (hseq : t.seq = s.seq) (hlife : t.life = s.life)
    (hc : s.seq.cmd ≠ .idle) (hr : s.seq.rt ≠ .initSeq) (hclk : t.clk = .lo) (hdio : t.dio = .hi) :
    (enterStop t).Inv := by
  have hl := h.1
  refine ⟨?_, ⟨?_, ?_, ht.en⟩, ⟨ht.bc, ht.plen, ht.pi, ?_, trivial⟩, ?_, ht.wires⟩
  · rcases hs : s.seq with ⟨c, p, r, n, b'⟩
    rw [show (enterStop t).seq = ⟨t.seq.cmd, t.seq.phase, .stop, 0, false⟩ from rfl, hseq, hs]
    rw [hs] at hl hc hr
    cases c <;> simp_all [Seq.legal, Seq.inTable]
  · intro hi
    have hi' : t.seq.cmd = .init := hi
    change t.life = _
    rw [hlife]; exact h.2.1.1 (by rw [← hseq]; exact hi')
  · intro _ hi
    have hi' : t.seq.cmd ≠ .init := hi
    change t.life = _
    rw [hlife]; exact h.2.1.2.1 hc (by rw [← hseq]; exact hi')
  · intro hb; cases hb
  · exact ⟨hclk, hdio⟩

theorem cell_facts {b : Bool} {n : Nat} {a : Act} (h : byteAct b n = some a) (hn : n < 48) :
    a = (match n % 6 with | 0 => Act.ofBit b | 1 => .waitHalf | 2 => .clkHi | 3 => .waitFull | 4 => .clkLo | _ => .waitHalf) := by
  rw [byteAct, if_pos hn] at h
  have : n % 6 < 6 := Nat.mod_lt _ (by omega)
  generalize n % 6 = m at *
  have : m = 0 ∨ m = 1 ∨ m = 2 ∨ m = 3 ∨ m = 4 ∨ m = 5 := by omega
  rcases this with rfl | rfl | rfl | rfl | rfl | rfl <;> simp [cellActs] at h <;> simp [h]

/-- The start of the next phase of a frame. -/
theorem inv_enterStart {s t : State} {p : Phase} (h : s.Inv) (ht : t.Base) (hseq : t.seq = s.seq) (hlife : t.life = s.life)
    (hpay : s.seq.payload = false) (hp : p ≠ .none)
    (hc : s.seq.cmd = .sendBytes ∨ s.seq.cmd = .sendDigits ∨ s.seq.cmd = .sendNumber) :
    ((t.inPhase p).enter .start).Inv := by
  refine ⟨?_, ⟨?_, ?_, ht.en⟩, ⟨ht.bc, ht.plen, ht.pi, ?_, trivial⟩, ⟨fun h => (by cases h), fun h => by cases h⟩, ht.wires⟩
  · rw [show ((t.inPhase p).enter .start).seq = ⟨t.seq.cmd, p, .start, 0, t.seq.payload⟩ from rfl, hseq, hpay]
    rcases hc with hc | hc | hc <;> rw [hc] <;> simp [Seq.legal, hp, Seq.inTable]
  · intro hi
    have hi' : t.seq.cmd = .init := hi
    rw [hseq] at hi'
    rw [hi'] at hc
    simp at hc
  · intro _ hi
    have hi' : t.seq.cmd ≠ .init := hi
    change t.life = _
    rw [hlife]
    refine h.2.1.2.1 ?_ (by rw [← hseq]; exact hi')
    rcases hc with hc | hc | hc <;> rw [hc] <;> decide
  · intro hb
    have hb' : t.seq.payload = true := hb
    rw [hseq, hpay] at hb'
    cases hb'

theorem payload_false {s : State} (h : s.Inv) (hr : s.seq.rt ≠ .sendByte) (hr' : s.seq.rt ≠ .waitAck) :
    s.seq.payload = false := by
  by_contra hpp
  have hl := h.1
  rcases hs : s.seq with ⟨c, p, r, n, b⟩
  rw [hs] at hl hpp hr hr'
  cases c <;> simp_all [Seq.legal, Seq.idle]

theorem phase_none {s : State} (h : s.Inv) (hc : s.seq.cmd ≠ .idle) (hp : s.seq.phase = .none) : s.seq.rt = .initSeq := by
  have hl := h.1
  rcases hs : s.seq with ⟨c, p, r, n, b⟩
  rw [hs] at hl hp hc
  cases c <;> simp_all [Seq.legal]

theorem sends_of_phase {s : State} (h : s.Inv) (hc : s.seq.cmd ≠ .idle) (hp : s.seq.phase = .a ∨ s.seq.phase = .b) :
    s.seq.cmd = .sendBytes ∨ s.seq.cmd = .sendDigits ∨ s.seq.cmd = .sendNumber := by
  have hl := h.1
  rcases hs : s.seq with ⟨c, p, r, n, b⟩
  rw [hs] at hl hp hc
  cases c <;> simp_all [Seq.legal]

theorem advance_inv {s t : State} {a : Act} (h : s.Inv) (hc : s.seq.cmd ≠ .idle) (ha : currentAct s = some a)
    (hp : a.perform s = .go t) : (advance t).Inv := by
  have hg := perform_go hp
  obtain ⟨ht, hlife, hclk, hdio⟩ := perform_base h.base hp
  obtain ⟨hseq, hsr, hbc, hac, hpi, hplen, -, -, -⟩ := hg
  have htab := seq_inTable h hc
  have hlines := h.2.2.2.1
  have hcnt := h.2.2.1.2.2.2.2
  have hlive : t.seq.cmd ≠ .init → t.life = .live := by rw [hseq, hlife]; exact h.2.1.2.1 hc
  cases hr : s.seq.rt <;> simp only [Seq.inTable, hr] at htab <;> simp only [currentAct, hr] at ha <;>
    simp only [State.linesOk, hr] at hlines <;> simp only [hr] at hcnt <;> simp only [advance, hseq, hr]
  case start =>
    split
    · rename_i hn
      refine inv_atStep h ht hseq hlife hc hpi hplen (by simp [Seq.inTable, hr]; omega) (by simp only [hr]) ?_
      simp only [State.linesOk, State.atStep, hseq, hr]
      generalize s.seq.step = n at *
      have : n = 0 ∨ n = 1 ∨ n = 2 ∨ n = 3 ∨ n = 4 ∨ n = 5 := by omega
      rcases this with rfl | rfl | rfl | rfl | rfl | rfl <;> simp [startActs] at ha <;> subst ha <;> simp_all [Act.clkAfter, Act.dioAfter]
    · have hn : s.seq.step = 6 := by omega
      rw [hn] at ha hlines
      simp [startActs] at ha
      subst ha
      have hclk' : t.clk = .lo := by rw [hclk]; simpa [Act.clkAfter] using hlines.1
      have hpay := payload_false h (by rw [hr]; decide) (by rw [hr]; decide)
      have hE : ∀ v, (enterByte v t).Inv := by
        intro v
        have := inv_enterByte (v := v) (b := false) h ht hseq hlife hc (by rw [hr]; decide) hclk' (by simp)
        have he : t.inPayload false = t := by
          rw [State.inPayload]
          have : t.seq.payload = false := by rw [hseq, hpay]
          rw [← this]
        rw [he] at this
        exact this
      simp only [afterStart]
      split
      · exact hE t.cfg.dataCmd
      · exact hE t.cfg.addrCmd
      · exact hE (controlByte t)
      · rename_i hph
        rw [hseq] at hph
        exact absurd (phase_none h hc hph) (by rw [hr]; decide)
  case stop =>
    split
    · rename_i hn
      refine inv_atStep h ht hseq hlife hc hpi hplen (by simp [Seq.inTable, hr]; omega) (by simp only [hr]) ?_
      simp only [State.linesOk, State.atStep, hseq, hr]
      generalize s.seq.step = n at *
      have : n = 0 ∨ n = 1 ∨ n = 2 ∨ n = 3 ∨ n = 4 ∨ n = 5 ∨ n = 6 := by omega
      rcases this with rfl | rfl | rfl | rfl | rfl | rfl | rfl <;> simp [stopActs] at ha <;> subst ha <;>
        simp_all [Act.clkAfter, Act.dioAfter]
    · have hpay := payload_false h (by rw [hr]; decide) (by rw [hr]; decide)
      have hfin : (finishCommand t).Inv := finishCommand_inv ht (by rw [hseq]; exact hc) hlive
      simp only [afterStop]
      split
      · rename_i hph
        rw [hseq] at hph
        exact inv_enterStart h ht hseq hlife hpay (by decide) (sends_of_phase h hc (.inl hph))
      · rename_i hph
        rw [hseq] at hph
        exact inv_enterStart h ht hseq hlife hpay (by decide) (sends_of_phase h hc (.inr hph))
      · exact hfin
      · exact hfin
  case initSeq =>
    split
    · rename_i hn
      refine inv_atStep h ht hseq hlife hc hpi hplen (by simp [Seq.inTable, hr]; omega) (by simp only [hr]) ?_
      simp only [State.linesOk, State.atStep, hseq, hr]
      generalize s.seq.step = n at *
      have : n = 0 ∨ n = 1 := by omega
      rcases this with rfl | rfl <;> simp [initActs] at ha <;> subst ha <;> simp_all [Act.clkAfter, Act.dioAfter]
    · exact finishCommand_inv ht (by rw [hseq]; exact hc) hlive
  case sendByte =>
    split
    · rename_i hn
      have hcell := cell_facts ha hn
      have h6 : s.seq.step % 6 < 6 := Nat.mod_lt _ (by omega)
      split
      · rename_i h5
        simp only [h5] at hcell
        subst hcell
        have hb1 : (shiftOut t).bc.toNat = s.bc.toNat + 1 := by
          rw [shiftOut_bc, hbc]
          have : BitVec.toNat (1 : BitVec 4) = 1 := rfl
          rw [BitVec.toNat_add, this, Nat.mod_eq_of_lt (by omega)]
        refine inv_atStep (t := shiftOut t) h ⟨by rw [hb1]; omega, ht.plen, ht.pi, ht.en, ht.wires⟩ hseq hlife hc hpi hplen
          (by simp [Seq.inTable, hr]; omega) ?_ ?_
        · simp only [hr, hb1]
          refine ⟨by omega, ?_⟩
          rw [shiftOut_sr, hsr, BitVec.toNat_ushiftRight, Nat.shiftRight_eq_div_pow]
          rw [show (s.seq.step + 1) / 6 = s.seq.step / 6 + 1 by omega]
          have h2 := hcnt.2
          rw [show 8 - s.seq.step / 6 = (8 - (s.seq.step / 6 + 1)) + 1 by omega, Nat.pow_succ] at h2
          omega
        · have hq : (shiftOut t).seq = s.seq := hseq
          simp only [State.linesOk, State.atStep, hq, hr]
          refine ⟨?_, ?_, ?_⟩
          · rw [if_neg (by omega), shiftOut_clk, hclk]
            have := hlines.1
            rw [if_neg (by omega)] at this
            simpa [Act.clkAfter] using this
          · intro _ h0; omega
          · intro h49; omega
      · rename_i h5
        refine inv_atStep h ht hseq hlife hc hpi hplen (by simp [Seq.inTable, hr]; omega) ?_ ?_
        · simp only [hr, hbc, hsr, show (s.seq.step + 1) / 6 = s.seq.step / 6 by omega]
          exact hcnt
        · simp only [State.linesOk, State.atStep, hseq, hr, hsr]
          have hmod : (s.seq.step + 1) % 6 = s.seq.step % 6 + 1 := by omega
          have hlt : s.seq.step + 1 < 48 := by omega
          have h49 : ¬ s.seq.step + 1 = 49 := by omega
          simp only [hmod, hlt, h49, hclk, hdio, true_and, forall_const, hn] at hlines ⊢
          generalize s.seq.step % 6 = m at *
          have : m = 0 ∨ m = 1 ∨ m = 2 ∨ m = 3 ∨ m = 4 := by omega
          rcases this with rfl | rfl | rfl | rfl | rfl <;> simp at hcell <;> subst hcell <;>
            simp_all [Act.clkAfter, Act.dioAfter]
          cases hbit : s.sr[0] <;> exact ⟨rfl, rfl⟩
    · rename_i hn
      split
      · rename_i h48
        rw [h48] at ha
        simp [byteAct] at ha
        subst ha
        have hsr0 : s.sr = 0 := by
          apply BitVec.eq_of_toNat_eq
          have := hcnt.2
          rw [h48] at this
          simpa using this
        have hbc8 : s.bc = 8 := by
          apply BitVec.eq_of_toNat_eq
          rw [hcnt.1, h48]; rfl
        refine ⟨?_, ⟨?_, ?_, ht.en⟩, ⟨ht.bc, ht.plen, ht.pi, ?_, ?_⟩, ⟨?_, ?_⟩, ht.wires⟩
        · have hl := h.1
          rw [show (enterAck t).seq = ⟨t.seq.cmd, t.seq.phase, .waitAck, 0, t.seq.payload⟩ from rfl, hseq]
          rcases hs : s.seq with ⟨c, p, r, n, b⟩
          rw [hs] at hl hr
          cases c <;> simp_all [Seq.legal, Seq.inTable]
        · intro hi
          have hi' : t.seq.cmd = .init := hi
          change t.life = _
          rw [hlife]; exact h.2.1.1 (by rw [← hseq]; exact hi')
        · intro _ hi
          have hi' : t.seq.cmd ≠ .init := hi
          change t.life = _
          rw [hlife]; exact h.2.1.2.1 hc (by rw [← hseq]; exact hi')
        · intro hb
          have hb' : t.seq.payload = true := hb
          change t.pi.toNat < t.plen.toNat
          rw [hpi, hplen]; exact h.2.2.1.2.2.2.1 (by rw [← hseq]; exact hb')
        · exact ⟨by change t.bc = 8; rw [hbc, hbc8], by change t.sr = 0; rw [hsr, hsr0], fun _ => by change BitVec.toNat (0 : Byte) < 255; decide,
            fun h0 => absurd rfl h0⟩
        · change t.clk = _
          rw [hclk]
          have := hlines.1
          rw [h48] at this
          simpa [Act.clkAfter, enterAck, State.enter] using this
        · change t.dio = _
          rw [hdio]; rfl
      · rename_i h48
        have h49 : s.seq.step = 49 := by omega
        rw [h49] at ha hlines
        simp [byteAct] at ha
        subst ha
        have hclk' : t.clk = .lo := by rw [hclk]; simpa [Act.clkAfter] using hlines.1
        have hdio' : t.dio = .hi := by rw [hdio]; simpa [Act.dioAfter] using hlines.2
        have hstop : (enterStop t).Inv := inv_enterStop h ht hseq hlife hc (by rw [hr]; decide) hclk' hdio'
        have hhead : ∀ u : State, u.Base → u.seq = s.seq → u.life = s.life → u.clk = .lo → u.dio = .hi → s.seq.phase = .b →
            u.pi.toNat ≤ u.plen.toNat → (payloadHead u).Inv := by
          intro u hu hq hul huc hud hph hle
          rw [payloadHead]
          split
          · exact inv_enterStop h hu hq hul hc (by rw [hr]; decide) huc hud
          · rename_i hne
            refine inv_enterByte h hu hq hul hc (by rw [hr]; decide) huc fun _ => ⟨hph, sends_of_phase h hc (.inr hph), ?_⟩
            have : u.pi.toNat ≠ u.plen.toNat := fun he => hne (BitVec.eq_of_toNat_eq he)
            omega
        simp only [afterByte]
        split
        · rename_i hph
          rw [hseq] at hph
          split
          · rename_i hpay
            rw [hseq] at hpay
            have hlt := h.2.2.1.2.2.2.1 hpay
            have hp1 : (nextIndex t).pi.toNat = s.pi.toNat + 1 := by
              rw [nextIndex_pi, hpi]
              have h1 : BitVec.toNat (1 : BitVec 4) = 1 := rfl
              have := s.plen.isLt
              rw [BitVec.toNat_add, h1, Nat.mod_eq_of_lt (by omega)]
            have h4 := h.2.2.1.2.1
            exact hhead (nextIndex t) ⟨ht.bc, ht.plen, by
              rw [hp1, nextIndex_cfg, perform_cfg hp]; omega, ht.en, ht.wires⟩ hseq hlife hclk' hdio' hph
              (by rw [hp1, nextIndex_plen, hplen]; omega)
          · exact hhead (clearIndex t) ⟨ht.bc, ht.plen, by simp, ht.en, ht.wires⟩ hseq hlife hclk' hdio' hph (by simp)
        · exact hstop
        · exact hstop
        · exact hstop
  case waitAck =>
    obtain ⟨hb8, hs0, hac0, hac1⟩ := hcnt
    split
    · rename_i h0
      have hlt := hac0 h0
      rw [h0] at ha hlines
      simp [ackAct] at ha
      subst ha
      have hne : (countSample t).ac ≠ 0 := by
        rw [countSample_ac, hac]
        intro he
        have h1 : BitVec.toNat (1 : BitVec 8) = 1 := rfl
        have := congrArg BitVec.toNat he
        rw [BitVec.toNat_add, h1, Nat.mod_eq_of_lt (by omega)] at this
        simp at this
      have hlo : t.clk = .lo := by rw [hclk]; simpa [Act.clkAfter] using hlines.1
      have hhi : t.dio = .hi := by rw [hdio]; exact hlines.2
      have hq : (countSample t).seq = s.seq := hseq
      refine inv_atStep (t := countSample t) h ⟨ht.bc, ht.plen, ht.pi, ht.en, ht.wires⟩ hseq hlife hc hpi hplen
          (by simp [Seq.inTable, hr]; split <;> omega) ?_ ?_
      · simp only [hr]
        exact ⟨by rw [countSample_bc, hbc, hb8], by rw [countSample_sr, hsr, hs0], fun h => (by split at h <;> cases h), fun _ => hne⟩
      · simp only [State.linesOk, State.atStep, hq, hr, countSample_clk, countSample_dio, hlo, hhi]
        split <;> simp
    · rename_i h0
      have hne := hac1 h0
      split
      · rename_i h1
        rw [h1] at ha hlines
        simp [ackAct] at ha
        subst ha
        split
        · exact raise_inv ht
        · rename_i hne'
          refine inv_atStep h ht hseq hlife hc hpi hplen (by simp [Seq.inTable, hr]) ?_ ?_
          · simp only [hr]
            refine ⟨by rw [hbc, hb8], by rw [hsr, hs0], fun _ => ?_, fun h => absurd rfl h⟩
            have := t.ac.isLt
            have : t.ac.toNat ≠ 255 := fun he => hne' (BitVec.eq_of_toNat_eq he)
            omega
          · simp only [State.linesOk, State.atStep, hseq, hr]
            rw [hclk, hdio]
            simpa [Act.clkAfter, Act.dioAfter] using hlines
      · rename_i h1
        split
        · rename_i h5
          refine inv_atStep h ht hseq hlife hc hpi hplen (by simp [Seq.inTable, hr]; omega) ?_ ?_
          · simp only [hr]
            exact ⟨by rw [hbc, hb8], by rw [hsr, hs0], fun h => by omega, fun _ => by rw [hac]; exact hne⟩
          · simp only [State.linesOk, State.atStep, hseq, hr]
            generalize s.seq.step = n at *
            have : n = 2 ∨ n = 3 ∨ n = 4 := by omega
            rcases this with rfl | rfl | rfl <;> simp [ackAct, ackActs] at ha <;> subst ha <;>
              simp_all [Act.clkAfter, Act.dioAfter]
        · have h5 : s.seq.step = 5 := by omega
          rw [h5] at ha hlines
          simp [ackAct, ackActs] at ha
          subst ha
          refine ⟨?_, ⟨?_, ?_, ht.en⟩, ⟨ht.bc, ht.plen, ht.pi, ?_, ?_⟩, ⟨?_, ?_, ?_⟩, ht.wires⟩
          · have hl := h.1
            rw [show ((t.enter .sendByte).atStep 49).seq = ⟨t.seq.cmd, t.seq.phase, .sendByte, 49, t.seq.payload⟩ from rfl, hseq]
            rcases hs : s.seq with ⟨c, p, r, n, b⟩
            rw [hs] at hl hr
            cases c <;> simp_all [Seq.legal, Seq.inTable]
          · intro hi
            have hi' : t.seq.cmd = .init := hi
            change t.life = _
            rw [hlife]; exact h.2.1.1 (by rw [← hseq]; exact hi')
          · intro _ hi
            have hi' : t.seq.cmd ≠ .init := hi
            change t.life = _
            rw [hlife]; exact h.2.1.2.1 hc (by rw [← hseq]; exact hi')
          · intro hb
            have hb' : t.seq.payload = true := hb
            change t.pi.toNat < t.plen.toNat
            rw [hpi, hplen]; exact h.2.2.1.2.2.2.1 (by rw [← hseq]; exact hb')
          · have hq : ((t.enter .sendByte).atStep 49).seq = ⟨t.seq.cmd, t.seq.phase, .sendByte, 49, t.seq.payload⟩ := rfl
            have h1 : ((t.enter .sendByte).atStep 49).sr = 0 := by rw [← hs0, ← hsr]; rfl
            have h2 : ((t.enter .sendByte).atStep 49).bc = 8 := by rw [← hb8, ← hbc]; rfl
            simp only [hq, h1, h2]
            exact ⟨rfl, by decide⟩
          · change t.clk = _
            rw [hclk]
            rfl
          · intro h; exact absurd h (show ¬ (49 : Nat) < 48 by decide)
          · intro _
            change t.dio = _
            rw [hdio]; exact hlines.2

end Sys2Proof.Machine
end

