-- ==== Sys2Proof/Laws/PerInstr.lean ====
section
/-!
SUPPORT. Per operation: decoding the code of a well-formed operation gives it back.
-/
namespace Sys2Proof.Laws.Coding

open Sys2Proof

/-- In every instantiation, decoding the encoding of a well-formed operation gives the operation (30_encoding.md R91 to R101);
for a byte of the wire, in one whose bytes are told apart. -/
def Statement (i : Instr) : Prop :=
  ∀ (p : Params) (c : Code), p.ok = true → i.wellFormed p = true →
    (c.fmt = .cmdb ∨ c.fmt = .ctrlb ∨ c.fmt = .segb → p.distinct = true) →
    encode p i = some c → decode p c = .ok i

/-- A host word of the instantiation's width is decoded as such. -/
theorem decode_hostWord (p : Params) (w : HostWord) (h : w.toNat < 2 ^ (8 + p.argBits)) :
    decode p ⟨.hostw, w.toNat⟩ = .ok (decodeHost w) := by
  simp only [decode, if_pos (And.intro h w.isLt), BitVec.ofNat_toNat, BitVec.setWidth_eq]

theorem toNat_append {m n : Nat} (x : BitVec m) (y : BitVec n) : (x ++ y).toNat = x.toNat * 2 ^ n + y.toNat := by
  rw [BitVec.toNat_append, ← Nat.shiftLeft_add_eq_or_of_lt y.isLt, Nat.shiftLeft_eq]

/-- The places of the fields of the host word (30_encoding.md R91). -/
theorem hostWord_toNat (op : BitVec 3) (ind : Bool) (len : BitVec 4) (arg : HostArg) :
    (hostWord op ind len arg).toNat = op.toNat + 8 * ind.toNat + 16 * len.toNat + 256 * arg.toNat := by
  have h : (hostWord op ind len arg).toNat =
      (arg ++ len ++ BitVec.ofBool ind ++ op : BitVec (120 + 4 + 1 + 3)).toNat := rfl
  rw [h, toNat_append, toNat_append, toNat_append]
  cases ind <;> simp <;> omega

theorem hostWord_op (op : BitVec 3) (ind : Bool) (len : BitVec 4) (arg : HostArg) : (hostWord op ind len arg).op = op := by
  apply BitVec.eq_of_toNat_eq
  have := op.isLt
  simp only [HostWord.op, BitVec.extractLsb'_toNat, hostWord_toNat, Nat.shiftRight_eq_div_pow]
  omega

theorem hostWord_len (op : BitVec 3) (ind : Bool) (len : BitVec 4) (arg : HostArg) : (hostWord op ind len arg).len = len := by
  apply BitVec.eq_of_toNat_eq
  have h1 := op.isLt
  have h2 := len.isLt
  have h3 : ind.toNat ≤ 1 := Bool.toNat_le ind
  simp only [HostWord.len, BitVec.extractLsb'_toNat, hostWord_toNat, Nat.shiftRight_eq_div_pow]
  omega

theorem hostWord_arg (op : BitVec 3) (ind : Bool) (len : BitVec 4) (arg : HostArg) : (hostWord op ind len arg).arg = arg := by
  apply BitVec.eq_of_toNat_eq
  have h1 := op.isLt
  have h2 := len.isLt
  have h3 : ind.toNat ≤ 1 := Bool.toNat_le ind
  have h4 := arg.isLt
  simp only [HostWord.arg, BitVec.extractLsb'_toNat, hostWord_toNat, Nat.shiftRight_eq_div_pow]
  omega

theorem hostWord_ind (op : BitVec 3) (ind : Bool) (len : BitVec 4) (arg : HostArg) : (hostWord op ind len arg).ind = ind := by
  have h1 := op.isLt
  have h3 : (hostWord op ind len arg).toNat / 8 % 2 = ind.toNat := by
    rw [hostWord_toNat]
    have := Bool.toNat_le ind
    omega
  simp only [HostWord.ind, BitVec.getLsbD, Nat.testBit_eq_decide_div_mod_eq, h3, show 2 ^ 3 = 8 from rfl]
  cases ind <;> rfl

/-- What a packed host word decodes to. -/
theorem decodeHost_hostWord (op : BitVec 3) (ind : Bool) (len : BitVec 4) (arg : HostArg) :
    decodeHost (hostWord op ind len arg) =
      match op.toNat with
      | 0 => .init
      | 1 => .sendBytes len arg
      | 2 => .sendDigits ind len arg
      | 3 => .sendNumber (arg.setWidth 32)
      | 4 => .enable
      | 5 => .disable
      | 6 => .setBrightness (arg.setWidth 8)
      | _ => .teardown := by
  rw [decodeHost, hostWord_op, hostWord_ind, hostWord_len, hostWord_arg] <;> rfl

/-- The code of a host command whose operand fits the field decodes to what its packed word decodes to. -/
theorem decode_hostCode {p : Params} {op : BitVec 3} {ind : Bool} {len : BitVec 4} {arg : HostArg} {c : Code}
    (ha : arg.toNat < 2 ^ p.argBits) (h : hostCode op ind len arg = some c) :
    decode p c = .ok (decodeHost (hostWord op ind len arg)) := by
  cases h
  refine decode_hostWord p _ ?_
  have h1 := op.isLt
  have h2 := len.isLt
  have h3 : ind.toNat ≤ 1 := Bool.toNat_le ind
  rw [hostWord_toNat, Nat.pow_add]
  omega

/-- The operand field holds every number of 32 bits (30_encoding.md R91). -/
theorem lt_argBits (p : Params) {w : Nat} (hw : w ≤ 32) (v : BitVec w) : (v.setWidth 120).toNat < 2 ^ p.argBits := by
  rw [BitVec.toNat_setWidth]
  have h1 : 2 ^ w ≤ 2 ^ p.argBits := Nat.pow_le_pow_right (by omega) (hw.trans (Nat.le_max_left 32 _))
  exact (Nat.mod_le _ _).trans_lt (v.isLt.trans_le h1)

theorem zero_lt_argBits (p : Params) : (0 : HostArg).toNat < 2 ^ p.argBits := Nat.two_pow_pos _

/-- In an instantiation whose patterns differ, a segment byte is its digit's (30_encoding.md R96). -/
theorem decode_segCode {p : Params} {d : Digit} {ind : Bool} {c : Code} (hp : p.ok = true)
    (hd : c.fmt = .cmdb ∨ c.fmt = .ctrlb ∨ c.fmt = .segb → p.distinct = true) (h : segCode p d ind = some c) :
    decode p c = .ok (segByteInstr d ind) := by
  cases h
  have hd := hd (.inr (.inr rfl))
  have h7 := (Machine.params_ok_iff.mp hp).2.2.1 d
  have key : ∀ x : Byte, x.getLsbD 7 = false →
      (x ||| (if ind then Config.indMask else 0)) &&& 0x7F = x ∧
        (x ||| (if ind then Config.indMask else 0)).getLsbD 7 = ind := by
    cases ind <;> decide +kernel
  obtain ⟨hlow, hbit⟩ := key _ h7
  have hfind : (List.finRange 10).find? (fun e => p.segTable[e] == segByteOf p d ind &&& 0x7F) = some d := by
    rw [segByteOf, hlow]
    cases hf : (List.finRange 10).find? (fun e => p.segTable[e] == p.segTable[d]) with
    | none => exact absurd (List.find?_eq_none.mp hf d (List.mem_finRange d)) (by simp)
    | some e =>
      have he : p.segTable[e] = p.segTable[d] := by simpa using List.find?_some hf
      simp only [Params.distinct, Bool.and_eq_true, List.all_eq_true] at hd
      have := hd.2 e (List.mem_finRange e) d (List.mem_finRange d)
      simp only [Bool.or_eq_true, beq_iff_eq, bne_iff_ne, he, ne_eq, not_true_eq_false, or_false] at this
      rw [this]
  simp only [decode, decodeSegb, if_pos (segByteOf p d ind).isLt, BitVec.ofNat_toNat, BitVec.setWidth_eq, hfind]
  rw [segByteOf, hbit]

theorem init : Statement (.init) := by
  intro p c _ _ _ h
  rw [decode_hostCode (zero_lt_argBits p) h, decodeHost_hostWord]
  rfl

theorem sendBytes (len : BitVec 4) (arg : HostArg) : Statement (.sendBytes len arg) := by
  intro p c _ hw _ h
  rw [decode_hostCode (of_decide_eq_true hw) h, decodeHost_hostWord]
  rfl

theorem sendDigits (ind : Bool) (len : BitVec 4) (arg : HostArg) : Statement (.sendDigits ind len arg) := by
  intro p c _ hw _ h
  rw [decode_hostCode (of_decide_eq_true hw) h, decodeHost_hostWord]
  rfl

theorem sendNumber (v : Word32) : Statement (.sendNumber v) := by
  intro p c _ _ _ h
  rw [decode_hostCode (lt_argBits p (Nat.le_refl 32) v) h, decodeHost_hostWord]
  change Except.ok (Instr.sendNumber _) = _
  rw [BitVec.setWidth_setWidth_of_le _ (by decide), BitVec.setWidth_eq]

theorem enable : Statement (.enable) := by
  intro p c _ _ _ h
  rw [decode_hostCode (zero_lt_argBits p) h, decodeHost_hostWord]
  rfl

theorem disable : Statement (.disable) := by
  intro p c _ _ _ h
  rw [decode_hostCode (zero_lt_argBits p) h, decodeHost_hostWord]
  rfl

theorem setBrightness (b : Byte) : Statement (.setBrightness b) := by
  intro p c _ _ _ h
  rw [decode_hostCode (lt_argBits p (by decide) b) h, decodeHost_hostWord]
  change Except.ok (Instr.setBrightness _) = _
  rw [BitVec.setWidth_setWidth_of_le _ (by decide), BitVec.setWidth_eq]

theorem teardown : Statement (.teardown) := by
  intro p c _ _ _ h
  rw [decode_hostCode (zero_lt_argBits p) h, decodeHost_hostWord]
  rfl

theorem clkLo : Statement (.clkLo) := by
  intro p c _ _ _ h
  cases h
  rfl

theorem clkHi : Statement (.clkHi) := by
  intro p c _ _ _ h
  cases h
  rfl

theorem dioLo : Statement (.dioLo) := by
  intro p c _ _ _ h
  cases h
  rfl

theorem dioHi : Statement (.dioHi) := by
  intro p c _ _ _ h
  cases h
  rfl

theorem dioSample : Statement (.dioSample) := by
  intro p c _ _ _ h
  cases h
  rfl

theorem waitHalf : Statement (.waitHalf) := by
  intro p c _ _ _ h
  cases h
  rfl

theorem waitFull : Statement (.waitFull) := by
  intro p c _ _ _ h
  cases h
  rfl

theorem start : Statement (.start) := by
  intro p c _ _ _ h
  cases h
  rfl

theorem stop : Statement (.stop) := by
  intro p c _ _ _ h
  cases h
  rfl

theorem sendByte (v : Byte) : Statement (.sendByte v) := by
  intro p c _ _ _ h
  cases h
  have h1 : (256 * v.toNat + 2) % 256 = 2 := by omega
  have h2 : (256 * v.toNat + 2) / 256 = v.toNat := by omega
  simp only [decode, decodeTop, h1, h2, if_pos v.isLt, BitVec.ofNat_toNat, BitVec.setWidth_eq]

theorem waitAck : Statement (.waitAck) := by
  intro p c _ _ _ h
  cases h
  rfl

theorem dataCmd : Statement (.dataCmd) := by
  intro p c _ _ _ h
  cases h
  simp only [decode, decodeCmdb, if_pos p.dataCmd.isLt, BitVec.ofNat_toNat, BitVec.setWidth_eq, if_true]

theorem addrCmd : Statement (.addrCmd) := by
  intro p c _ _ hd h
  cases h
  have hd := hd (.inl rfl)
  have hne : p.addrCmd ≠ p.dataCmd := by
    simp only [Params.distinct, Bool.and_eq_true, bne_iff_ne] at hd
    exact hd.1.1.symm
  simp only [decode, decodeCmdb, if_pos p.addrCmd.isLt, BitVec.ofNat_toNat, BitVec.setWidth_eq, if_neg hne, if_true]

theorem ctrlOn (b : BitVec 3) : Statement (.ctrlOn b) := by
  intro p c hp _ hd h
  cases h
  have hd := hd (.inr (.inl rfl))
  have hmask := (Machine.params_ok_iff.mp hp).2.2.2.1
  have key : ∀ m : Byte, m &&& 0x07 = 0 → ∀ b : BitVec 3,
      (m ||| b.setWidth 8) &&& 0xF8 = m ∧ (m ||| b.setWidth 8).setWidth 3 = b := by decide +kernel
  obtain ⟨h1, h2⟩ := key _ hmask b
  have hne : p.ctrlOnMask ||| b.setWidth 8 ≠ p.ctrlOff := by
    intro he
    simp only [Params.distinct, Bool.and_eq_true, bne_iff_ne] at hd
    exact hd.1.2 (by rw [← he, h1])
  simp only [decode, decodeCtrlb, if_pos (p.ctrlOnMask ||| b.setWidth 8).isLt, BitVec.ofNat_toNat, BitVec.setWidth_eq,
    if_neg hne, h1, if_true, h2]

theorem ctrlOff : Statement (.ctrlOff) := by
  intro p c _ _ _ h
  cases h
  simp only [decode, decodeCtrlb, if_pos p.ctrlOff.isLt, BitVec.ofNat_toNat, BitVec.setWidth_eq, if_true]

theorem seg0 (ind : Bool) : Statement (.seg0 ind) := by
  exact fun _ _ hp _ hd h => decode_segCode hp hd h

theorem seg1 (ind : Bool) : Statement (.seg1 ind) := by
  exact fun _ _ hp _ hd h => decode_segCode hp hd h

theorem seg2 (ind : Bool) : Statement (.seg2 ind) := by
  exact fun _ _ hp _ hd h => decode_segCode hp hd h

theorem seg3 (ind : Bool) : Statement (.seg3 ind) := by
  exact fun _ _ hp _ hd h => decode_segCode hp hd h

theorem seg4 (ind : Bool) : Statement (.seg4 ind) := by
  exact fun _ _ hp _ hd h => decode_segCode hp hd h

theorem seg5 (ind : Bool) : Statement (.seg5 ind) := by
  exact fun _ _ hp _ hd h => decode_segCode hp hd h

theorem seg6 (ind : Bool) : Statement (.seg6 ind) := by
  exact fun _ _ hp _ hd h => decode_segCode hp hd h

theorem seg7 (ind : Bool) : Statement (.seg7 ind) := by
  exact fun _ _ hp _ hd h => decode_segCode hp hd h

theorem seg8 (ind : Bool) : Statement (.seg8 ind) := by
  exact fun _ _ hp _ hd h => decode_segCode hp hd h

theorem seg9 (ind : Bool) : Statement (.seg9 ind) := by
  exact fun _ _ hp _ hd h => decode_segCode hp hd h

theorem seg (d : Digit) : Statement (.seg d) := by
  intro p c _ _ _ h
  cases h

theorem ind (b : Byte) (bit : Bool) : Statement (.ind b bit) := by
  intro p c _ _ _ h
  cases h

theorem enc (ds : List Digit) (bit : Bool) : Statement (.enc ds bit) := by
  intro p c _ _ _ h
  cases h

theorem dec (v : Word32) : Statement (.dec v) := by
  intro p c _ _ _ h
  cases h

theorem ctrl : Statement (.ctrl) := by
  intro p c _ _ _ h
  cases h

theorem frame : Statement (.frame) := by
  intro p c _ _ _ h
  cases h

theorem phaseC (c : Byte) : Statement (.phaseC c) := by
  intro p c _ _ _ h
  cases h

end Sys2Proof.Laws.Coding
end

