-- ==== Sys2Proof/Laws/Sends.lean ====
section
/-!
SUPPORT. A send from its resolved payload on: what the frame and the end of the command leave when no line action fails and
every byte is acknowledged.
-/
namespace Sys2Proof.Machine

/-- SEND_BYTES whose checks pass (43_framing.md R193). -/
theorem beginSendBytes_ok {len : BitVec 4} {arg : HostArg} {s : State} (hl : s.life = .live)
    (hn : len.toNat ≤ s.cfg.payloadMax) :
    beginSendBytes len arg s = .go ((loadPayload (items len arg) s).position .sendBytes .a .start) := by
  rw [beginSendBytes, requireLive, if_pos hl, if_neg (Nat.not_lt.mpr hn)]

/-- SEND_DIGITS whose checks pass (43_framing.md R194). -/
theorem beginSendDigits_ok {bit : Bool} {len : BitVec 4} {arg : HostArg} {ds : List Digit} {s : State}
    (hl : s.life = .live) (hn : len.toNat ≤ s.cfg.payloadMax) (hd : digitsOf (items len arg) = some ds) :
    beginSendDigits bit len arg s = .go ((loadPayload (enc s.cfg ds bit) s).position .sendDigits .a .start) := by
  rw [beginSendDigits, requireLive, if_pos hl, if_neg (Nat.not_lt.mpr hn), hd]

/-- SEND_NUMBER whose checks pass (43_framing.md R195). -/
theorem beginSendNumber_ok {v : Word32} {s : State} (hl : s.life = .live) (hn : (dec v).length ≤ s.cfg.payloadMax) :
    beginSendNumber v s = .go ((loadPayload ((dec v).map (seg s.cfg)) s).position .sendNumber .a .start) := by
  rw [beginSendNumber, requireLive, if_pos hl, if_neg (Nat.not_lt.mpr hn)]

/-- The count check of SEND_NUMBER is a bound on the number (30_encoding.md R104). -/
theorem dec_fits {p : Params} (hp : p.ok = true) (v : Word32) :
    (dec v).length ≤ p.payloadMax ↔ v.toNat < 10 ^ p.payloadMax :=
  (dec_spec v).2.2.2.2.2 _ (params_ok_iff.mp hp).2.2.2.2.1

/-- The frame and the end of a send whose payload is `bs` (43_framing.md R193 to R195). -/
theorem send_runs (c : CmdName) (hc : c = .sendBytes ∨ c = .sendDigits ∨ c = .sendNumber) (bs : List Byte) (w : FrameWaits) (s : State)
    (hl : bs.length ≤ s.cfg.payloadMax) (hl' : bs.length ≤ 15) (hw : w.kp.length = bs.length) (h : s.ackedFrame w) :
    ∃ t, (((frame ((loadPayload bs s).position c .a .start)).bind finish).state) = t ∧
      t.tr = s.tr ++ Wire.frame s.cfg bs (s.cfg.ctrlOnMask ||| s.br.setWidth 8) w ∧
      (∀ i (h : i < 15) b, bs[i]? = some b → t.pb[i] = b) ∧
      t.plen = BitVec.ofNat 4 bs.length ∧ t.pi = BitVec.ofNat 4 bs.length ∧ t.sr = 0 ∧ t.bc = 8 ∧ t.ac = BitVec.ofNat 8 (w.kc + 1) ∧
      t.clk = .hi ∧ t.dio = .hi ∧ t.clkO = true ∧ t.dioO = true ∧ t.en = true ∧ t.lf = s.lf ∧
      responded s t ⟨.ok, none⟩ ∧ keepsControl s t := by
  have hplen : (((loadPayload bs s).position c .a .start)).plen.toNat = bs.length := by
    change (BitVec.ofNat 4 bs.length).toNat = _
    rw [BitVec.toNat_ofNat, Nat.mod_eq_of_lt (by omega)]
  have hacked : ((loadPayload bs s).position c .a .start).ackedFrame w := by
    obtain ⟨h1, h2, h3⟩ := h
    exact ⟨State.ackedTransmission_congr (s := s) (fun i => by simp) h1, State.ackedTransmission_congr (s := s) (fun i => by simp) h2, State.ackedTransmission_congr (s := s) (fun i => by simp) h3⟩
  have hrun := frame_acked (w := w) (by rw [hplen]; exact hw) hacked
  generalize hT : ((loadPayload bs s).position c .a .start).frameSent w = T at hrun
  have hcmd : T.seq.cmd = .sendBytes ∨ T.seq.cmd = .sendDigits ∨ T.seq.cmd = .sendNumber ∨ T.seq.cmd = .enable := by
    rw [← hT]; rcases hc with rfl | rfl | rfl <;> simp [State.frameSent]
  refine ⟨State.answeredOk (anyErr T.cfg (Config.freeNat T.fresh 0)) { T with en := true }, ?_, ?_⟩
  · rw [hrun, Flow.go_bind, finish, Flow.ended_state, finishCommand_on hcmd]
  have hpay : ((loadPayload bs s).position c .a .start).payload = bs := by
    rw [State.payload, hplen]
    apply List.ext_getElem
    · simp
    · intro i h1 h2
      have hi : i < bs.length := by simpa using h1
      simp only [List.getElem_map, List.getElem_range, State.pbAt]
      rw [dif_pos ⟨show i < 15 by omega, show i < s.cfg.payloadMax by omega⟩]
      simp [loadPayload, hi]
  have hkeep : T.cfg = s.cfg ∧ T.br = s.br ∧ T.life = s.life ∧ T.cmd = s.cmd ∧ T.host = s.host ∧ T.lf = s.lf ∧
      T.responses = s.responses ∧ T.pb = (loadPayload bs s).pb ∧ T.plen = BitVec.ofNat 4 bs.length ∧
      T.tr = s.tr ++ Wire.frame s.cfg bs (ctrl s.cfg s.br) w := by
    rw [← hT]; simp [State.frameSent, hpay]
  have hlines : T.pi = T.plen ∧ T.sr = 0 ∧ T.bc = 8 ∧ T.ac = BitVec.ofNat 8 (w.kc + 1) ∧ T.clk = .hi ∧ T.dio = .hi ∧
      T.clkO = true ∧ T.dioO = true := by
    rw [← hT]; simp [State.frameSent]
  obtain ⟨-, h2, h3, h4, h5, h6, h7, h8, h9, h10⟩ := hkeep
  obtain ⟨k1, k2, k3, k4, k5, k6, k7, k8⟩ := hlines
  refine ⟨h10, ?_, h9, k1.trans h9, k2, k3, k4, k5, k6, k7, k8, rfl, h6, ⟨rfl, rfl, congrArg (· ++ _) h7, rfl⟩, ⟨h3, h2, h4, h5⟩⟩
  intro i hi b hb
  change T.pb[i] = b
  simp [h8, loadPayload, hb]

end Sys2Proof.Machine
end

