-- ==== Sys2Proof/Laws/Step.lean ====
section
/-!
SUPPORT. Everything a step can do, said once: what a command does at acceptance, what the sequencer's move can be, and the
four shapes of a step.
-/
namespace Sys2Proof.Machine

/-- What a host command does before its first line action, as one of five shapes. -/
inductive Begun (i : Instr) (s : State) : Flow → Prop where
  | refused (x : Exn) (hx : x = .badBrightness ∨ x = .badDigit ∨ x = .badLength ∨ x = .badLifecycle) :
    Begun i s (.ended (refusedWith x s))
  | brightness (b : Byte) (hi : i = .setBrightness b) (hb : b.toNat ≤ 7) (hl : s.life = .live) :
    Begun i s (.ended (respondOk (s.setBr (b.setWidth 3))))
  | init (hi : i = .init) (hl : s.life = .unbuilt) : Begun i s (.go (s.clearFault.position .init .none .initSeq))
  | send (c : CmdName) (bs : List Byte)
    (hc : (∃ len arg, i = .sendBytes len arg ∧ c = .sendBytes) ∨
      (∃ bit len arg, i = .sendDigits bit len arg ∧ c = .sendDigits) ∨ ∃ v, i = .sendNumber v ∧ c = .sendNumber)
    (hb : bs.length ≤ s.cfg.payloadMax) (hl : s.life = .live) : Begun i s (.go ((loadPayload bs s).position c .a .start))
  | control (c : CmdName)
    (hc : i = .enable ∧ c = .enable ∨ i = .disable ∧ c = .disable ∨ i = .teardown ∧ c = .teardown)
    (hl : s.life = .live) : Begun i s (.go (s.position c .c .start))

theorem refused_eq {x : Exn} (s : State)
    (hx : x = .badBrightness ∨ x = .badDigit ∨ x = .badLength ∨ x = .badLifecycle) :
    Flow.raise x s = .ended (refusedWith x s) := by
  rcases hx with rfl | rfl | rfl | rfl <;> rfl

theorem requireLive_cases {i : Instr} {s : State} {k : State → Flow} (hk : s.life = .live → Begun i s (k s)) :
    Begun i s (requireLive s k) := by
  rw [requireLive]
  split
  · rename_i h; exact hk h
  · rw [refused_eq s (by simp)]; exact .refused .badLifecycle (by simp)

theorem decodeHost_isHostCommand (w : HostWord) : (decodeHost w).isHostCommand = true := by
  simp only [decodeHost]; split <;> rfl

/-- Every host command begins in one of the five shapes. -/
theorem begun {i : Instr} (hi : i.isHostCommand = true) (s : State) : ∃ f, beginCommand i s = some f ∧ Begun i s f := by
  cases i <;> simp only [Instr.isHostCommand, Bool.false_eq_true] at hi
  case init =>
    refine ⟨_, rfl, ?_⟩
    rw [beginInit]
    split
    · rw [refused_eq s (by simp)]; exact .refused .badLifecycle (by simp)
    · rename_i h
      refine .init rfl ?_
      cases hl : s.life with
      | unbuilt => rfl
      | live => exact absurd hl h
  case sendBytes len arg =>
    refine ⟨_, rfl, requireLive_cases fun hl => ?_⟩
    split
    · rw [refused_eq s (by simp)]; exact .refused .badLength (by simp)
    · rename_i h; exact .send _ _ (.inl ⟨_, _, rfl, rfl⟩) (by simpa [items] using h) hl
  case sendDigits bit len arg =>
    refine ⟨_, rfl, requireLive_cases fun hl => ?_⟩
    split
    · rw [refused_eq s (by simp)]; exact .refused .badLength (by simp)
    · rename_i h
      split
      · rw [refused_eq s (by simp)]; exact .refused .badDigit (by simp)
      · rename_i ds hd
        exact .send _ _ (.inr (.inl ⟨_, _, _, rfl, rfl⟩))
          (by simp only [enc, List.length_map, digitsOf_length hd]; simpa [items] using h) hl
  case sendNumber v =>
    refine ⟨_, rfl, requireLive_cases fun hl => ?_⟩
    split
    · rw [refused_eq s (by simp)]; exact .refused .badLength (by simp)
    · rename_i h; exact .send _ _ (.inr (.inr ⟨_, rfl, rfl⟩)) (by simpa using h) hl
  case enable => exact ⟨_, rfl, requireLive_cases fun hl => .control _ (.inl ⟨rfl, rfl⟩) hl⟩
  case disable => exact ⟨_, rfl, requireLive_cases fun hl => .control _ (.inr (.inl ⟨rfl, rfl⟩)) hl⟩
  case teardown => exact ⟨_, rfl, requireLive_cases fun hl => .control _ (.inr (.inr ⟨rfl, rfl⟩)) hl⟩
  case setBrightness b =>
    refine ⟨_, rfl, requireLive_cases fun hl => ?_⟩
    split
    · rw [refused_eq s (by simp)]; exact .refused .badBrightness (by simp)
    · rename_i h; exact .brightness b rfl (by simp only [Config.brMax] at h; omega) hl

/-- What a command does at acceptance leaves the parameters, the trace, `CMD` and the port. -/
theorem Begun.frame {i : Instr} {s : State} {f : Flow} (h : Begun i s f) :
    f.state.cfg = s.cfg ∧ f.state.tr = s.tr ∧ f.state.cmd = s.cmd ∧ f.state.host = s.host := by
  cases h <;> simp [Flow.state, refusedWith, respondOk]

/-- The sequencer's move within a command: `SEQ` and the counters, and nothing else. -/
def Moved (s t : State) : Prop :=
  t = { s with seq := t.seq, sr := t.sr, bc := t.bc, ac := t.ac, pi := t.pi } ∧ t.seq.cmd = s.seq.cmd

/-- What the sequencer's move can be. -/
theorem advance_cases (s : State) :
    Moved s (advance s) ∨ advance s = raise .ackTimeout s ∨ advance s = finishCommand s := by
  have moved : ∀ t : State, t = { s with seq := t.seq, sr := t.sr, bc := t.bc, ac := t.ac, pi := t.pi } →
      t.seq.cmd = s.seq.cmd → Moved s t ∨ t = raise .ackTimeout s ∨ t = finishCommand s := fun t h h' => .inl ⟨h, h'⟩
  have hbyte : ∀ v, Moved s (enterByte v s) := fun v => ⟨rfl, rfl⟩
  have hstop : Moved s (enterStop s) := ⟨rfl, rfl⟩
  have hhead : ∀ u : State, Moved s u → Moved s (payloadHead u) := by
    intro u ⟨h1, h2⟩
    rw [payloadHead]
    split
    · exact ⟨by rw [h1]; rfl, h2⟩
    · exact ⟨by rw [h1]; rfl, h2⟩
  simp only [advance]
  split
  · split
    · exact moved _ rfl rfl
    · refine .inl ?_
      simp only [afterStart]
      split
      · exact hbyte _
      · exact hbyte _
      · exact hbyte _
      · exact ⟨rfl, rfl⟩
  · split
    · exact moved _ rfl rfl
    · simp only [afterStop]
      split
      · exact moved _ rfl rfl
      · exact moved _ rfl rfl
      · exact .inr (.inr rfl)
      · exact .inr (.inr rfl)
  · split
    · exact moved _ rfl rfl
    · exact .inr (.inr rfl)
  · split
    · split
      · exact moved _ rfl rfl
      · exact moved _ rfl rfl
    · split
      · exact moved _ rfl rfl
      · refine .inl ?_
        simp only [afterByte]
        split
        · refine hhead _ ?_
          split
          · exact ⟨rfl, rfl⟩
          · exact ⟨rfl, rfl⟩
        · exact hstop
        · exact hstop
        · exact hstop
  · split
    · exact moved _ rfl rfl
    · split
      · split
        · exact .inr (.inl rfl)
        · exact moved _ rfl rfl
      · split
        · exact moved _ rfl rfl
        · exact moved _ rfl rfl
  · exact moved _ rfl rfl

theorem advance_cfg (s : State) : (advance s).cfg = s.cfg := by
  rcases advance_cases s with ⟨h, _⟩ | h | h
  · rw [h]
  · rw [h, raise_cfg]
  · rw [h, finishCommand_cfg]

/-- The shapes of a step that answers a next state. -/
inductive Stepped (s : State) : State → Prop where
  /-- the idle engine with no word at the port -/
  | rest (hi : s.seq.cmd = .idle) (hh : s.host = []) : Stepped s s.dropResponse
  /-- acceptance -/
  | accept (w : HostWord) (rest : List HostWord) (f : Flow) (hi : s.seq.cmd = .idle) (hh : s.host = w :: rest)
    (hf : beginCommand (decodeHost (s.cfg.onPort w)) (s.capture (s.cfg.onPort w) rest) = some f)
    (hb : Begun (decodeHost (s.cfg.onPort w)) (s.capture (s.cfg.onPort w) rest) f) :
    Stepped s f.state
  /-- a line action that ended the command -/
  | stopped (a : Act) (t : State) (hc : s.seq.cmd ≠ .idle) (ha : currentAct s = some a) (hp : a.perform s = .ended t) :
    Stepped s t
  /-- a line action and the sequencer's move -/
  | moved (a : Act) (u : State) (hc : s.seq.cmd ≠ .idle) (ha : currentAct s = some a) (hp : a.perform s = .go u) :
    Stepped s (advance u)

theorem step_cases {s t : State} (h : step s = .next t) : Stepped s t := by
  by_cases hi : s.seq.cmd = .idle
  · cases hh : s.host with
    | nil =>
      have : step s = .next s.dropResponse := by simp only [step, stepEngine, if_pos hi, acceptStep, hh]
      rw [this] at h
      cases h
      exact .rest hi hh
    | cons w rest =>
      obtain ⟨f, hf, hb⟩ := begun (decodeHost_isHostCommand (s.cfg.onPort w)) (s.capture (s.cfg.onPort w) rest)
      rw [step_accept hi hh hf] at h
      cases h
      exact .accept w rest f hi hh hf hb
  · cases ha : currentAct s with
    | none =>
      rw [step, stepEngine, if_neg hi, lineStep, ha] at h
      cases h
    | some a =>
      rw [step_busy hi ha] at h
      cases h
      cases hp : a.perform s with
      | go u => exact .moved a u hi ha hp
      | ended u => exact .stopped a u hi ha hp

end Sys2Proof.Machine
end

