-- ==== Sys2Proof/Tests/Slice0.lean ====
section
/-!
SUPPORT. The model's own tests: well-formedness, decoding of words written out from the spec's encodings, one step of each
operation against the worked vectors of spec/95_test_vectors.md, and for every obligation with hypotheses a concrete state
and operands that meet them.
-/
namespace Sys2Proof.Tests
open Sys2Proof Sys2Proof.Machine

/-! ### Helpers -/

/-- The default parameters, with an error value for every number. -/
def plain : Params := { Params.default with errors := none }

/-- An instantiation with `PAYLOAD_MAX = 10`, other command bytes and a platform whose pins cannot fail (spec/00_scope.md R10
to R12). -/
def wide : Params := { Params.default with payloadMax := 10, dataCmd := 0x44, addrCmd := 0xC3, errors := some 0 }

/-- Power-on, with scripted draws. -/
def poweredOn (draws : List Draw) : State := { State.reset with cfg := plain, draws := draws }

/-- An instance (`LIFE = LIVE`, `BR = 3`, both lines high) whose next draws are scripted. -/
def live (draws : List Draw) : State :=
  { poweredOn draws with life := .live, br := 3, en := true, clk := .hi, dio := .hi, clkO := true, dioO := true }

/-- The engine inside the routine `r` of phase (a) of a send. -/
def busy (r : Routine) (n : Nat) (draws : List Draw) : State :=
  { live draws with seq := ⟨.sendBytes, .a, r, n, false⟩ }

/-- The engine inside the disable of TEARDOWN. -/
def dying (draws : List Draw) : State := { live draws with seq := ⟨.teardown, .c, .start, 0, false⟩ }

/-- The always-acknowledging device (spec/20_memory.md R72), for `n` line actions. -/
def acks (n : Nat) : List Draw := List.replicate n (.ok false)

/-- The absent device (spec/20_memory.md R72), for `n` line actions. -/
def absent (n : Nat) : List Draw := List.replicate n (.ok true)

/-- An error value. -/
def oops : ErrVal := ⟨5⟩

/-- `n` line actions that succeed and then one that fails. -/
def failsAfter (n : Nat) : List Draw := acks n ++ [.err oops]

/-- A property of the next state; false of a fault and of a refusal. -/
def holds (o : Host.Outcome State Fault Refusal) (p : State → Bool) : Bool :=
  match o with
  | .next t => p t
  | .fault _ => false
  | .refused _ => false

/-! ### Well-formedness -/

theorem test_wellFormed_phaseC_on : Instr.wellFormed .default (.phaseC 0x8F) = true := by decide

theorem test_wellFormed_phaseC_off : Instr.wellFormed .default (.phaseC 0x80) = true := by decide

theorem test_illFormed_phaseC_data : Instr.wellFormed .default (.phaseC 0x40) = false := by decide

theorem test_illFormed_phaseC_above : Instr.wellFormed .default (.phaseC 0x90) = false := by decide

/-- 30_encoding.md R91: an operand wider than the instantiation's field. -/
theorem test_illFormed_operand : Instr.wellFormed .default (.sendBytes 5 (2 ^ 32)) = false ∧
    Instr.wellFormed .default (.sendDigits true 5 (2 ^ 32)) = false := by decide

theorem test_wellFormed_rejectable : Instr.wellFormed .default (.setBrightness 8) = true := by decide

/-! ### Decoding: words written out from spec/30_encoding.md and the examples of the commands' rules -/

/-- 44_lifecycle.md R210. -/
theorem test_decode_init : decode .default ⟨.hostw, 0x0000000000⟩ = .ok .init := by decide

/-- 43_framing.md R193. -/
theorem test_decode_sendBytes : decode .default ⟨.hostw, 0x0000063F21⟩ = .ok (.sendBytes 2 0x063F) := by decide

/-- 43_framing.md R194. -/
theorem test_decode_sendDigits : decode .default ⟨.hostw, 0x040302014A⟩ = .ok (.sendDigits true 4 0x04030201) := by decide

/-- 43_framing.md R195. -/
theorem test_decode_sendNumber : decode .default ⟨.hostw, 0x0000059803⟩ = .ok (.sendNumber 1432) := by decide

/-- 44_lifecycle.md R211. -/
theorem test_decode_enable : decode .default ⟨.hostw, 0x0000000004⟩ = .ok .enable := by decide

/-- 44_lifecycle.md R212. -/
theorem test_decode_disable : decode .default ⟨.hostw, 0x0000000005⟩ = .ok .disable := by decide

/-- 44_lifecycle.md R213. -/
theorem test_decode_setBrightness : decode .default ⟨.hostw, 0x0000000806⟩ = .ok (.setBrightness 8) := by decide

/-- 44_lifecycle.md R215. -/
theorem test_decode_teardown : decode .default ⟨.hostw, 0x0000000007⟩ = .ok .teardown := by decide

/-- 30_encoding.md R91: fields a command does not use are not looked at. -/
theorem test_decode_ignored : decode .default ⟨.hostw, 0xFFFFFFFFFC⟩ = .ok .enable := by decide

theorem test_decode_hostw_tooWide : decode .default ⟨.hostw, 0x10000000000⟩ = .error .tooWide := by decide

/-- 30_encoding.md R100: the eight codes, in order. -/
theorem test_decode_uop : (List.range 8).map (fun n => decode .default ⟨.uop, n⟩) =
    [.ok .clkLo, .ok .clkHi, .ok .dioLo, .ok .dioHi, .ok .dioSample, .ok .waitHalf, .ok .waitFull, .error .reservedUop] := by
  decide

theorem test_decode_uop_tooWide : decode .default ⟨.uop, 8⟩ = .error .tooWide := by decide

/-- 30_encoding.md R101: the four ids; the operand's place is log 9. -/
theorem test_decode_top : [0, 1, 0x4002, 3].map (fun n => decode .default ⟨.top, n⟩) =
    [.ok .start, .ok .stop, .ok (.sendByte 0x40), .ok .waitAck] := by decide

theorem test_decode_top_stray : decode .default ⟨.top, 0x0103⟩ = .error .strayOperand := by decide

theorem test_decode_top_tooWide : decode .default ⟨.top, 4⟩ = .error .tooWide := by decide

/-- 30_encoding.md R98. -/
theorem test_decode_cmdb : [0x40, 0xC0, 0x41].map (fun n => decode .default ⟨.cmdb, n⟩) =
    [.ok .dataCmd, .ok .addrCmd, .error .notACommandByte] := by decide

/-- 30_encoding.md R97; `BR = 5` is the example of 42_encoders.md R176. -/
theorem test_decode_ctrlb : [0x80, 0x88, 0x8D, 0x8F, 0x90].map (fun n => decode .default ⟨.ctrlb, n⟩) =
    [.ok .ctrlOff, .ok (.ctrlOn 0), .ok (.ctrlOn 5), .ok (.ctrlOn 7), .error .notAControlByte] := by decide

/-- 30_encoding.md R96, the column without indicator. -/
theorem test_decode_segb_plain :
    [0x3F, 0x06, 0x5B, 0x4F, 0x66, 0x6D, 0x7D, 0x07, 0x7F, 0x6F].map (fun n => decode .default ⟨.segb, n⟩) =
      [.ok (.seg0 false), .ok (.seg1 false), .ok (.seg2 false), .ok (.seg3 false), .ok (.seg4 false), .ok (.seg5 false),
        .ok (.seg6 false), .ok (.seg7 false), .ok (.seg8 false), .ok (.seg9 false)] := by decide

/-- 30_encoding.md R96, the column with indicator. -/
theorem test_decode_segb_indicator :
    [0xBF, 0x86, 0xDB, 0xCF, 0xE6, 0xED, 0xFD, 0x87, 0xFF, 0xEF].map (fun n => decode .default ⟨.segb, n⟩) =
      [.ok (.seg0 true), .ok (.seg1 true), .ok (.seg2 true), .ok (.seg3 true), .ok (.seg4 true), .ok (.seg5 true),
        .ok (.seg6 true), .ok (.seg7 true), .ok (.seg8 true), .ok (.seg9 true)] := by decide

/-- 30_encoding.md R96: the other shape of 6 is not in the default table. -/
theorem test_decode_segb_reject : decode .default ⟨.segb, 0x7C⟩ = .error .notASegmentByte := by decide

theorem test_encode_sendNumber : encode .default (.sendNumber 9999) = some ⟨.hostw, 0x0000270F03⟩ := by decide

theorem test_encode_setBrightness : encode .default (.setBrightness 255) = some ⟨.hostw, 0x000000FF06⟩ := by decide

theorem test_encode_seg5 : encode .default (.seg5 true) = some ⟨.segb, 0xED⟩ := by decide

theorem test_encode_ctrl : encode .default .ctrl = none := by decide

/-! ### Table words -/

theorem test_table_hostw : decodeTableWord 40 0x0403020142 = some (.sendDigits false 4 0x04030201) := by decide

theorem test_table_uop : decodeTableWord 3 4 = some .dioSample := by decide

theorem test_table_top : decodeTableWord 2 3 = some .waitAck := by decide

theorem test_table_wire : [0x40, 0x8D, 0x80, 0xE6].map (decodeTableWord 8) =
    [some .dataCmd, some (.ctrlOn 5), some .ctrlOff, some (.seg4 true)] := by decide

theorem test_table_none : decodeTableWord 0 0 = none := by decide

/-- The word of INIT, presented after reset, is taken by the next step: its first line action is step 0 of INIT. -/
theorem test_fetch_init :
    holds (step (State.reset.withFetchWord 40 0)) (fun t => t.seq == ⟨.init, .none, .initSeq, 0, false⟩ && t.cmd == 0) = true := by
  decide

/-- The code of DIO_LO, presented after reset: the next step performs that action. -/
theorem test_fetch_dioLo : currentAct (State.reset.withFetchWord 3 2) = some .dioLo := by decide

/-- The byte 0xC0, presented after reset: the next step drives its bit 0. -/
theorem test_fetch_addrCmd : (State.reset.withFetchWord 8 0xC0).sr = 0xC0 ∧
    currentAct (State.reset.withFetchWord 8 0xC0) = some .dioLo := by decide

/-! ### One operation each, against the vectors of spec/95_test_vectors.md -/

/-- V2: the level already there. -/
theorem test_clkLo : holds (exec .clkLo (busy .stop 0 (acks 1))) (fun t => t.clk == .lo && t.tr == [.c0] && !t.lf) = true := by
  decide

/-- V10. -/
theorem test_clkHi_fails : holds (exec .clkHi (busy .start 0 (failsAfter 0)))
    (fun t => t.clk == .x && t.lf && t.tr == [.c1e oops] && t.st == .lineFault && t.errv == oops && t.cmdReady) = true := by
  decide

/-- V4. -/
theorem test_dioLo : holds (exec .dioLo (busy .start 3 (acks 1))) (fun t => t.dio == .lo && !t.dioO && t.tr == [.d0]) = true := by
  decide

/-- V5. -/
theorem test_dioHi : holds (exec .dioHi (busy .start 1 (acks 1))) (fun t => t.dio == .hi && t.dioO && t.tr == [.d1]) = true := by
  decide

/-- V6: the device holds the wire low. -/
theorem test_dioSample_low : holds (exec .dioSample (busy .waitAck 0 (acks 1)))
    (fun t => t.dio == .hi && t.ret == .bit false && t.tr == [.s0]) = true := by decide

/-- V11. -/
theorem test_dioSample_fails : holds (exec .dioSample (busy .waitAck 0 (failsAfter 0)))
    (fun t => t.dio == .hi && t.clk == .hi && t.lf && t.tr == [.se oops] && t.st == .lineFault) = true := by decide

/-- V8. -/
theorem test_waitHalf : holds (exec .waitHalf (busy .start 6 [])) (fun t => t.tr == [.wh] && t.drawn == 0) = true := by decide

/-- V9. -/
theorem test_waitFull : holds (exec .waitFull (busy .start 2 [])) (fun t => t.tr == [.wf] && t.drawn == 0) = true := by decide

/-- V12. -/
theorem test_start : holds (exec .start (busy .start 0 (acks 4)))
    (fun t => t.clk == .lo && t.dio == .lo && t.tr == [.c1, .d1, .wf, .d0, .wf, .c0, .wh]) = true := by decide

/-- V13. -/
theorem test_stop : holds (exec .stop (busy .stop 0 (acks 4)))
    (fun t => t.clk == .hi && t.dio == .hi && t.tr == [.c0, .wf, .d0, .wf, .c1, .wf, .d1, .wf]) = true := by decide

/-- The trace of a byte slot acknowledged at once, from its bits in the order they are sent (30_encoding.md R94). -/
def slotOf (bits : List Bool) : List Tok :=
  (bits.map fun b => [if b then Tok.d1 else Tok.d0, .wh, .c1, .wf, .c0, .wh]).flatten ++ [.d1, .s0, .wf, .c1, .wf, .c0, .wh]

/-- V14: 0x40 is 0,0,0,0,0,0,1,0 on the wire. -/
theorem test_sendByte : holds (exec (.sendByte 0x40) (busy .sendByte 0 (acks 28)))
    (fun t => t.sr == 0 && t.bc == 8 && t.ac == 1 && t.clk == .lo && t.dio == .hi && t.tr.length == 55 &&
      t.tr == slotOf [false, false, false, false, false, false, true, false]) = true := by decide

/-- V23: the clock drive of bit 3 fails. -/
theorem test_sendByte_fails : holds (exec (.sendByte 0x40) (busy .sendByte 0 (failsAfter 10)))
    (fun t => t.sr == 0x08 && t.bc == 3 && t.clk == .x && t.dio == .lo && t.lf && t.tr.length == 21) = true := by decide

/-- V19. -/
theorem test_waitAck : holds (exec .waitAck (busy .waitAck 0 [.ok true, .ok true, .ok false, .ok false, .ok false]))
    (fun t => t.ac == 3 && t.clk == .lo && t.tr == [.s1, .wf, .s1, .wf, .s0, .wf, .c1, .wf, .c0]) = true := by decide

/-- V22. -/
theorem test_waitAck_fails : holds (exec .waitAck (busy .waitAck 0 [.ok true, .err oops]))
    (fun t => t.ac == 1 && t.lf && t.tr == [.s1, .wf, .se oops] && t.st == .lineFault) = true := by decide

/-- The wire bytes, their bits written out from 30_encoding.md R96 to R98, least significant bit first. -/
theorem test_dataCmd : holds (exec .dataCmd (busy .sendByte 0 (acks 28)))
    (fun t => t.tr == slotOf [false, false, false, false, false, false, true, false]) = true := by decide

theorem test_addrCmd : holds (exec .addrCmd (busy .sendByte 0 (acks 28)))
    (fun t => t.tr == slotOf [false, false, false, false, false, false, true, true]) = true := by decide

theorem test_ctrlOn : holds (exec (.ctrlOn 5) (busy .sendByte 0 (acks 28)))
    (fun t => t.tr == slotOf [true, false, true, true, false, false, false, true]) = true := by decide

theorem test_ctrlOff : holds (exec .ctrlOff (busy .sendByte 0 (acks 28)))
    (fun t => t.tr == slotOf [false, false, false, false, false, false, false, true]) = true := by decide

theorem test_seg0 : holds (exec (.seg0 false) (busy .sendByte 0 (acks 28)))
    (fun t => t.tr == slotOf [true, true, true, true, true, true, false, false]) = true := by decide

theorem test_seg1 : holds (exec (.seg1 true) (busy .sendByte 0 (acks 28)))
    (fun t => t.tr == slotOf [false, true, true, false, false, false, false, true]) = true := by decide

theorem test_seg2 : holds (exec (.seg2 false) (busy .sendByte 0 (acks 28)))
    (fun t => t.tr == slotOf [true, true, false, true, true, false, true, false]) = true := by decide

theorem test_seg3 : holds (exec (.seg3 true) (busy .sendByte 0 (acks 28)))
    (fun t => t.tr == slotOf [true, true, true, true, false, false, true, true]) = true := by decide

theorem test_seg4 : holds (exec (.seg4 false) (busy .sendByte 0 (acks 28)))
    (fun t => t.tr == slotOf [false, true, true, false, false, true, true, false]) = true := by decide

theorem test_seg5 : holds (exec (.seg5 true) (busy .sendByte 0 (acks 28)))
    (fun t => t.tr == slotOf [true, false, true, true, false, true, true, true]) = true := by decide

theorem test_seg6 : holds (exec (.seg6 false) (busy .sendByte 0 (acks 28)))
    (fun t => t.tr == slotOf [true, false, true, true, true, true, true, false]) = true := by decide

theorem test_seg7 : holds (exec (.seg7 true) (busy .sendByte 0 (acks 28)))
    (fun t => t.tr == slotOf [true, true, true, false, false, false, false, true]) = true := by decide

theorem test_seg8 : holds (exec (.seg8 false) (busy .sendByte 0 (acks 28)))
    (fun t => t.tr == slotOf [true, true, true, true, true, true, true, false]) = true := by decide

theorem test_seg9 : holds (exec (.seg9 true) (busy .sendByte 0 (acks 28)))
    (fun t => t.tr == slotOf [true, true, true, true, false, true, true, true]) = true := by decide

/-- 42_encoders.md R170. -/
theorem test_seg : holds (exec (.seg 4) State.reset) (fun t => t.ret == .byte 0x66) = true := by decide

/-- 42_encoders.md R171. -/
theorem test_ind : holds (exec (.ind 0x5B true) State.reset) (fun t => t.ret == .byte 0xDB) = true := by decide

/-- 42_encoders.md R172. -/
theorem test_enc : holds (exec (.enc [1, 2, 3, 4] true) State.reset) (fun t => t.ret == .bytes [0x86, 0xDB, 0xCF, 0xE6]) = true := by
  decide

/-- The empty sequence. -/
theorem test_enc_empty : holds (exec (.enc [] true) State.reset) (fun t => t.ret == .bytes []) = true := by decide

/-- V35. -/
theorem test_dec : holds (exec (.dec 1002) State.reset) (fun t => t.ret == .digits [1, 0, 0, 2]) = true := by decide

/-- V39. -/
theorem test_dec_top : holds (exec (.dec 0xFFFFFFFF) State.reset)
    (fun t => t.ret == .digits [4, 2, 9, 4, 9, 6, 7, 2, 9, 5]) = true := by decide

/-- V45. -/
theorem test_ctrl : holds (exec .ctrl { live [] with br := 5 }) (fun t => t.ret == .byte 0x8D) = true := by decide

/-- Phase (a) is 70 line actions (V72's count), and phase (b) begins with the clock drive of a start condition. -/
theorem test_frame : holds (exec .frame (busy .start 0 (failsAfter 36)))
    (fun t => t.tr.length == 71 && t.tr.getLast? == some (.c1e oops) && t.clk == .x && t.dio == .hi) = true := by decide

/-- 43_framing.md R191: 70 line actions. -/
theorem test_phaseC : holds (exec (.phaseC 0x80) (busy .start 0 (acks 36)))
    (fun t => t.tr.length == 70 && t.clk == .hi && t.dio == .hi) = true := by decide

/-- V67. -/
theorem test_init : holds (exec .init (poweredOn (acks 2)))
    (fun t => t.life == .live && t.clk == .hi && t.dio == .hi && t.en && !t.lf && t.st == .ok && t.tr == [.c1, .d1, .wf]) = true := by
  decide

/-- V68. -/
theorem test_init_fails : holds (exec .init (poweredOn (failsAfter 1)))
    (fun t => t.life == .unbuilt && t.clk == .hi && t.dio == .x && !t.en && t.lf && t.st == .lineFault && t.br == 0 &&
      t.tr == [.c1, .d1e oops]) = true := by decide

/-- V62: the clock drive of bit 3 of the first byte fails. -/
theorem test_sendBytes : holds (exec (.sendBytes 1 0x3F) (live (failsAfter 14)))
    (fun t => t.tr.length == 28 && t.st == .lineFault && t.clk == .x && t.dio == .lo && t.lf && t.sr == 0x08 && t.bc == 3 &&
      t.plen == 1 && t.pb[0] == 0x3F && t.en) = true := by decide

/-- V54. -/
theorem test_sendBytes_length : holds (exec (.sendBytes 5 0) (live []))
    (fun t => t.tr == [] && t.st == .badLength && t.plen == 0) = true := by decide

/-- V57: items at index `len` and above are not looked at; the payload is in `PB` before the first line action. -/
theorem test_sendDigits : holds (exec (.sendDigits false 2 0x00FF0201) (live (failsAfter 0)))
    (fun t => t.plen == 2 && t.pb[0] == 0x06 && t.pb[1] == 0x5B && t.tr == [.c1e oops]) = true := by decide

/-- V56. -/
theorem test_sendDigits_digit : holds (exec (.sendDigits false 4 0x0A030201) (live []))
    (fun t => t.tr == [] && t.st == .badDigit && t.plen == 0) = true := by decide

/-- V36: the payload of 1432. -/
theorem test_sendNumber : holds (exec (.sendNumber 1432) (live (failsAfter 0)))
    (fun t => t.plen == 4 && t.pb[0] == 0x06 && t.pb[1] == 0x66 && t.pb[2] == 0x4F && t.pb[3] == 0x5B) = true := by decide

/-- V38. -/
theorem test_sendNumber_long : holds (exec (.sendNumber 10000) (live [])) (fun t => t.tr == [] && t.st == .badLength) = true := by
  decide

/-- 43_framing.md R195 at `PAYLOAD_MAX = 10` (spec/90_conflicts.md C11): a ten-digit number is sent, 4294967295. -/
theorem test_sendNumber_wide : holds (exec (.sendNumber 0xFFFFFFFF) { live (failsAfter 4) with cfg := { wide with errors := none } })
    (fun t => t.plen == 10 && t.pb[0] == 0x66 && t.pb[1] == 0x5B && t.pb[9] == 0x6D && t.st == .lineFault &&
      t.tr.drop 7 == [.d0e oops]) = true := by decide

/-- The same instantiation still refuses eleven items. -/
theorem test_sendBytes_wide_length : holds (exec (.sendBytes 11 0) { live [] with cfg := wide })
    (fun t => t.tr == [] && t.st == .badLength) = true := by decide

/-- 00_scope.md R12: where `E` is empty a scripted failure is none. -/
theorem test_clkHi_no_errors : holds (exec .clkHi { busy .start 0 (failsAfter 0) with cfg := wide })
    (fun t => t.clk == .hi && t.tr == [.c1] && !t.lf && t.cfg == wide) = true := by decide

/-- 30_encoding.md R91: the port of the default instantiation has 40 wires, that of `PAYLOAD_MAX = 10` has 88. -/
theorem test_port_width : plain.onPort (2 ^ 40 + 7) = 7 ∧ wide.onPort (2 ^ 40 + 7) = 2 ^ 40 + 7 ∧ wide.onPort (2 ^ 88 + 7) = 7 := by
  decide

/-- V72. -/
theorem test_enable : holds (exec .enable (live (acks 36)))
    (fun t => t.tr.length == 70 && t.st == .ok && t.en && (t.tr.drop 7).take 55 ==
      slotOf [true, true, false, true, false, false, false, true]) = true := by decide

/-- V73. -/
theorem test_disable : holds (exec .disable (live (acks 36)))
    (fun t => t.tr.length == 70 && t.st == .ok && !t.en && t.br == 3 && (t.tr.drop 7).take 55 ==
      slotOf [false, false, false, false, false, false, false, true]) = true := by decide

/-- V64. -/
theorem test_setBrightness : holds (exec (.setBrightness 7) (live [])) (fun t => t.br == 7 && t.st == .ok && t.tr == []) = true := by
  decide

/-- V65. -/
theorem test_setBrightness_range : holds (exec (.setBrightness 8) (live []))
    (fun t => t.br == 3 && t.st == .badBrightness && t.tr == []) = true := by decide

/-- V77. -/
theorem test_teardown_fails : holds (exec .teardown { live (failsAfter 0) with lf := true })
    (fun t => t.st == .ok && t.life == .unbuilt && !t.lf && t.clk == .x && t.dio == .x && t.tr == [.c1e oops]) = true := by decide

/-- V71. -/
theorem test_teardown_unbuilt : holds (exec .teardown State.reset) (fun t => t.st == .badLifecycle && t.tr == []) = true := by decide

/-- V80 to V82: the order of the checks (60_exceptions.md R237). -/
theorem test_priority : holds (exec (.sendDigits false 9 200) State.reset) (fun t => t.st == .badLifecycle) = true ∧
    holds (exec (.sendDigits false 9 200) (live [])) (fun t => t.st == .badLength) = true ∧
    holds (exec (.sendDigits false 1 200) (live [])) (fun t => t.st == .badDigit) = true := by decide

/-! ### Every obligation with hypotheses: a state and operands that meet them

One theorem per obligation, one conjunct per clause, at the ends of each range. -/

/-- `n` line actions that read 1 and then three that read 0: an acknowledgment that comes late. -/
def late (n : Nat) : List Draw := List.replicate n (.ok true) ++ acks 3

theorem draw_replicate {s : State} {n : Nat} {b : Bool} (h : s.draws = List.replicate n (.ok b)) {i : Nat} (hi : i < n) :
    s.drawAt i = .ok b := by
  simp [State.drawAt, outcome, h, hi]

theorem draw_fails {s : State} {n : Nat} (h : s.draws = failsAfter n) (hc : s.cfg.errors = none := by rfl) :
    s.drawAt n = .err oops := by
  simp [State.drawAt, outcome, anyErr, h, hc, failsAfter, acks, oops]

theorem draw_two {s : State} {m n : Nat} {b b' : Bool}
    (h : s.draws = List.replicate m (.ok b) ++ List.replicate n (.ok b')) {i : Nat} :
    (i < m → s.drawAt i = .ok b) ∧ (m ≤ i → i < m + n → s.drawAt i = .ok b') := by
  refine ⟨fun hi => ?_, fun hm hi => ?_⟩
  · simp [State.drawAt, outcome, h, List.getElem?_append, hi]
  · simp [State.drawAt, outcome, h, List.getElem?_append, show ¬ i < m by omega, show i - m < n by omega]

theorem draw_before {s : State} {n : Nat} (h : s.draws = failsAfter n) {i : Nat} (hi : i < n) : s.drawAt i = .ok false := by
  simp [State.drawAt, outcome, h, failsAfter, acks, List.getElem?_append, hi]

theorem draw_late {s : State} {n : Nat} (h : s.draws = late n) {i : Nat} (hi : i < n + 3) :
    s.drawAt i = .ok (decide (i < n)) := by
  by_cases hn : i < n
  · rw [(draw_two h).1 hn, decide_eq_true hn]
  · rw [(draw_two h).2 (by omega) hi, decide_eq_false hn]

theorem okAt_of {s : State} {n : Nat} (h : ∀ i, i < n → ∃ b, s.drawAt i = .ok b) {off m : Nat} (hm : off + m ≤ n) :
    s.okAt off m := by
  intro i hi
  obtain ⟨b, hb⟩ := h (off + i) (by omega)
  rw [hb]; rfl

theorem okAt_failsAfter {s : State} {n : Nat} (h : s.draws = failsAfter n) : s.okAt 0 n :=
  okAt_of (fun _ hi => ⟨false, draw_before h hi⟩) (by omega)

theorem acked_now {s : State} {n : Nat} (h : s.draws = acks n) {off : Nat} (hn : off + 28 ≤ n) : s.ackedSlot off 0 := by
  have hall : ∀ i, i < n → ∃ b, s.drawAt i = .ok b := fun i hi => ⟨false, draw_replicate h hi⟩
  exact ⟨by omega, okAt_of hall (by omega), fun i hi => absurd hi (by omega), draw_replicate h (by omega),
    okAt_of hall (by omega)⟩

theorem acked_last {s : State} (h : s.draws = late 279) : s.ackedSlot 0 254 := by
  have hall : ∀ i, i < 282 → ∃ b, s.drawAt i = .ok b := fun i hi => ⟨_, draw_late h hi⟩
  refine ⟨by omega, okAt_of hall (by omega), fun i hi => ?_, ?_, okAt_of hall (by omega)⟩
  · rw [draw_late h (by omega)]; exact congrArg Draw.ok (decide_eq_true (by omega))
  · rw [draw_late h (by omega)]; rfl

theorem acked_all {s : State} {n : Nat} (h : s.draws = acks n) (m off : Nat) (hn : off + 28 * m ≤ n) :
    s.ackedSlots off (List.replicate m 0) := by
  induction m generalizing off with
  | zero => trivial
  | succ m ih => exact ⟨acked_now h (by omega), ih (off + 28) (by omega)⟩

theorem slotsDraws_replicate (m : Nat) : slotsDraws (List.replicate m 0) = 28 * m := by
  simp [slotsDraws, slotDraws, Nat.mul_comm]

theorem acked_transmission {s : State} {n : Nat} (h : s.draws = acks n) (m off : Nat) (hn : off + (8 + 28 * m) ≤ n) :
    s.ackedTransmission off (List.replicate m 0) := by
  have hall : ∀ i, i < n → ∃ b, s.drawAt i = .ok b := fun i hi => ⟨false, draw_replicate h hi⟩
  exact ⟨okAt_of hall (by omega), acked_all h m _ (by omega), okAt_of hall (by rw [slotsDraws_replicate]; omega)⟩

theorem acked_frame {s : State} (h : s.draws = acks 300) (m : Nat) (hm : m ≤ 6) :
    s.ackedFrame ⟨0, 0, List.replicate m 0, 0⟩ := by
  have hb : (0 : Nat) :: List.replicate m 0 = List.replicate (m + 1) 0 := rfl
  refine ⟨acked_transmission h 1 0 (by omega), ?_, ?_⟩
  · simp only [hb]
    exact acked_transmission h (m + 1) _ (by simp [transmissionDraws, slotsDraws, slotDraws]; omega)
  · simp only [hb, transmissionDraws, slotsDraws_replicate]
    exact acked_transmission h 1 _ (by simp [slotsDraws, slotDraws]; omega)

theorem unacked_at {s : State} {n : Nat} (h : s.draws = absent n) {off : Nat} (hn : off + 280 ≤ n) : s.unackedSlot off :=
  ⟨okAt_of (fun _ hi => ⟨true, draw_replicate h hi⟩) (by omega), fun i hi => draw_replicate h (by omega)⟩

theorem ok_absent {s : State} {n : Nat} (h : s.draws = absent n) {off m : Nat} (hm : off + m ≤ n) : s.okAt off m :=
  okAt_of (fun _ hi => ⟨true, draw_replicate h hi⟩) hm

theorem ok_acks {s : State} {n : Nat} (h : s.draws = acks n) {off m : Nat} (hm : off + m ≤ n) : s.okAt off m :=
  okAt_of (fun _ hi => ⟨false, draw_replicate h hi⟩) hm

theorem test_meets_DecodeOfEncode : Params.default.ok = true ∧ Params.default.distinct = true ∧ wide.ok = true ∧
    Instr.wellFormed .default (.sendBytes 15 0xFFFFFFFF) = true ∧ Instr.wellFormed wide (.sendBytes 10 0xFFFFFFFFFFFFFFFFFFFF) = true ∧
    encode .default (.sendBytes 15 0xFFFFFFFF) = some ⟨.hostw, 0xFFFFFFFFF1⟩ ∧ encode .default (.sendByte 0xFF) = some ⟨.top, 0xFF02⟩ ∧ encode .default (.phaseC 0x8F) = none ∧
    encode .default (.enc [9, 0] true) = none ∧ encode .default (.dec 0xFFFFFFFF) = none := by decide

theorem test_meets_HostWordFields : (0xFFFFFFFFFF : HostWord).toNat < 2 ^ (8 + max 32 (8 * Params.default.payloadMax)) ∧
    2 ^ (8 + max 32 (8 * Params.default.payloadMax)) ≤ (0x10000000000 : HostWord).toNat := by decide

theorem test_meets_SegmentByte : State.reset.cfg.ok = true ∧ { poweredOn [] with cfg := wide }.cfg.ok = true := by decide

theorem test_meets_ControlByte : State.reset.cfg.ok = true := by decide

theorem test_meets_DigitsEncoded : ([9, 0, 9, 1] : List Digit)[3]? = some 1 ∧ ([9] : List Digit)[0]? = some 9 := by decide

theorem test_meets_DecimalDigits : (0 : Word32) = 0 ∧ (0xFFFFFFFF : Word32) ≠ 0 ∧ 1 ≤ 1 := by decide

theorem test_meets_ClockDrives : ((live (acks 1)).drawAt 0).isOk = true ∧
    (busy .start 0 (failsAfter 0)).drawAt 0 = .err oops ∧ (busy .start 0 (failsAfter 0)).seq.cmd ≠ .teardown := by decide

theorem test_meets_DataDrives : ((live (absent 1)).drawAt 0).isOk = true ∧
    (busy .start 1 (failsAfter 0)).drawAt 0 = .err oops ∧ (busy .start 1 (failsAfter 0)).seq.cmd ≠ .teardown := by decide

theorem test_meets_DataSample : (live (acks 1)).drawAt 0 = .ok false ∧ (live (absent 1)).drawAt 0 = .ok true ∧
    (busy .waitAck 0 (failsAfter 0)).drawAt 0 = .err oops ∧ (busy .waitAck 0 (failsAfter 0)).seq.cmd ≠ .teardown := by decide

theorem test_meets_Waits : Act.waitHalf.delayUs .default = some 2 ∧ Act.waitFull.delayUs .default = some 3 ∧
    Act.clkLo ≠ .waitHalf ∧ Act.clkLo ≠ .waitFull := by decide

theorem test_meets_LineActionFrame : (busy .stop 4 (failsAfter 0)).seq.cmd ≠ .teardown := by decide

theorem test_meets_StartCondition : (live (acks 4)).okAt 0 4 ∧ (live []).seq.cmd ≠ .teardown ∧
    (live (failsAfter 0)).drawAt 0 = .err oops ∧
    ((live (failsAfter 1)).okAt 0 1 ∧ (live (failsAfter 1)).drawAt 1 = .err oops) ∧
    ((live (failsAfter 2)).okAt 0 2 ∧ (live (failsAfter 2)).drawAt 2 = .err oops) ∧
    ((live (failsAfter 3)).okAt 0 3 ∧ (live (failsAfter 3)).drawAt 3 = .err oops) :=
  ⟨ok_acks rfl (by omega), by decide, draw_fails rfl, ⟨okAt_failsAfter rfl, draw_fails rfl⟩,
    ⟨okAt_failsAfter rfl, draw_fails rfl⟩, ⟨okAt_failsAfter rfl, draw_fails rfl⟩⟩

theorem test_meets_StopCondition : (busy .stop 0 (acks 4)).okAt 0 4 ∧ (busy .stop 0 []).seq.cmd ≠ .teardown ∧
    (busy .stop 0 (failsAfter 0)).drawAt 0 = .err oops ∧
    ((busy .stop 0 (failsAfter 1)).okAt 0 1 ∧ (busy .stop 0 (failsAfter 1)).drawAt 1 = .err oops) ∧
    ((busy .stop 0 (failsAfter 2)).okAt 0 2 ∧ (busy .stop 0 (failsAfter 2)).drawAt 2 = .err oops) ∧
    ((busy .stop 0 (failsAfter 3)).okAt 0 3 ∧ (busy .stop 0 (failsAfter 3)).drawAt 3 = .err oops) :=
  ⟨ok_acks rfl (by omega), by decide, draw_fails rfl, ⟨okAt_failsAfter rfl, draw_fails rfl⟩,
    ⟨okAt_failsAfter rfl, draw_fails rfl⟩, ⟨okAt_failsAfter rfl, draw_fails rfl⟩⟩

/-- Acknowledged at the first sample and at the 255th (V18, V17). -/
theorem test_meets_SendByteAcknowledged : (live (acks 28)).ackedSlot 0 0 ∧ (live (late 279)).ackedSlot 0 254 :=
  ⟨acked_now rfl (by omega), acked_last rfl⟩

theorem test_meets_SendByteUnacknowledged : (busy .sendByte 0 (absent 280)).unackedSlot 0 ∧
    (busy .sendByte 0 (absent 280)).seq.cmd ≠ .teardown := ⟨unacked_at rfl (by omega), by simp [busy]⟩

/-- The first cell and the last, each drive of a cell, and the release. -/
theorem test_meets_SendByteFaults : (live []).seq.cmd ≠ .teardown ∧ 0 < 8 ∧ 7 < 8 ∧
    (live (failsAfter 0)).drawAt (3 * 0) = .err oops ∧
    ((live (failsAfter 21)).okAt 0 (3 * 7) ∧ (live (failsAfter 21)).drawAt (3 * 7) = .err oops) ∧
    ((live (failsAfter 22)).okAt 0 (3 * 7 + 1) ∧ (live (failsAfter 22)).drawAt (3 * 7 + 1) = .err oops) ∧
    ((live (failsAfter 23)).okAt 0 (3 * 7 + 2) ∧ (live (failsAfter 23)).drawAt (3 * 7 + 2) = .err oops) ∧
    ((live (failsAfter 24)).okAt 0 24 ∧ (live (failsAfter 24)).drawAt 24 = .err oops) :=
  ⟨by decide, by omega, by omega, draw_fails rfl, ⟨okAt_failsAfter rfl, draw_fails rfl⟩,
    ⟨okAt_failsAfter rfl, draw_fails rfl⟩, ⟨okAt_failsAfter rfl, draw_fails rfl⟩, ⟨okAt_failsAfter rfl, draw_fails rfl⟩⟩

theorem test_meets_SendByteTail : (busy .sendByte 0 (acks 28)).okAt 0 25 ∧ (busy .sendByte 0 (acks 28)).seq.cmd ≠ .idle :=
  ⟨ok_acks rfl (by omega), by simp [busy]⟩

theorem test_meets_WaitAckRuns :
    ((∀ i, i < 254 → (live (late 254)).drawAt i = .ok true) ∧ (live (late 254)).drawAt 254 = .ok false ∧
      (live (late 254)).okAt 255 2) ∧
    ((live (acks 3)).drawAt 0 = .ok false ∧ (live (acks 3)).okAt 1 2) ∧
    ((live (absent 255)).seq.cmd ≠ .teardown ∧ ∀ i, i < 255 → (live (absent 255)).drawAt i = .ok true) ∧
    (live (failsAfter 0)).drawAt 0 = .err oops ∧
    ((live (failsAfter 1)).drawAt 0 = .ok false ∧ (live (failsAfter 1)).drawAt 1 = .err oops) ∧
    ((live (failsAfter 2)).drawAt 0 = .ok false ∧ ((live (failsAfter 2)).drawAt 1).isOk = true ∧
      (live (failsAfter 2)).drawAt 2 = .err oops) := by
  have hl : ∀ i, i < 257 → (live (late 254)).drawAt i = .ok (decide (i < 254)) := fun i hi => draw_late rfl hi
  refine ⟨⟨fun i hi => ?_, ?_, okAt_of (fun i hi => ⟨_, hl i hi⟩) (by omega)⟩,
    ⟨draw_replicate (n := 3) rfl (by omega), ok_acks rfl (by omega)⟩,
    ⟨by simp [live, poweredOn, State.reset, Seq.idle], fun i hi => draw_replicate rfl hi⟩, draw_fails rfl,
    ⟨draw_before (n := 1) rfl (by omega), draw_fails rfl⟩,
    ⟨draw_before (n := 2) rfl (by omega), by rw [draw_before (n := 2) rfl (by omega)]; rfl, draw_fails rfl⟩⟩
  · rw [hl i (by omega)]; exact congrArg Draw.ok (decide_eq_true hi)
  · rw [hl 254 (by omega)]; rfl

theorem test_meets_WireByteSlots : wireByteOf .default (.seg9 true) = some 0xEF ∧ wireByteOf .default .ctrlOff = some 0x80 ∧
    (live (acks 28)).ackedSlot 0 0 ∧ (live (late 279)).ackedSlot 0 254 ∧ (live (absent 280)).unackedSlot 0 ∧
    (live (absent 280)).seq.cmd ≠ .teardown :=
  ⟨by decide, by decide, acked_now rfl (by omega), acked_last rfl, unacked_at rfl (by omega),
    by simp [live, poweredOn, State.reset, Seq.idle]⟩

theorem test_meets_PhaseCRuns : (live (acks 36)).ackedTransmission 0 [0] ∧ (live (absent 284)).okAt 0 4 ∧
    (live (absent 284)).unackedSlot 4 ∧ (live (absent 284)).seq.cmd ≠ .teardown :=
  ⟨acked_transmission rfl 1 0 (by omega), ok_absent rfl (by omega), unacked_at rfl (by omega),
    by simp [live, poweredOn, State.reset, Seq.idle]⟩

/-- The empty payload and the longest, and an absent device. -/
theorem test_meets_FrameRuns : ((live (acks 300)).plen.toNat = 0 ∧ (live (acks 300)).ackedFrame ⟨0, 0, [], 0⟩) ∧
    ({ live (acks 300) with plen := 4 }.plen.toNat = 4 ∧
      { live (acks 300) with plen := 4 }.ackedFrame ⟨0, 0, [0, 0, 0, 0], 0⟩) ∧
    ((live (absent 284)).okAt 0 4 ∧ (live (absent 284)).unackedSlot 4 ∧ (live (absent 284)).seq.cmd ≠ .teardown) :=
  ⟨⟨rfl, acked_frame rfl 0 (by omega)⟩, ⟨rfl, acked_frame rfl 4 (by omega)⟩,
    ok_absent rfl (by omega), unacked_at rfl (by omega), by simp [live, poweredOn, State.reset, Seq.idle]⟩

/-- The environment of V63 with one payload byte, never acknowledged: the payload loop's first index. -/
def partway : State := { live (acks 68 ++ absent 280) with plen := 1 }

theorem partway_low {i : Nat} (hi : i < 68) : partway.drawAt i = .ok false :=
  (draw_two (s := partway) (m := 68) (n := 280) rfl).1 hi

theorem partway_high {i : Nat} (hi : 68 ≤ i) (hi' : i < 348) : partway.drawAt i = .ok true :=
  (draw_two (s := partway) (m := 68) (n := 280) rfl).2 hi hi'

theorem partway_slot {off : Nat} (hn : off + 28 ≤ 68) : partway.ackedSlot off 0 := by
  have hall : ∀ i, i < 68 → ∃ b, partway.drawAt i = .ok b := fun i hi => ⟨false, partway_low hi⟩
  exact ⟨by omega, okAt_of hall (by omega), fun i hi => absurd hi (by omega), partway_low (by omega), okAt_of hall (by omega)⟩

theorem test_meets_PartialProgress : ([] : List Nat).length < partway.plen.toNat ∧ partway.plen.toNat ≤ partway.cfg.payloadMax ∧
    partway.seq.cmd ≠ .teardown ∧ partway.ackedTransmission 0 [0] ∧ partway.okAt (transmissionDraws [0]) 4 ∧
    partway.ackedSlots (transmissionDraws [0] + 4) [0] ∧
    partway.unackedSlot (transmissionDraws [0] + 4 + slotsDraws [0]) := by
  have hall : ∀ i, i < 68 → ∃ b, partway.drawAt i = .ok b := fun i hi => ⟨false, partway_low hi⟩
  refine ⟨by decide, by decide, by simp [partway, live, poweredOn, State.reset, Seq.idle],
    ⟨okAt_of hall (by omega), ⟨partway_slot (by omega), trivial⟩, okAt_of hall (by decide)⟩, okAt_of hall (by decide),
    ⟨partway_slot (by decide), trivial⟩, fun i hi => ?_, fun i hi => ?_⟩
  · have : transmissionDraws [0] + 4 + slotsDraws [0] = 68 := rfl
    rw [this, partway_high (by omega) (by omega)]; rfl
  · have : transmissionDraws [0] + 4 + slotsDraws [0] = 68 := rfl
    rw [this, partway_high (by omega) (by omega)]

/-- The empty payload and the longest. -/
theorem test_meets_SendBytesRuns : (live (acks 300)).life = .live ∧ (0#4).toNat ≤ (live (acks 300)).cfg.payloadMax ∧
    (4#4).toNat ≤ (live (acks 300)).cfg.payloadMax ∧
    ([] : List Nat).length = (0#4).toNat ∧ (live (acks 300)).ackedFrame ⟨0, 0, [], 0⟩ ∧
    [0, 0, 0, 0].length = (4#4).toNat ∧ (live (acks 300)).ackedFrame ⟨0, 0, [0, 0, 0, 0], 0⟩ ∧ 3 < (4#4).toNat :=
  ⟨rfl, by decide, by decide, rfl, acked_frame rfl 0 (by omega), rfl, acked_frame rfl 4 (by omega), by decide⟩

/-- Four digits, the largest 9, and their word. -/
theorem test_meets_SendDigitsRuns : (live (acks 300)).life = .live ∧ (live (acks 300)).cfg.ok = true ∧
    ([9, 2, 0, 9] : List Digit).length ≤ (live (acks 300)).cfg.payloadMax ∧
    (∀ i d, ([9, 2, 0, 9] : List Digit)[i]? = some d → ((0x09000209 : HostArg).extractLsb' (8 * i) 8).toNat = d.val) ∧
    [0, 0, 0, 0].length = ([9, 2, 0, 9] : List Digit).length ∧ (live (acks 300)).ackedFrame ⟨0, 0, [0, 0, 0, 0], 0⟩ := by
  refine ⟨rfl, by decide, by decide, fun i d h => ?_, rfl, acked_frame rfl 4 (by omega)⟩
  have hi : i < 4 := by
    by_contra hn
    rw [List.getElem?_eq_none (by simpa using hn)] at h
    cases h
  have key : ∀ j : Fin 4, ([9, 2, 0, 9] : List Digit)[j.val]? =
      some ⟨((0x09000209 : HostArg).extractLsb' (8 * j.val) 8).toNat % 10, Nat.mod_lt _ (by decide)⟩ ∧
      ((0x09000209 : HostArg).extractLsb' (8 * j.val) 8).toNat < 10 := by decide
  have hk := key ⟨i, hi⟩
  rw [hk.1] at h
  cases h
  exact (Nat.mod_eq_of_lt hk.2).symm

/-- The largest accepted number, and 0. -/
theorem test_meets_SendNumberRuns : (live (acks 300)).life = .live ∧ (live (acks 300)).cfg.ok = true ∧
    (9999 : Word32).toNat < 10 ^ (live (acks 300)).cfg.payloadMax ∧ [0, 0, 0, 0].length = (dec 9999).length ∧ (live (acks 300)).ackedFrame ⟨0, 0, [0, 0, 0, 0], 0⟩ ∧
    [0].length = (dec 0).length ∧ (live (acks 300)).ackedFrame ⟨0, 0, [0], 0⟩ :=
  ⟨rfl, by decide, by decide, rfl, acked_frame rfl 4 (by omega), rfl, acked_frame rfl 1 (by omega)⟩

theorem test_meets_SendNumberIsSendDigits : (live []).cfg.ok = true ∧ (0 : Word32).toNat < 10 ^ (live []).cfg.payloadMax ∧
    ∀ i d, (dec 0)[i]? = some d → ((0 : HostArg).extractLsb' (8 * i) 8).toNat = d.val := by
  refine ⟨by decide, by decide, fun i d h => ?_⟩
  cases i with
  | zero => cases h; rfl
  | succ i => cases h

/-- Each refusal at the first value it rejects. -/
theorem test_meets_RefusedCommands : (live []).life = .live ∧ State.reset.life = .unbuilt ∧
    (Instr.teardown).isHostCommand = true ∧ Instr.teardown ≠ .init ∧ (live []).cfg.payloadMax < (5#4).toNat ∧
    ((4#4).toNat ≤ (live []).cfg.payloadMax ∧ 3 < (4#4).toNat ∧ 9 < ((0x0A030201 : HostArg).extractLsb' (8 * 3) 8).toNat) ∧
    (live []).cfg.ok = true ∧ 10 ^ (live []).cfg.payloadMax ≤ (10000 : Word32).toNat ∧ 7 < (8 : Byte).toNat := by decide

/-- Four items, four digits with the indicator bit, the largest number. -/
theorem test_meets_ResolveBeforeTransmit : (live (failsAfter 0)).life = .live ∧ (live (failsAfter 0)).cfg.ok = true ∧
    (live (failsAfter 0)).drawAt 0 = .err oops ∧
    ((List.range (4#4).toNat).map fun j => (0x04030201 : HostArg).extractLsb' (8 * j) 8).length ≤ plain.payloadMax ∧
    ((([9, 2, 0, 9] : List Digit).map fun d => plain.segTable[d] ||| 0x80).length ≤ plain.payloadMax ∧
      ∀ j : Fin 4, ([9, 2, 0, 9] : List Digit)[j.val]?.map (·.val) = some ((0x09000209 : HostArg).extractLsb' (8 * j.val) 8).toNat) ∧
    ((dec 9999).map fun d => plain.segTable[d]).length ≤ plain.payloadMax := by decide

theorem test_meets_SendUnacknowledged : (live (absent 284)).life = .live ∧ (live (absent 284)).cfg.ok = true ∧
    (live (absent 284)).okAt 0 4 ∧ (live (absent 284)).unackedSlot 4 ∧ (4#4).toNat ≤ (live (absent 284)).cfg.payloadMax ∧
    (9999 : Word32).toNat < 10 ^ (live (absent 284)).cfg.payloadMax ∧
    ∀ j, j < (1#4).toNat → ((9 : HostArg).extractLsb' (8 * j) 8).toNat ≤ 9 :=
  ⟨rfl, by decide, ok_absent rfl (by omega), unacked_at rfl (by omega), by decide, by decide, by decide⟩

theorem test_meets_InitRuns : State.reset.life = .unbuilt ∧ (poweredOn (acks 2)).okAt 0 2 ∧
    (poweredOn (failsAfter 0)).drawAt 0 = .err oops ∧
    (poweredOn (failsAfter 1)).okAt 0 1 ∧ (poweredOn (failsAfter 1)).drawAt 1 = .err oops :=
  ⟨rfl, ok_acks rfl (by omega), draw_fails rfl, okAt_failsAfter rfl, draw_fails rfl⟩

theorem test_meets_OnAndOffRun : (live (acks 36)).life = .live ∧ (live (acks 36)).ackedTransmission 0 [0] :=
  ⟨rfl, acked_transmission rfl 1 0 (by omega)⟩

theorem test_meets_ControlCommandsFail : (∃ t, exec .enable State.reset = .next t ∧ t.st ≠ .ok) ∧
    (∃ t, exec .disable (live (failsAfter 0)) = .next t ∧ t.st ≠ .ok) ∧ (live (absent 284)).life = .live ∧ (live (absent 284)).okAt 0 4 ∧
    (live (absent 284)).unackedSlot 4 ∧ (live (failsAfter 0)).life = .live ∧ (live (failsAfter 0)).drawAt 0 = .err oops :=
  ⟨⟨_, rfl, by decide⟩, ⟨_, rfl, by decide⟩, rfl, ok_absent rfl (by omega), unacked_at rfl (by omega), rfl, draw_fails rfl⟩

theorem test_meets_SetBrightnessRuns : (live []).life = .live ∧ (7 : Byte).toNat ≤ 7 := by decide

theorem test_meets_TeardownRuns : (live (acks 36)).life = .live ∧ (live (acks 36)).ackedTransmission 0 [0] ∧
    (live (absent 284)).okAt 0 4 ∧ (live (absent 284)).unackedSlot 4 ∧ (live (failsAfter 0)).drawAt 0 = .err oops :=
  ⟨rfl, acked_transmission rfl 1 0 (by omega), ok_absent rfl (by omega), unacked_at rfl (by omega), draw_fails rfl⟩

theorem test_meets_TeardownDiscards : (dying []).seq.cmd = .teardown ∧ Instr.clkHi = (Act.clkHi).instr := ⟨rfl, rfl⟩

theorem test_meets_CommandStatuses : { live [] with cfg := wide }.cfg.errors = some 0 ∧ plain.isErr oops = true ∧
    (Instr.sendNumber 10000).isHostCommand = true ∧ (Instr.teardown).isHostCommand = true := by decide

theorem test_meets_LifecycleTransitions :
    (∃ t, exec .init (live []) = .next t ∧ t.st ≠ .ok) ∧ (∃ t, exec .teardown (live (failsAfter 0)) = .next t) ∧
    ∃ t, exec (.setBrightness 8) (live []) = .next t ∧ t.st ≠ .ok :=
  ⟨⟨_, rfl, by decide⟩, ⟨_, rfl⟩, ⟨_, rfl, by decide⟩⟩

theorem test_meets_CommandFrames : ∃ t, exec (.setBrightness 7) (live []) = .next t := ⟨_, rfl⟩

theorem test_meets_StepRunsLineAction : (busy .start 6 []).seq.cmd ≠ .idle ∧ currentAct (busy .start 6 []) = some .waitHalf ∧
    currentAct (busy .waitAck 0 []) = some .dioSample := by decide

theorem test_meets_StepAccepts : (live []).seq.cmd = .idle ∧ (live []).host = [] ∧
    { live [] with host := [0x706] }.host = [0x706] := by decide

theorem test_meets_RunReachesMeaning : { live [] with host := [0x706, 0] }.seq.cmd = .idle ∧
    { live [] with host := [0x706, 0] }.host = 0x706 :: [0] := by decide

/-- The engine about to take the first sample of a byte's acknowledgment: every part of the invariant is in force. -/
def polling (draws : List Draw) : State :=
  { busy .waitAck 0 draws with clk := .lo, clkO := false, bc := 8 }

theorem polling_inv (draws : List Draw) : (polling draws).Inv := by
  refine ⟨?_, ⟨?_, ?_, ?_⟩, ⟨?_, ?_, ?_, ?_, ?_⟩, ?_, ?_, ?_⟩ <;>
    simp [polling, busy, live, poweredOn, State.reset, Seq.legal, Seq.inTable, State.linesOk, levelOf]

/-- The engine in the third action of a bit cell, the clock high: bit 1 of 0x3F. -/
def clocking (draws : List Draw) : State :=
  { busy .sendByte 9 draws with sr := 0x1F, bc := 1 }

theorem clocking_inv (draws : List Draw) : (clocking draws).Inv := by
  refine ⟨?_, ⟨?_, ?_, ?_⟩, ⟨?_, ?_, ?_, ?_, ?_⟩, ?_, ?_, ?_⟩ <;>
    simp [clocking, busy, live, poweredOn, State.reset, Seq.legal, Seq.inTable, State.linesOk, levelOf]

theorem test_meets_StepKeepsInvariant : (polling (acks 1)).Inv ∧ (∃ t, step (polling (acks 1)) = .next t) ∧
    (clocking []).Inv ∧ ∃ t, step (clocking []) = .next t :=
  ⟨polling_inv _, ⟨_, rfl⟩, clocking_inv _, ⟨_, rfl⟩⟩

theorem test_meets_StepNeverStops : (polling (failsAfter 0)).Inv ∧ (clocking []).Inv := ⟨polling_inv _, clocking_inv _⟩

theorem test_meets_TraceGrows : (∃ t, step (polling (failsAfter 0)) = .next t) ∧ (polling (failsAfter 0)).seq.cmd ≠ .idle ∧
    (∃ t, step State.reset = .next t) ∧ State.reset.seq.cmd = .idle := ⟨⟨_, rfl⟩, by decide, ⟨_, rfl⟩, by decide⟩

theorem test_meets_OneResponse :
    (∃ t, step (clocking []) = .next t ∧ t.seq.cmd ≠ .idle) ∧
    (∃ t, step (polling (failsAfter 0)) = .next t ∧ t.seq.cmd = .idle ∧ (polling (failsAfter 0)).seq.cmd ≠ .idle) ∧
    (∃ t, step { live [] with host := [0x706] } = .next t ∧ t.seq.cmd = .idle ∧ { live [] with host := [0x706] }.host ≠ []) ∧
    ∃ t, step State.reset = .next t ∧ State.reset.host = [] :=
  ⟨⟨_, rfl, by decide⟩, ⟨_, rfl, by decide, by decide⟩, ⟨_, rfl, by decide, by decide⟩, ⟨_, rfl, rfl⟩⟩

theorem test_meets_PortUnseenWhenBusy : (busy .start 0 []).seq.cmd ≠ .idle := by decide

theorem test_meets_SampleDiscipline : (polling []).Inv ∧ (polling []).seq.cmd ≠ .idle ∧ currentAct (polling []) = some .dioSample :=
  ⟨polling_inv _, by decide, by decide⟩

theorem test_meets_DataStableWhileClockHigh :
    ((clocking []).Inv ∧ (clocking []).seq.cmd ≠ .idle ∧ (clocking []).seq.rt = .sendByte ∧
      currentAct (clocking []) = some .waitFull ∧ (clocking []).clk = .hi ∧
      ∃ t, step (clocking []) = .next t ∧ t.seq.cmd ≠ .idle) ∧
    ((polling []).Inv ∧ (polling []).seq.rt = .waitAck ∧ currentAct (polling []) = some .dioSample) :=
  ⟨⟨clocking_inv _, by decide, rfl, by decide, rfl, ⟨_, rfl, by decide⟩⟩, polling_inv _, rfl, by decide⟩

theorem test_meets_BrightnessChanges : ∃ t, step { live [] with host := [0x706] } = .next t ∧
    t.br ≠ { live [] with host := [0x706] }.br := ⟨_, rfl, by decide⟩

theorem test_meets_LineFaultFlag :
    (∃ t, step (polling (failsAfter 0)) = .next t ∧ t.lf = true ∧ (polling (failsAfter 0)).lf = false) ∧
    (∃ t, step { poweredOn [] with lf := true, host := [0] } = .next t ∧ t.lf = false) ∧
    ∃ t, step { dying (failsAfter 0) with lf := true } = .next t ∧ t.lf = false :=
  ⟨⟨_, rfl, by decide, by decide⟩, ⟨_, rfl, by decide⟩, ⟨_, rfl, by decide⟩⟩

theorem test_meets_PayloadAndCommandWrites : ∃ t, step { live [] with host := [0x0000003F11] } = .next t ∧
    t.cmd ≠ (live []).cmd ∧ t.plen ≠ (live []).plen := ⟨_, rfl, by decide, by decide⟩

/-- The last wait of DISABLE's stop condition, and of ENABLE's. -/
theorem test_meets_EnableFlag :
    (∃ t, step { live [] with seq := ⟨.disable, .c, .stop, 7, false⟩ } = .next t ∧ t.en = false) ∧ (live []).en = true ∧
    ∃ t, step { live [] with seq := ⟨.enable, .c, .stop, 7, false⟩, en := false } = .next t ∧ t.en = true :=
  ⟨⟨_, rfl, by decide⟩, by decide, ⟨_, rfl, by decide⟩⟩

theorem test_meets_OnlyInitAtPowerOn : decodeHost (plain.onPort 7) ≠ .init ∧ decodeHost (wide.onPort 0xFFFFFFFFF9) ≠ .init := by
  decide

theorem test_meets_ParametersNeverWritten : (∃ t, step (polling (failsAfter 0)) = .next t) ∧
    ∃ t, step { live [] with host := [0x706] } = .next t := ⟨⟨_, rfl⟩, ⟨_, rfl⟩⟩

end Sys2Proof.Tests
end

section
/-!
SUPPORT. The scope family (spec/00_scope.md R10, R15): a host command's meaning is its begun state, its line actions and its
end, and the sequencer performs those line actions one a step; no operation and no step writes the parameters.
-/
namespace Sys2Proof.Machine

/-! ### A host command as its begin, its line actions and its end -/

/-- The line actions of a host command, all of them, after what it does at acceptance. -/
def commandBody (i : Instr) (s : State) : Flow :=
  match i with
  | .init => performAll initActs s
  | .sendBytes _ _ | .sendDigits _ _ _ | .sendNumber _ => frame s
  | .enable => phaseC (ctrl s.cfg s.br) s
  | .disable | .teardown => phaseC s.cfg.ctrlOff s
  | .setBrightness _
  | .clkLo | .clkHi | .dioLo | .dioHi | .dioSample | .waitHalf | .waitFull
  | .start | .stop | .sendByte _ | .waitAck
  | .dataCmd | .addrCmd | .ctrlOn _ | .ctrlOff
  | .seg0 _ | .seg1 _ | .seg2 _ | .seg3 _ | .seg4 _ | .seg5 _ | .seg6 _ | .seg7 _ | .seg8 _ | .seg9 _
  | .seg _ | .ind _ _ | .enc _ _ | .dec _ | .ctrl | .frame | .phaseC _ => .go s

/-- SET_BRIGHTNESS is over at acceptance (44_lifecycle.md R213). -/
theorem beginSetBrightness_ended (b : Byte) (s : State) : ∃ u, beginSetBrightness b s = .ended u := by
  rw [beginSetBrightness, requireLive]
  split
  · split
    · exact ⟨_, rfl⟩
    · exact ⟨_, rfl⟩
  · exact ⟨_, rfl⟩

/-- The meaning of a host command: its begin, its line actions, its end (00_scope.md R15). -/
theorem exec_of_beginCommand {i : Instr} {s : State} {f : Flow} (hf : beginCommand i s = some f) :
    exec i s = .next ((f.bind (commandBody i)).bind finish).state := by
  cases i <;> cases hf
  case setBrightness b =>
    obtain ⟨u, hu⟩ := beginSetBrightness_ended b s
    change execSetBrightness b s = _
    rw [execSetBrightness, hu]
    rfl
  all_goals rfl

/-! ### The machine reaches what the meaning says -/

/-- From a command's first line action the machine performs its line actions and its end, one line action a step
(70_reset_and_hazards.md R284). -/
theorem Begun.sim_commandBody {i : Instr} {s u : State} (h : Begun i s (.go u)) :
    Sim (45 + (3 + s.cfg.payloadMax) * 563) u (commandBody i u) finishCommand := by
  cases h with
  | init hi _ =>
    subst hi
    exact (sim_initialise rfl).mono (by omega)
  | send c bs hc hb _ =>
    have hsend : c = .sendBytes ∨ c = .sendDigits ∨ c = .sendNumber := by
      rcases hc with ⟨_, _, _, h⟩ | ⟨_, _, _, _, h⟩ | ⟨_, _, h⟩ <;> simp [h]
    have hbody : commandBody i = Machine.frame := by
      rcases hc with ⟨_, _, rfl, _⟩ | ⟨_, _, _, rfl, _⟩ | ⟨_, rfl, _⟩ <;> rfl
    rw [hbody]
    exact Sim.mono (B := 1734 + 563 * s.cfg.payloadMax) (sim_send hsend ⟨rfl, loadPayload_plen_le bs s hb⟩) (by omega)
  | control c hc _ =>
    rcases hc with ⟨rfl, rfl⟩ | ⟨rfl, rfl⟩ | ⟨rfl, rfl⟩
    · exact Sim.mono (B := 578) (sim_control (by decide) rfl fun t hbr hcfg => congrArg₂ ctrl hcfg hbr) (by omega)
    · exact Sim.mono (B := 578) (sim_control (by decide) rfl fun t _ hcfg => congrArg Params.ctrlOff hcfg) (by omega)
    · exact Sim.mono (B := 578) (sim_control (by decide) rfl fun t _ hcfg => congrArg Params.ctrlOff hcfg) (by omega)

/-- Every host word accepted by the idle engine is carried to its command's meaning. -/
theorem completes {s : State} {w : HostWord} {rest : List HostWord} (hi : s.seq.cmd = .idle) (hh : s.host = w :: rest) :
    Completes s w rest := by
  obtain ⟨f, hf, hb⟩ := begun (decodeHost_isHostCommand (s.cfg.onPort w)) (s.capture (s.cfg.onPort w) rest)
  refine completes_of hi hh hf le_rfl (exec_of_beginCommand hf) fun u hu => ?_
  rw [hu] at hb
  exact hb.sim_commandBody

/-- Settles O44: the command's begin is the step of acceptance, and each routine of its meaning is simulated by the sequencer,
by induction over the table, the bits, the polls and the payload. -/
theorem runReachesMeaning : Obligations.RunReachesMeaning := by
  intro s w rest hi hh
  obtain ⟨n, hn, hrun⟩ := completes hi hh
  obtain ⟨f, hf, _⟩ := begun (decodeHost_isHostCommand (s.cfg.onPort w)) (s.capture (s.cfg.onPort w) rest)
  exact ⟨n, _, hn, exec_of_beginCommand hf, hrun _ (exec_of_beginCommand hf)⟩

/-! ### The parameters are constants -/

/-- What keeps `Silent` or leaves `Carried` keeps the parameters. -/
theorem Flow.Leaves.state_cfg {s : State} {f : Flow} (h : f.Leaves Silent Carried s) : f.state.cfg = s.cfg := by
  cases f with
  | go t => exact h.1
  | ended t => exact h.1

theorem commandBody_leaves (i : Instr) (s : State) : (commandBody i s).Leaves Silent Carried s := by
  cases i <;> simp only [commandBody]
  case init => exact kept_silent.performAll _ s
  case sendBytes => exact kept_silent.frame s
  case sendDigits => exact kept_silent.frame s
  case sendNumber => exact kept_silent.frame s
  case enable => exact kept_silent.phaseC _ s
  case disable => exact kept_silent.phaseC _ s
  case teardown => exact kept_silent.phaseC _ s
  all_goals exact kept_silent.refl s

/-- A command's line actions and its end leave the parameters as its begin left them. -/
theorem command_state_cfg (i : Instr) (f : Flow) :
    ((f.bind (commandBody i)).bind finish).state.cfg = f.state.cfg := by
  rw [finish_after]
  cases f with
  | ended t => rfl
  | go t =>
    have hbody := (commandBody_leaves i t).state_cfg
    rw [Flow.go_bind]
    cases hr : commandBody i t with
    | go u => rw [hr] at hbody; exact (finishCommand_cfg u).trans hbody
    | ended u => rw [hr] at hbody; exact hbody

theorem perform_state_cfg (a : Act) (s : State) : (a.perform s).state.cfg = s.cfg := (kept_silent.act a s).state_cfg

theorem sendByte_state_cfg (v : Byte) (s : State) : (sendByte v s).state.cfg = s.cfg := (kept_silent.sendByte v s).state_cfg

/-- No operation writes the parameters. -/
theorem exec_keeps_cfg (i : Instr) (s : State) : ∃ t, exec i s = .next t ∧ t.cfg = s.cfg := by
  by_cases hi : i.isHostCommand = true
  · obtain ⟨f, hf, hb⟩ := begun hi s
    exact ⟨_, exec_of_beginCommand hf, (command_state_cfg i f).trans hb.frame.1⟩
  · cases i <;> simp only [Instr.isHostCommand, not_true_eq_false] at hi
    case clkLo => exact ⟨_, exec_instr .clkLo s, perform_state_cfg _ s⟩
    case clkHi => exact ⟨_, exec_instr .clkHi s, perform_state_cfg _ s⟩
    case dioLo => exact ⟨_, exec_instr .dioLo s, perform_state_cfg _ s⟩
    case dioHi => exact ⟨_, exec_instr .dioHi s, perform_state_cfg _ s⟩
    case dioSample => exact ⟨_, exec_instr .dioSample s, perform_state_cfg _ s⟩
    case waitHalf => exact ⟨_, exec_instr .waitHalf s, perform_state_cfg _ s⟩
    case waitFull => exact ⟨_, exec_instr .waitFull s, perform_state_cfg _ s⟩
    case start => exact ⟨_, rfl, (kept_silent.startCondition s).state_cfg⟩
    case stop => exact ⟨_, rfl, (kept_silent.stopCondition s).state_cfg⟩
    case waitAck => exact ⟨_, rfl, (kept_silent.waitAck s).state_cfg⟩
    case frame => exact ⟨_, rfl, (kept_silent.frame s).state_cfg⟩
    case phaseC c => exact ⟨_, rfl, (kept_silent.phaseC c s).state_cfg⟩
    case seg | ind | enc | dec | ctrl => exact ⟨_, rfl, State.returning_cfg _ s⟩
    all_goals exact ⟨_, rfl, sendByte_state_cfg _ s⟩

/-- No step writes the parameters. -/
theorem step_keeps_cfg {s t : State} (h : step s = .next t) : t.cfg = s.cfg := by
  cases step_cases h with
  | rest => rfl
  | accept w rest f _ _ _ hb => exact hb.frame.1
  | stopped a t _ _ hp =>
    have hcfg := perform_state_cfg a s
    rwa [hp] at hcfg
  | moved a u _ _ hp => exact (advance_cfg u).trans (perform_cfg hp)

/-- Settles O60: every routine is made of actions and updates that keep the parameters, and so are the shapes of a step. -/
theorem parametersNeverWritten : Obligations.ParametersNeverWritten :=
  ⟨exec_keeps_cfg, fun _ _ => step_keeps_cfg⟩

end Sys2Proof.Machine
end

section
/-!
SUPPORT. The state family (spec/10_state.md): what a step of the engine leaves of each register, and what it never reads.
-/
namespace Sys2Proof.Machine

/-! ### The invariant -/

/-- Settles O45: acceptance, an action that ends the command, and an action with the sequencer's move each keep the
invariant. -/
theorem stepKeepsInvariant : Obligations.StepKeepsInvariant := by
  intro s t hinv h
  by_cases hi : s.seq.cmd = .idle
  · rw [step, stepEngine, if_pos hi] at h
    exact accept_inv hinv hi h
  · cases step_cases h with
    | rest hi' => exact absurd hi' hi
    | accept _ _ _ hi' => exact absurd hi' hi
    | stopped a _ _ _ hp => exact perform_ended_inv hinv.base hp
    | moved a u _ ha hp => exact advance_inv hinv hi ha hp

/-- The engine is idle at power-on, so only the ranges and the wires are left to see to. -/
theorem reset_base : State.reset.Base where
  bc := by decide
  plen := by decide
  pi := by decide
  en _ := rfl
  wires := ⟨fun b hb => absurd hb.symm (levelOf_ne_x b), fun b hb => absurd hb.symm (levelOf_ne_x b)⟩

/-- Settles O46: the idle engine has the ranges and the wires to meet, and R11 is a computation on the defaults. -/
theorem resetInvariant : Obligations.ResetInvariant :=
  ⟨inv_of_idle reset_base rfl, by decide⟩

/-- Settles O58: each is the field of `State.reset`. -/
theorem powerOn : Obligations.PowerOn :=
  ⟨rfl, rfl, rfl, rfl, rfl, rfl, rfl, rfl, rfl, rfl, rfl, rfl⟩

/-! ### A step as the meaning of an operation -/

/-- Settles O42: the step is the action's flow, followed by the sequencer's move if it goes on. -/
theorem stepRunsLineAction : Obligations.StepRunsLineAction := by
  intro s a hc ha
  refine ⟨_, exec_instr a s, ?_⟩
  rw [step_busy hc ha]
  cases hp : a.perform s with
  | go u =>
    have hu : u.seq.cmd ≠ .idle := by rwa [(perform_go hp).1]
    exact ⟨fun _ => rfl, fun h => absurd h hu⟩
  | ended u =>
    have hu : u.seq.cmd = .idle := congrArg Seq.cmd (perform_ended hp)
    exact ⟨fun h => absurd hu h, fun _ => rfl⟩

/-- What the port carries of a word: its low `8 + AW` bits (10_state.md R36). -/
theorem onPort_toNat (p : Params) (w : HostWord) :
    (p.onPort w).toNat = w.toNat % 2 ^ (8 + max 32 (8 * p.payloadMax)) := by
  have hlt : w.toNat % 2 ^ (8 + p.argBits) < 2 ^ 128 := (Nat.mod_le _ _).trans_lt w.isLt
  rw [Params.onPort, BitVec.toNat_ofNat, Nat.mod_eq_of_lt hlt, Params.argBits]

/-- A step of the idle engine with no word at the port. -/
theorem step_rest {s : State} (hi : s.seq.cmd = .idle) (hh : s.host = []) : step s = .next s.dropResponse := by
  simp only [step, stepEngine, if_pos hi, acceptStep, hh]

/-- A command that goes on after its acceptance is in progress. -/
theorem Begun.go_busy {i : Instr} {s u : State} (h : Begun i s (.go u)) : u.seq.cmd ≠ .idle := by
  cases h with
  | init => exact CmdName.noConfusion
  | send c _ hc =>
    change c ≠ .idle
    rcases hc with ⟨_, _, _, rfl⟩ | ⟨_, _, _, _, rfl⟩ | ⟨_, _, rfl⟩ <;> decide
  | control c hc =>
    change c ≠ .idle
    rcases hc with ⟨_, rfl⟩ | ⟨_, rfl⟩ | ⟨_, rfl⟩ <;> decide

/-- A command that is over at its acceptance is its whole meaning (10_state.md R36). -/
theorem exec_of_ended {i : Instr} {s : State} {f : Flow} (hf : beginCommand i s = some f) (hb : Begun i s f)
    (hi : f.state.seq.cmd = .idle) : exec i s = .next f.state := by
  rw [exec_of_beginCommand hf]
  cases f with
  | go u => exact absurd hi hb.go_busy
  | ended u => rfl

/-- Settles O43: with a word at the port the step is what the decoded command does at acceptance. -/
theorem stepAccepts : Obligations.StepAccepts := by
  intro s hi
  refine ⟨fun hh => step_rest hi hh, fun w rest hh => ?_⟩
  obtain ⟨f, hf, hb⟩ := begun (decodeHost_isHostCommand (s.cfg.onPort w)) (s.capture (s.cfg.onPort w) rest)
  obtain ⟨-, htr, hcmd, hhost⟩ := hb.frame
  rw [State.capture_cmd] at hcmd
  refine ⟨f.state, step_accept hi hh hf, hhost, htr, ?_, fun hidle => ?_⟩
  · rw [hcmd, onPort_toNat]
  · rw [hcmd]
    exact exec_of_ended hf hb hidle

/-! ### What a step of the busy engine can do -/

/-- The registers of control, the payload, the port and the responses are as they were and the trace has one entry more: so a
line action leaves them, done or failed, and so does the sequencer's move within the command after it. -/
structure Acted (s u : State) : Prop where
  cfg : u.cfg = s.cfg
  life : u.life = s.life
  seqCmd : u.seq.cmd = s.seq.cmd
  br : u.br = s.br
  en : u.en = s.en
  pb : u.pb = s.pb
  plen : u.plen = s.plen
  cmd : u.cmd = s.cmd
  host : u.host = s.host
  responses : u.responses = s.responses
  tr : ∃ tok, u.tr = s.tr ++ [tok]

/-- A line action: done, or failed with the error value drawn, which is raised. -/
inductive Performed (s : State) : Flow → Prop where
  | done (u : State) (hu : Acted s u) (hlf : u.lf = s.lf) : Performed s (.go u)
  | failed (e : ErrVal) (u : State) (hd : s.drawAt 0 = .err e) (hu : Acted s u) (hlf : u.lf = true) :
    Performed s (.raise (.lineFault e) u)

theorem performed (a : Act) (s : State) : Performed s (a.perform s) := by
  cases a <;> simp only [Act.perform, driveClk, driveDio, sampleDio, pauseHalf, pauseFull]
  case waitHalf | waitFull => exact .done _ ⟨rfl, rfl, rfl, rfl, rfl, rfl, rfl, rfl, rfl, rfl, _, rfl⟩ rfl
  all_goals
    cases hd : s.drawAt 0 with
    | ok b => exact .done _ ⟨rfl, rfl, rfl, rfl, rfl, rfl, rfl, rfl, rfl, rfl, _, rfl⟩ rfl
    | err e => exact .failed e _ hd ⟨rfl, rfl, rfl, rfl, rfl, rfl, rfl, rfl, rfl, rfl, _, rfl⟩ rfl

/-- The sequencer's move within a command leaves alone what a line action does. -/
theorem Acted.moved {s u t : State} (h : Acted s u) (hm : Moved u t) : Acted s t where
  cfg := (congrArg State.cfg hm.1).trans h.cfg
  life := (congrArg State.life hm.1).trans h.life
  seqCmd := hm.2.trans h.seqCmd
  br := (congrArg State.br hm.1).trans h.br
  en := (congrArg State.en hm.1).trans h.en
  pb := (congrArg State.pb hm.1).trans h.pb
  plen := (congrArg State.plen hm.1).trans h.plen
  cmd := (congrArg State.cmd hm.1).trans h.cmd
  host := (congrArg State.host hm.1).trans h.host
  responses := (congrArg State.responses hm.1).trans h.responses
  tr := h.tr.imp fun _ htr => (congrArg State.tr hm.1).trans htr

/-- The commands whose good end sets `EN` (10_state.md R39). -/
def CmdName.turnsOn (c : CmdName) : Prop :=
  c = .init ∨ c = .sendBytes ∨ c = .sendDigits ∨ c = .sendNumber ∨ c = .enable

/-- What a step of the busy engine leaves, `u` being the state after its line action: the command goes on, or it ends in one
of four ways. -/
inductive BusyStep (s : State) : State → Prop where
  | goesOn (t : State) (hu : Acted s t) (hlf : t.lf = s.lf) : BusyStep s t
  | faulted (e : ErrVal) (u : State) (hd : s.drawAt 0 = .err e) (hu : Acted s u) (hlf : u.lf = true) :
    BusyStep s (respond .lineFault (some e) (u.recordErr e))
  | timedOut (u : State) (hu : Acted s u) (hlf : u.lf = s.lf) : BusyStep s (respond .ackTimeout none (freeErrv u))
  | finished (life : Life) (br : BitVec 3) (en : Bool) (u : State) (hu : Acted s u) (hlf : u.lf = s.lf)
    (hbr : br = s.br ∨ s.seq.cmd = .init ∧ br = Config.brightnessInit)
    (hen : en = s.en ∨ en = true ∧ s.seq.cmd.turnsOn ∨ en = false ∧ s.seq.cmd = .disable) :
    BusyStep s (respondOk { u with life := life, br := br, en := en })
  | tornDown (u : State) (hc : s.seq.cmd = .teardown) (hu : Acted s u) : BusyStep s (teardownEnd u)

theorem BusyStep.of_lineFault {e : ErrVal} {s u : State} (hd : s.drawAt 0 = .err e) (hu : Acted s u) (hlf : u.lf = true) :
    BusyStep s (raise (.lineFault e) u) := by
  rw [raise]
  split
  · rename_i hc; exact .tornDown u (hu.seqCmd ▸ hc) hu
  · exact .faulted e u hd hu hlf

theorem BusyStep.of_ackTimeout {s u : State} (hu : Acted s u) (hlf : u.lf = s.lf) : BusyStep s (raise .ackTimeout u) := by
  rw [raise]
  split
  · rename_i hc; exact .tornDown u (hu.seqCmd ▸ hc) hu
  · exact .timedOut u hu hlf

theorem BusyStep.of_finishCommand {s u : State} (hc : s.seq.cmd ≠ .idle) (hu : Acted s u) (hlf : u.lf = s.lf) :
    BusyStep s (finishCommand u) := by
  have on (h : s.seq.cmd.turnsOn) : BusyStep s (respondOk (u.setEn true)) :=
    .finished u.life u.br true u hu hlf (.inl hu.br) (.inr (.inl ⟨rfl, h⟩))
  cases hs : s.seq.cmd <;> simp only [finishCommand, hu.seqCmd, hs]
  case idle => exact absurd hs hc
  case init => exact .finished .live Config.brightnessInit true u hu hlf (.inr ⟨hs, rfl⟩) (.inr (.inl ⟨rfl, .inl hs⟩))
  case sendBytes | sendDigits | sendNumber | enable => exact on (by simp [CmdName.turnsOn, hs])
  case disable => exact .finished u.life u.br false u hu hlf (.inl hu.br) (.inr (.inr ⟨rfl, hs⟩))
  case setBrightness => exact .finished u.life u.br u.en u hu hlf (.inl hu.br) (.inl hu.en)
  case teardown => exact .tornDown u hs hu

theorem BusyStep.of_advance {s u : State} (hc : s.seq.cmd ≠ .idle) (hu : Acted s u) (hlf : u.lf = s.lf) :
    BusyStep s (advance u) := by
  rcases advance_cases u with hm | h | h
  · exact .goesOn _ (hu.moved hm) ((congrArg State.lf hm.1).trans hlf)
  · rw [h]; exact .of_ackTimeout hu hlf
  · rw [h]; exact .of_finishCommand hc hu hlf

/-- Everything a step of the engine can do. -/
inductive StepDid (s : State) : State → Prop where
  /-- the idle engine with no word at the port -/
  | rest (hi : s.seq.cmd = .idle) (hh : s.host = []) : StepDid s s.dropResponse
  /-- acceptance -/
  | accept (w : HostWord) (rest : List HostWord) (f : Flow) (hi : s.seq.cmd = .idle) (hh : s.host = w :: rest)
    (hb : Begun (decodeHost (s.cfg.onPort w)) (s.capture (s.cfg.onPort w) rest) f) : StepDid s f.state
  /-- a line action and what follows it -/
  | act (t : State) (hc : s.seq.cmd ≠ .idle) (hb : BusyStep s t) : StepDid s t

theorem step_did {s t : State} (h : step s = .next t) : StepDid s t := by
  cases step_cases h with
  | rest hi hh => exact .rest hi hh
  | accept w rest f hi hh _ hb => exact .accept w rest f hi hh hb
  | stopped a t hc _ hp =>
    have hperf := performed a s
    rw [hp] at hperf
    cases hperf with
    | failed e u hd hu hlf => exact .act _ hc (.of_lineFault hd hu hlf)
  | moved a u hc _ hp =>
    have hperf := performed a s
    rw [hp] at hperf
    cases hperf with
    | done _ hu hlf => exact .act _ hc (.of_advance hc hu hlf)

end Sys2Proof.Machine
end

section
/-!
SUPPORT. The state family, register by register: the trace, the responses, `BR`, `LF`, `CMD`, `PB`, `PLEN` and `EN`, each read
off from what a step can do.
-/
namespace Sys2Proof.Machine

/-! ### The trace -/

/-- What follows a line action logs nothing and leaves `CMD`. -/
theorem BusyStep.acted {s t : State} (h : BusyStep s t) : ∃ u, Acted s u ∧ t.tr = u.tr ∧ t.cmd = u.cmd := by
  cases h with
  | goesOn _ hu => exact ⟨_, hu, rfl, rfl⟩
  | faulted _ _ _ hu => exact ⟨_, hu, rfl, rfl⟩
  | timedOut _ hu => exact ⟨_, hu, rfl, rfl⟩
  | finished _ _ _ _ hu => exact ⟨_, hu, rfl, rfl⟩
  | tornDown _ _ hu => exact ⟨_, hu, rfl, rfl⟩

theorem BusyStep.tr {s t : State} (h : BusyStep s t) : ∃ tok, t.tr = s.tr ++ [tok] := by
  obtain ⟨u, hu, htr, -⟩ := h.acted
  rw [htr]
  exact hu.tr

theorem BusyStep.cmd {s t : State} (h : BusyStep s t) : t.cmd = s.cmd := by
  obtain ⟨u, hu, -, hcmd⟩ := h.acted
  rw [hcmd, hu.cmd]

/-- Settles O48: a step of the busy engine is one line action, and the sequencer's move logs nothing. -/
theorem traceGrows : Obligations.TraceGrows := by
  intro s t h
  cases step_did h with
  | rest hi => exact ⟨fun hc => absurd hi hc, fun _ => rfl⟩
  | accept w rest f hi _ hb => exact ⟨fun hc => absurd hi hc, fun _ => hb.frame.2.1⟩
  | act _ hc hb => exact ⟨fun _ => hb.tr, fun hi => absurd hi hc⟩

/-! ### Responses -/

/-- One response was given, and on LINE_FAULT it carries what `rsp_err` shows (10_state.md R37). -/
def RespondedOnce (s t : State) : Prop :=
  ∃ r, responded s t r ∧ (r.status = .lineFault → r.err = some t.rspErr)

/-- Either a command goes on and no response was given, or it is over and one was. -/
def GoesOnOrResponds (s t : State) : Prop :=
  t.seq.cmd ≠ .idle ∧ t.responses = s.responses ∨ RespondedOnce s t

/-- A response with a status other than LINE_FAULT carries nothing. -/
theorem RespondedOnce.of_status {s t : State} {st : Status} (h : responded s t ⟨st, none⟩) (hst : st ≠ .lineFault) :
    RespondedOnce s t :=
  ⟨_, h, fun he => absurd he hst⟩

theorem BusyStep.goesOnOrResponds {s t : State} (h : BusyStep s t) (hc : s.seq.cmd ≠ .idle) : GoesOnOrResponds s t := by
  have given {u : State} (hu : Acted s u) (r : Response) : u.responses ++ [r] = s.responses ++ [r] :=
    congrArg (· ++ [r]) hu.responses
  cases h with
  | goesOn _ hu => exact .inl ⟨by rwa [hu.seqCmd], hu.responses⟩
  | faulted e _ _ hu => exact .inr ⟨⟨.lineFault, some e⟩, ⟨rfl, rfl, given hu _, rfl⟩, fun _ => rfl⟩
  | timedOut _ hu => exact .inr (.of_status (st := .ackTimeout) ⟨rfl, rfl, given hu _, rfl⟩ (by decide))
  | finished _ _ _ _ hu => exact .inr (.of_status (st := .ok) ⟨rfl, rfl, given hu _, rfl⟩ (by decide))
  | tornDown _ _ hu => exact .inr (.of_status (st := .ok) ⟨rfl, rfl, given hu _, rfl⟩ (by decide))

theorem Begun.goesOnOrResponds {i : Instr} {s : State} {f : Flow} (h : Begun i s f) : GoesOnOrResponds s f.state := by
  cases hf : f with
  | go u =>
    subst hf
    refine .inl ⟨h.go_busy, ?_⟩
    cases h <;> rfl
  | ended u =>
    subst hf
    cases h with
    | refused x hx =>
      refine .inr (.of_status (st := x.status) ⟨rfl, rfl, rfl, rfl⟩ ?_)
      rcases hx with rfl | rfl | rfl | rfl <;> decide
    | brightness => exact .inr (.of_status (st := .ok) ⟨rfl, rfl, rfl, rfl⟩ (by decide))

theorem GoesOnOrResponds.of_busy {s t : State} (h : GoesOnOrResponds s t) (hc : t.seq.cmd ≠ .idle) :
    t.responses = s.responses ∧ t.cmdReady = false := by
  rcases h with ⟨_, hr⟩ | ⟨_, ⟨_, _, _, hq⟩, _⟩
  · exact ⟨hr, beq_eq_false_iff_ne.mpr hc⟩
  · exact absurd (congrArg Seq.cmd hq) hc

theorem GoesOnOrResponds.of_idle {s t : State} (h : GoesOnOrResponds s t) (hc : t.seq.cmd = .idle) :
    ∃ r, responded s t r ∧ t.cmdReady = true ∧ (r.status = .lineFault → r.err = some t.rspErr) := by
  rcases h with ⟨hne, _⟩ | ⟨r, hr, he⟩
  · exact absurd hc hne
  · exact ⟨r, hr, beq_iff_eq.mpr hc, he⟩

/-- Settles O49: a step from a command, accepted or in progress, leaves it in progress or responds once. -/
theorem oneResponse : Obligations.OneResponse := by
  intro s t h
  cases step_did h with
  | rest hi hh =>
    refine ⟨fun hc => absurd hi hc, fun _ hor => ?_, fun _ _ => ⟨rfl, rfl, rfl⟩⟩
    rcases hor with hc | hne
    · exact absurd hi hc
    · exact absurd hh hne
  | accept w rest f _ hh hb =>
    have hg : GoesOnOrResponds s f.state := hb.goesOnOrResponds
    exact ⟨hg.of_busy, fun hc _ => hg.of_idle hc, fun _ hnil => absurd (hh.symm.trans hnil) (List.cons_ne_nil _ _)⟩
  | act _ hc hb =>
    have hg := hb.goesOnOrResponds hc
    exact ⟨hg.of_busy, fun ht _ => hg.of_idle ht, fun hi => absurd hi hc⟩

/-! ### BR -/

/-- Settles O54: of the ways a step can go, three write `BR`. -/
theorem brightnessChanges : Obligations.BrightnessChanges := by
  intro s t h hne
  cases step_did h with
  | rest => exact absurd rfl hne
  | accept w rest f hi hh hb =>
    cases hb with
    | brightness b hdec => exact ⟨.inr (.inr ⟨w, rest, b, hi, hh, hdec, rfl⟩), rfl⟩
    | refused | init | send | control => exact absurd rfl hne
  | act _ _ hb =>
    cases hb with
    | goesOn _ hu => exact absurd hu.br hne
    | faulted _ _ _ hu => exact absurd hu.br hne
    | timedOut _ hu => exact absurd hu.br hne
    | finished _ br _ _ _ _ hbr =>
      rcases hbr with hbr | hinit
      · exact absurd hbr hne
      · exact ⟨.inl hinit, rfl⟩
    | tornDown _ hc => exact ⟨.inr (.inl ⟨hc, rfl⟩), rfl⟩

/-! ### LF -/

/-- A step that keeps `LF` neither sets nor clears it. -/
theorem not_lf_changed {s t : State} {P Q : Prop} (h : t.lf = s.lf) :
    (t.lf = true → s.lf = false → P) ∧ (t.lf = false → s.lf = true → Q) := by
  rw [h]
  exact ⟨fun h1 h0 => absurd (h1.symm.trans h0) (by decide), fun h0 h1 => absurd (h1.symm.trans h0) (by decide)⟩

/-- Settles O55: a failed action sets `LF`; INIT's acceptance and TEARDOWN's end clear it; the rest keeps it. -/
theorem lineFaultFlag : Obligations.LineFaultFlag := by
  intro s t h
  cases step_did h with
  | rest => exact not_lf_changed rfl
  | accept w rest f hi hh hb =>
    cases hb with
    | init hdec hlife => exact ⟨nofun, fun _ _ => .inr ⟨hi, hlife, w, rest, hh, hdec⟩⟩
    | refused | brightness | send | control => exact not_lf_changed rfl
  | act _ hc hb =>
    cases hb with
    | goesOn _ _ hlf => exact not_lf_changed hlf
    | faulted e u hd _ hlf =>
      exact ⟨fun _ _ => ⟨hc, rfl, e, hd, rfl⟩, fun h0 => absurd (hlf.symm.trans h0) (by decide)⟩
    | timedOut _ _ hlf => exact not_lf_changed hlf
    | finished _ _ _ _ _ hlf => exact not_lf_changed hlf
    | tornDown _ hdown => exact ⟨nofun, fun _ _ => .inl ⟨hdown, rfl⟩⟩

/-! ### CMD, PB and PLEN -/

/-- The bytes at `PAYLOAD_MAX` and above are as they were: they do not exist (10_state.md R29). -/
def keepsBeyond (s t : State) : Prop := ∀ i (h : i < 15), s.cfg.payloadMax ≤ i → t.pb[i] = s.pb[i]

theorem keepsBeyond_of_pb {s t : State} (h : t.pb = s.pb) : keepsBeyond s t := fun _ _ _ => by rw [h]

theorem loadPayload_keepsBeyond {bs : List Byte} {s : State} (hb : bs.length ≤ s.cfg.payloadMax) :
    keepsBeyond s (loadPayload bs s) := by
  intro i h hi
  have hnone : bs[i]? = none := List.getElem?_eq_none (hb.trans hi)
  simp [loadPayload, hnone, Nat.not_lt.mpr hi]

theorem teardownEnd_keepsBeyond (s : State) : keepsBeyond s (teardownEnd s) := by
  intro i h hi
  simp [teardownEnd, Nat.not_lt.mpr hi]

/-- The busy engine writes `PB` and `PLEN` at TEARDOWN's end only. -/
theorem BusyStep.payload {s t : State} (h : BusyStep s t) :
    t.pb = s.pb ∧ t.plen = s.plen ∨ s.seq.cmd = .teardown ∧ t.seq.cmd = .idle ∧ keepsBeyond s t := by
  cases h with
  | goesOn _ hu => exact .inl ⟨hu.pb, hu.plen⟩
  | faulted _ _ _ hu => exact .inl ⟨hu.pb, hu.plen⟩
  | timedOut _ hu => exact .inl ⟨hu.pb, hu.plen⟩
  | finished _ _ _ _ hu => exact .inl ⟨hu.pb, hu.plen⟩
  | tornDown u hc hu =>
    refine .inr ⟨hc, rfl, fun i h hi => ?_⟩
    have hu_pb : u.pb[i] = s.pb[i] := keepsBeyond_of_pb hu.pb i h hi
    exact (teardownEnd_keepsBeyond u i h (hu.cfg ▸ hi)).trans hu_pb

/-- Acceptance writes `PB` and `PLEN` for a send only. -/
theorem Begun.payload {i : Instr} {s : State} {f : Flow} (h : Begun i s f) :
    f.state.pb = s.pb ∧ f.state.plen = s.plen ∨
      (f.state.seq.cmd = .sendBytes ∨ f.state.seq.cmd = .sendDigits ∨ f.state.seq.cmd = .sendNumber) ∧
        keepsBeyond s f.state := by
  cases h with
  | send c bs hc hb =>
    refine .inr ⟨?_, loadPayload_keepsBeyond hb⟩
    rcases hc with ⟨_, _, _, rfl⟩ | ⟨_, _, _, _, rfl⟩ | ⟨_, _, rfl⟩
    · exact .inl rfl
    · exact .inr (.inl rfl)
    · exact .inr (.inr rfl)
  | refused | brightness | init | control => exact .inl ⟨rfl, rfl⟩

/-- Settles O56: acceptance writes `CMD`; a send's acceptance and TEARDOWN's end write the payload, below `PAYLOAD_MAX`. -/
theorem payloadAndCommandWrites : Obligations.PayloadAndCommandWrites := by
  intro s t h
  have unwritten {u : State} {P : Prop} (hu : u.pb = s.pb ∧ u.plen = s.plen) (hne : u.pb ≠ s.pb ∨ u.plen ≠ s.plen) : P :=
    hne.elim (fun hpb => absurd hu.1 hpb) fun hplen => absurd hu.2 hplen
  cases step_did h with
  | rest => exact ⟨fun hne => absurd rfl hne, unwritten ⟨rfl, rfl⟩, keepsBeyond_of_pb rfl⟩
  | accept w rest f hi hh hb =>
    obtain ⟨-, -, hcmd, hhost⟩ := hb.frame
    rw [State.capture_cmd] at hcmd
    refine ⟨fun _ => ⟨hi, ?_, ?_⟩, ?_⟩
    · rw [hcmd, State.cmdWord, hh]; rfl
    · rw [hh]; exact hhost.symm
    · rcases hb.payload with hsame | ⟨hsend, hbeyond⟩
      · exact ⟨unwritten hsame, keepsBeyond_of_pb hsame.1⟩
      · exact ⟨fun _ => .inr ⟨hi, hsend⟩, hbeyond⟩
  | act _ _ hb =>
    refine ⟨fun hne => absurd hb.cmd hne, ?_⟩
    rcases hb.payload with hsame | ⟨hdown, hidle, hbeyond⟩
    · exact ⟨unwritten hsame, keepsBeyond_of_pb hsame.1⟩
    · exact ⟨fun _ => .inl ⟨hdown, hidle⟩, hbeyond⟩

/-! ### EN -/

/-- Settles O57: of the ways a step can go, the good end of a command and TEARDOWN's end write `EN`. -/
theorem enableFlag : Obligations.EnableFlag := by
  intro s t h hne
  cases step_did h with
  | rest => exact absurd rfl hne
  | accept w rest f _ _ hb =>
    cases hb with
    | refused | brightness | init | send | control => exact absurd rfl hne
  | act _ _ hb =>
    cases hb with
    | goesOn _ hu => exact absurd hu.en hne
    | faulted _ _ _ hu => exact absurd hu.en hne
    | timedOut _ hu => exact absurd hu.en hne
    | finished _ _ en _ _ _ _ hen =>
      refine ⟨rfl, rfl, ?_⟩
      rcases hen with hen | ⟨rfl, hon⟩ | ⟨rfl, hoff⟩
      · exact absurd hen hne
      · exact ⟨fun _ => hon, nofun⟩
      · exact ⟨nofun, fun _ => .inl hoff⟩
    | tornDown _ hdown => exact ⟨rfl, rfl, nofun, fun _ => .inr hdown⟩

end Sys2Proof.Machine
end

section
/-!
SUPPORT. The state family: the registers and ports that no rule reads (10_state.md R24, R37 to R40). Every operation of the
engine is blind to them: it leaves one rest of the state and makes one set of writes, whatever they hold.
-/
namespace Sys2Proof.Machine

/-! ### Writes to the flags -/

/-- Every flag is left as it was. -/
def FlagWrites.nothing : FlagWrites where
  clk := none
  dio := none
  clkO := none
  dioO := none
  en := none
  lf := none
  st := none
  errv := none
  entries := []
  rspValid := none
  given := []

@[simp] theorem FlagWrites.nothing_on (f : Flags) : FlagWrites.nothing.on f = f := by
  simp [FlagWrites.on, FlagWrites.nothing]

/-- The writes `v` and then the writes `w`. -/
def FlagWrites.followedBy (v w : FlagWrites) : FlagWrites where
  clk := w.clk.or v.clk
  dio := w.dio.or v.dio
  clkO := w.clkO.or v.clkO
  dioO := w.dioO.or v.dioO
  en := w.en.or v.en
  lf := w.lf.or v.lf
  st := w.st.or v.st
  errv := w.errv.or v.errv
  entries := v.entries ++ w.entries
  rspValid := w.rspValid.or v.rspValid
  given := v.given ++ w.given

theorem FlagWrites.followedBy_on (v w : FlagWrites) (f : Flags) : (v.followedBy w).on f = w.on (v.on f) := by
  simp [FlagWrites.on, FlagWrites.followedBy, Option.getD_or]

/-! ### Blindness -/

/-- Whatever the flags hold, `g` gives one rest of the state and one set of writes to them. -/
def Uniform (g : Flags → State) : Prop := ∃ (u : State) (w : FlagWrites), ∀ f, g f = u.setFlags (w.on f)

/-- An update that reads no flag. -/
def Blind (F : State → State) : Prop := ∀ s : State, Uniform fun f => F (s.setFlags f)

theorem Blind.of_writes {F : State → State} (w : State → FlagWrites)
    (h : ∀ s f, F (s.setFlags f) = (F s).setFlags ((w s).on f)) : Blind F :=
  fun s => ⟨F s, w s, h s⟩

/-- An update that does not touch the flags either. -/
theorem Blind.of_commutes {F : State → State} (h : ∀ s f, F (s.setFlags f) = (F s).setFlags f) : Blind F :=
  .of_writes (fun _ => .nothing) fun s f => by rw [h, FlagWrites.nothing_on]

theorem Blind.comp {F G : State → State} (hF : Blind F) (hG : Blind G) : Blind fun s => F (G s) := by
  intro s
  obtain ⟨u, v, hv⟩ := hG s
  obtain ⟨x, w, hw⟩ := hF u
  refine ⟨x, v.followedBy w, fun f => ?_⟩
  rw [FlagWrites.followedBy_on, ← hw]
  exact congrArg F (hv f)

/-- A choice by something that is no flag. -/
theorem Blind.ite {F G : State → State} {p : State → Prop} [DecidablePred p] (hF : Blind F) (hG : Blind G)
    (hp : ∀ s f, p (s.setFlags f) ↔ p s) : Blind fun s => if p s then F s else G s := by
  intro s
  by_cases h : p s
  · simpa only [hp, h, if_true] using hF s
  · simpa only [hp, h, if_false] using hG s

/-- An argument that is read from something that is no flag. -/
theorem Blind.read {α : Type} {F : α → State → State} {g : State → α} (hF : ∀ a, Blind (F a))
    (hg : ∀ s f, g (s.setFlags f) = g s) : Blind fun s => F (g s) s := by
  intro s
  simpa only [hg] using hF (g s) s

/-! ### The updates that write flags -/

theorem blind_setClk (out : Bool) (l : Level) : Blind (State.setClk out l) :=
  .of_writes (fun _ => { FlagWrites.nothing with clk := some l, clkO := some out }) fun s f => by
    simp [State.setClk, State.setFlags, FlagWrites.on, FlagWrites.nothing]

theorem blind_setDio (out : Bool) (l : Level) : Blind (State.setDio out l) :=
  .of_writes (fun _ => { FlagWrites.nothing with dio := some l, dioO := some out }) fun s f => by
    simp [State.setDio, State.setFlags, FlagWrites.on, FlagWrites.nothing]

theorem blind_logTok (t : Tok) : Blind (State.logTok t) :=
  .of_writes (fun _ => { FlagWrites.nothing with entries := [t] }) fun s f => by
    simp [State.logTok, State.setFlags, FlagWrites.on, FlagWrites.nothing]

theorem blind_markFault : Blind State.markFault :=
  .of_writes (fun _ => { FlagWrites.nothing with lf := some true }) fun s f => by
    simp [State.markFault, State.setFlags, FlagWrites.on, FlagWrites.nothing]

theorem blind_clearFault : Blind State.clearFault :=
  .of_writes (fun _ => { FlagWrites.nothing with lf := some false }) fun s f => by
    simp [State.clearFault, State.setFlags, FlagWrites.on, FlagWrites.nothing]

theorem blind_setEn (b : Bool) : Blind (State.setEn b) :=
  .of_writes (fun _ => { FlagWrites.nothing with en := some b }) fun s f => by
    simp [State.setEn, State.setFlags, FlagWrites.on, FlagWrites.nothing]

theorem blind_recordErr (e : ErrVal) : Blind (State.recordErr e) :=
  .of_writes (fun _ => { FlagWrites.nothing with errv := some e }) fun s f => by
    simp [State.recordErr, State.setFlags, FlagWrites.on, FlagWrites.nothing]

theorem blind_freeErrv : Blind freeErrv :=
  .of_writes (fun s => { FlagWrites.nothing with errv := some (freeErrv s).errv }) fun s f => by
    simp [freeErrv, State.setFlags, FlagWrites.on, FlagWrites.nothing]

theorem blind_respond (st : Status) (carried : Option ErrVal) : Blind (respond st carried) :=
  .of_writes (fun _ => { FlagWrites.nothing with st := some st, rspValid := some true, given := [⟨st, carried⟩] })
    fun s f => by simp [respond, State.setFlags, FlagWrites.on, FlagWrites.nothing]

theorem blind_dropResponse : Blind State.dropResponse :=
  .of_writes (fun _ => { FlagWrites.nothing with rspValid := some false }) fun s f => by
    simp [State.dropResponse, State.setFlags, FlagWrites.on, FlagWrites.nothing]

theorem blind_capture (w : HostWord) (rest : List HostWord) : Blind (State.capture w rest) :=
  .of_writes (fun _ => { FlagWrites.nothing with rspValid := some false }) fun s f => by
    simp [State.capture, State.setFlags, FlagWrites.on, FlagWrites.nothing]

theorem blind_teardownEnd : Blind teardownEnd :=
  .of_writes (fun s =>
    { clk := some .x, dio := some .x, clkO := some (teardownEnd s).clkO, dioO := some (teardownEnd s).dioO, en := some false,
      lf := some false, st := some .ok, errv := some (teardownEnd s).errv, entries := [], rspValid := some true,
      given := [⟨.ok, none⟩] })
    fun s f => by simp only [FlagWrites.on, List.append_nil]; rfl

/-! ### The end of a command -/

theorem blind_respondOk : Blind respondOk := (blind_respond .ok none).comp blind_freeErrv

theorem blind_raise (x : Exn) : Blind (raise x) := by
  cases x with
  | lineFault e =>
    exact .ite (p := fun s => s.seq.cmd = .teardown) blind_teardownEnd ((blind_respond _ _).comp (blind_recordErr e))
      fun _ _ => Iff.rfl
  | ackTimeout =>
    exact .ite (p := fun s => s.seq.cmd = .teardown) blind_teardownEnd ((blind_respond _ _).comp blind_freeErrv)
      fun _ _ => Iff.rfl
  | badBrightness | badDigit | badLength | badLifecycle => exact blind_respond _ _

theorem blind_finishCommand : Blind finishCommand := by
  intro s
  have hcmd : ∀ f, (s.setFlags f).seq.cmd = s.seq.cmd := fun _ => rfl
  cases hs : s.seq.cmd <;> simp only [finishCommand, hcmd, hs]
  case idle => exact ⟨s, .nothing, fun f => by rw [FlagWrites.nothing_on]⟩
  case init =>
    exact (blind_respondOk.comp (blind_setEn true)).comp
      (Blind.of_commutes (F := fun s => s.build.setBr Config.brightnessInit) fun _ _ => rfl) s
  case sendBytes | sendDigits | sendNumber | enable => exact blind_respondOk.comp (blind_setEn true) s
  case disable => exact blind_respondOk.comp (blind_setEn false) s
  case setBrightness => exact blind_respondOk s
  case teardown => exact blind_teardownEnd s

/-! ### The sequencer's move -/

theorem afterStart_setFlags (s : State) (f : Flags) : afterStart (s.setFlags f) = (afterStart s).setFlags f := by
  have hphase : (s.setFlags f).seq.phase = s.seq.phase := rfl
  cases hs : s.seq.phase <;> simp only [afterStart, hphase, hs] <;> rfl

theorem payloadHead_setFlags (s : State) (f : Flags) : payloadHead (s.setFlags f) = (payloadHead s).setFlags f := by
  rw [payloadHead, payloadHead, apply_ite (State.setFlags f)]
  rfl

theorem afterByte_setFlags (s : State) (f : Flags) : afterByte (s.setFlags f) = (afterByte s).setFlags f := by
  have hphase : (s.setFlags f).seq.phase = s.seq.phase := rfl
  have hpay : (s.setFlags f).seq.payload = s.seq.payload := rfl
  cases hs : s.seq.phase <;> simp only [afterByte, hphase, hs]
  case b =>
    rw [← payloadHead_setFlags, hpay]
    cases s.seq.payload <;> rfl
  all_goals rfl

theorem blind_afterStop : Blind afterStop := by
  intro s
  have hphase : ∀ f, (s.setFlags f).seq.phase = s.seq.phase := fun _ => rfl
  cases hs : s.seq.phase <;> simp only [afterStop, hphase, hs]
  case a => exact Blind.of_commutes (F := fun s => (s.inPhase .b).enter .start) (fun _ _ => rfl) s
  case b => exact Blind.of_commutes (F := fun s => (s.inPhase .c).enter .start) (fun _ _ => rfl) s
  case c | none => exact blind_finishCommand s

/-- Going on in the step table, and at its end the move `G`. -/
theorem blind_nextStep {G : State → State} (hG : Blind G) (n : Nat) :
    Blind fun s => if s.seq.step < n then s.atStep (s.seq.step + 1) else G s :=
  .ite (p := fun s => s.seq.step < n) (.of_commutes fun _ _ => rfl) hG fun _ _ => Iff.rfl

theorem blind_advance : Blind advance := by
  intro s
  have hseq : ∀ f, (s.setFlags f).seq = s.seq := fun _ => rfl
  cases hs : s.seq.rt <;> simp only [advance, hseq, hs]
  case none => exact Blind.of_commutes (F := id) (fun _ _ => rfl) s
  case start => exact blind_nextStep (.of_commutes afterStart_setFlags) 6 s
  case stop => exact blind_nextStep blind_afterStop 7 s
  case initSeq => exact blind_nextStep blind_finishCommand 2 s
  case sendByte =>
    refine Blind.ite (p := fun s => s.seq.step < 48)
      (F := fun s => (if s.seq.step % 6 = 5 then shiftOut s else s).atStep (s.seq.step + 1)) ?_
      (.ite (p := fun s => s.seq.step = 48) (.of_commutes fun _ _ => rfl) (.of_commutes afterByte_setFlags) fun _ _ => Iff.rfl)
      (fun _ _ => Iff.rfl) s
    refine .of_commutes fun s f => ?_
    have hstep : (s.setFlags f).seq.step = s.seq.step := rfl
    rw [hstep]
    split <;> rfl
  case waitAck =>
    have hcount : Blind fun s => (countSample s).atStep (if s.ret = .bit true then 1 else 2) := .of_commutes fun _ _ => rfl
    have hagain : Blind fun s => if s.ac = 255 then raise .ackTimeout s else s.atStep 0 :=
      .ite (p := fun s => s.ac = 255) (blind_raise _) (.of_commutes fun _ _ => rfl) fun _ _ => Iff.rfl
    have hclose : Blind fun s => (s.enter .sendByte).atStep 49 := .of_commutes fun _ _ => rfl
    exact Blind.ite (p := fun s => s.seq.step = 0) hcount
      (.ite (p := fun s => s.seq.step = 1) hagain (blind_nextStep hclose 5) fun _ _ => Iff.rfl) (fun _ _ => Iff.rfl) s

/-! ### A line action -/

/-- A line action whose draw decides between going on from `F` and raising LineFault in `G`. -/
theorem blind_drawn {F : Bool → State → State} {G : ErrVal → State → State} (hF : ∀ b, Blind (F b)) (hG : ∀ e, Blind (G e)) :
    Blind fun s => (match s.drawAt 0 with
      | .ok b => Flow.go (F b s)
      | .err e => .raise (.lineFault e) (G e s)).after advance := by
  intro s
  have hdraw : ∀ f, (s.setFlags f).drawAt 0 = s.drawAt 0 := fun _ => rfl
  simp only [hdraw]
  cases s.drawAt 0 with
  | ok b => exact blind_advance.comp (hF b) s
  | err e => exact (blind_raise (.lineFault e)).comp (hG e) s

theorem blind_skipDraws (n : Nat) : Blind (State.skipDraws n) := .of_commutes fun _ _ => rfl

/-- A line action and the sequencer's move after it. -/
theorem blind_perform (a : Act) : Blind fun s => (a.perform s).after advance := by
  have clk (hi : Bool) : Blind fun s => (driveClk hi s).after advance := by
    refine blind_drawn (fun _ => (blind_logTok _).comp ((blind_setClk _ _).comp (blind_skipDraws 1))) fun e => ?_
    refine (blind_logTok _).comp (blind_markFault.comp ?_)
    exact .read (g := fun s => Config.freeNat s.fresh 1 % 2 == 1) (F := fun o s => (s.skipDraws 1).setClk o .x)
      (fun o => (blind_setClk o _).comp (blind_skipDraws 1)) fun _ _ => rfl
  have dio (hi : Bool) : Blind fun s => (driveDio hi s).after advance := by
    refine blind_drawn (fun _ => (blind_logTok _).comp ((blind_setDio _ _).comp (blind_skipDraws 1))) fun e => ?_
    refine (blind_logTok _).comp (blind_markFault.comp ?_)
    exact .read (g := fun s => Config.freeNat s.fresh 2 % 2 == 1) (F := fun o s => (s.skipDraws 1).setDio o .x)
      (fun o => (blind_setDio o _).comp (blind_skipDraws 1)) fun _ _ => rfl
  cases a with
  | clkLo => exact clk false
  | clkHi => exact clk true
  | dioLo => exact dio false
  | dioHi => exact dio true
  | dioSample =>
    refine blind_drawn (fun b => (blind_logTok _).comp ?_) fun e =>
      (blind_logTok _).comp (blind_markFault.comp (blind_skipDraws 1))
    exact .of_commutes (F := fun s => (s.skipDraws 1).returning (.bit b)) fun _ _ => rfl
  | waitHalf => exact blind_advance.comp (blind_logTok _)
  | waitFull => exact blind_advance.comp (blind_logTok _)

/-! ### Acceptance -/

/-- A choice between two ways to begin, by something that is no flag. -/
theorem Blind.iteState {k l : State → Flow} {p : State → Prop} [DecidablePred p] (hk : Blind fun s => (k s).state)
    (hl : Blind fun s => (l s).state) (hp : ∀ s f, p (s.setFlags f) ↔ p s) :
    Blind fun s => (if p s then k s else l s).state := by
  simpa only [apply_ite Flow.state] using hk.ite hl hp

theorem blind_refuse (x : Exn) : Blind fun s => (Flow.raise x s).state := blind_raise x

theorem blind_requireLive {k : State → Flow} (hk : Blind fun s => (k s).state) : Blind fun s => (requireLive s k).state :=
  hk.iteState (p := fun s => s.life = .live) (blind_refuse .badLifecycle) fun _ _ => Iff.rfl

/-- A payload of `n` bytes: refused where the buffer is too small. -/
theorem blind_requireFits {n : Nat} {k : State → Flow} (hk : Blind fun s => (k s).state) :
    Blind fun s => (if s.cfg.payloadMax < n then .raise .badLength s else k s).state :=
  (blind_refuse .badLength).iteState (p := fun s => s.cfg.payloadMax < n) hk fun _ _ => Iff.rfl

/-- A host command at its acceptance. -/
theorem blind_begin {i : Instr} (hi : i.isHostCommand = true) :
    ∃ k : State → Flow, (∀ s, beginCommand i s = some (k s)) ∧ Blind fun s => (k s).state := by
  cases i <;> simp only [Instr.isHostCommand, Bool.false_eq_true] at hi
  case init =>
    refine ⟨beginInit, fun _ => rfl, ?_⟩
    have hstart : Blind fun s => s.clearFault.position .init .none .initSeq :=
      Blind.comp (F := State.position .init .none .initSeq) (.of_commutes fun _ _ => rfl) blind_clearFault
    exact (blind_refuse .badLifecycle).iteState (p := fun s => s.life = .live) hstart fun _ _ => Iff.rfl
  case sendBytes len arg =>
    exact ⟨beginSendBytes len arg, fun _ => rfl, blind_requireLive (blind_requireFits (.of_commutes fun _ _ => rfl))⟩
  case sendDigits bit len arg =>
    refine ⟨beginSendDigits bit len arg, fun _ => rfl, blind_requireLive (blind_requireFits ?_)⟩
    cases digitsOf (items len arg) with
    | none => exact blind_refuse .badDigit
    | some ds => exact .of_commutes fun _ _ => rfl
  case sendNumber v =>
    exact ⟨beginSendNumber v, fun _ => rfl, blind_requireLive (blind_requireFits (.of_commutes fun _ _ => rfl))⟩
  case enable => exact ⟨beginEnable, fun _ => rfl, blind_requireLive (.of_commutes fun _ _ => rfl)⟩
  case disable => exact ⟨beginDisable, fun _ => rfl, blind_requireLive (.of_commutes fun _ _ => rfl)⟩
  case teardown => exact ⟨beginTeardown, fun _ => rfl, blind_requireLive (.of_commutes fun _ _ => rfl)⟩
  case setBrightness b =>
    refine ⟨beginSetBrightness b, fun _ => rfl, blind_requireLive ?_⟩
    have hset : Blind (State.setBr (b.setWidth 3)) := .of_commutes fun _ _ => rfl
    exact (blind_refuse .badBrightness).iteState (p := fun _ => Config.brMax < b.toNat) (blind_respondOk.comp hset)
      fun _ _ => Iff.rfl

/-! ### The step -/

/-- Settles O51: which of the ways a step goes is decided by what is no flag, and each way is blind to them. -/
theorem flagsDecideNothing : Obligations.FlagsDecideNothing := by
  intro s
  have answered {F : State → State} (hF : Blind F) (h : ∀ f, step (s.setFlags f) = .next (F (s.setFlags f))) :
      ∃ (u : State) (w : FlagWrites), ∀ f : Flags, step (s.setFlags f) = .next (u.setFlags (w.on f)) := by
    obtain ⟨u, w, hu⟩ := hF s
    exact ⟨u, w, fun f => (h f).trans (congrArg Host.Outcome.next (hu f))⟩
  by_cases hi : s.seq.cmd = .idle
  · refine .inr ?_
    cases hh : s.host with
    | nil => exact answered blind_dropResponse fun f => step_rest hi hh
    | cons w rest =>
      obtain ⟨k, hk, hblind⟩ := blind_begin (decodeHost_isHostCommand (s.cfg.onPort w))
      exact answered (hblind.comp (blind_capture (s.cfg.onPort w) rest)) fun f => step_accept hi hh (hk _)
  · cases ha : currentAct s with
    | none =>
      refine .inl ⟨.sequencerLost, fun f => ?_⟩
      have hnone : currentAct (s.setFlags f) = none := ha
      have hbusy : ¬ (s.setFlags f).seq.cmd = .idle := hi
      rw [step, stepEngine, if_neg hbusy, lineStep, hnone]
    | some a => exact .inr (answered (blind_perform a) fun f => step_busy hi ha)

end Sys2Proof.Machine
end

section
/-!
SUPPORT. The memory family (spec/20_memory.md R78, R80): a step of the invariant never stops, and a busy engine reads nothing
from the command port.
-/
namespace Sys2Proof.Machine

/-! ### No step stops -/

/-- Every step of SEND_BYTE's table is a line action (41_transport.md R152). -/
theorem byteAct_of_lt (b : Bool) {n : Nat} (h : n < 50) : ∃ a, byteAct b n = some a := by
  by_cases hcell : n < 48
  · have hk : n % 6 < (cellActs b).length := Nat.mod_lt n (by decide)
    exact ⟨_, by rw [byteAct, if_pos hcell, List.getElem?_eq_getElem hk]⟩
  · obtain rfl | rfl : n = 48 ∨ n = 49 := by omega
    · exact ⟨.dioHi, rfl⟩
    · exact ⟨.waitHalf, rfl⟩

/-- A position of the step tables names a line action (10_state.md R33). -/
theorem currentAct_of_inTable {s : State} (h : s.seq.inTable) : ∃ a, currentAct s = some a := by
  cases hr : s.seq.rt <;> simp only [Seq.inTable, hr] at h <;> simp only [currentAct, hr]
  case sendByte => exact byteAct_of_lt _ h
  case start | stop | initSeq | waitAck => exact ⟨_, List.getElem?_eq_getElem h⟩

/-- Settles O47: the idle engine rests or accepts, and where a command is in progress `SEQ` stands in a step table. -/
theorem stepNeverStops : Obligations.StepNeverStops := by
  intro s hinv
  by_cases hi : s.seq.cmd = .idle
  · cases hh : s.host with
    | nil => exact ⟨_, step_rest hi hh⟩
    | cons w rest =>
      obtain ⟨f, hf, -⟩ := begun (decodeHost_isHostCommand (s.cfg.onPort w)) (s.capture (s.cfg.onPort w) rest)
      exact ⟨_, step_accept hi hh hf⟩
  · obtain ⟨a, ha⟩ := currentAct_of_inTable (seq_inTable hinv hi)
    exact ⟨_, step_busy hi ha⟩

/-! ### The command port -/

/-- The state with other words at the command port. -/
def State.withPort (h : List HostWord) (s : State) : State := { s with host := h }

/-- An update that neither reads nor writes the command port. -/
def PortFree (F : State → State) : Prop := ∀ h s, F (s.withPort h) = (F s).withPort h

/-- A choice by something other than the port. -/
theorem PortFree.ite {F G : State → State} {p : State → Prop} [DecidablePred p] (hF : PortFree F) (hG : PortFree G)
    (hp : ∀ h s, p (s.withPort h) ↔ p s) : PortFree fun s => if p s then F s else G s := by
  intro h s
  simp only [hp, hF h s, hG h s, apply_ite (State.withPort h)]

theorem portFree_raise (x : Exn) : PortFree (raise x) := by
  cases x with
  | lineFault e => exact .ite (p := fun s => s.seq.cmd = .teardown) (fun _ _ => rfl) (fun _ _ => rfl) fun _ _ => Iff.rfl
  | ackTimeout => exact .ite (p := fun s => s.seq.cmd = .teardown) (fun _ _ => rfl) (fun _ _ => rfl) fun _ _ => Iff.rfl
  | badBrightness | badDigit | badLength | badLifecycle => exact fun _ _ => rfl

theorem portFree_finishCommand : PortFree finishCommand := by
  intro h s
  have hcmd : (s.withPort h).seq.cmd = s.seq.cmd := rfl
  cases hs : s.seq.cmd <;> simp only [finishCommand, hcmd, hs] <;> rfl

theorem portFree_afterStart : PortFree afterStart := by
  intro h s
  have hphase : (s.withPort h).seq.phase = s.seq.phase := rfl
  cases hs : s.seq.phase <;> simp only [afterStart, hphase, hs] <;> rfl

theorem portFree_payloadHead : PortFree payloadHead :=
  .ite (p := fun s => s.pi = s.plen) (fun _ _ => rfl) (fun _ _ => rfl) fun _ _ => Iff.rfl

theorem portFree_afterByte : PortFree afterByte := by
  intro h s
  have hphase : (s.withPort h).seq.phase = s.seq.phase := rfl
  have hpay : (s.withPort h).seq.payload = s.seq.payload := rfl
  cases hs : s.seq.phase <;> simp only [afterByte, hphase, hs]
  case b =>
    rw [← portFree_payloadHead, hpay]
    cases s.seq.payload <;> rfl
  all_goals rfl

theorem portFree_afterStop : PortFree afterStop := by
  intro h s
  have hphase : (s.withPort h).seq.phase = s.seq.phase := rfl
  cases hs : s.seq.phase <;> simp only [afterStop, hphase, hs]
  case a | b => rfl
  case c | none => exact portFree_finishCommand h s

/-- Going on in the step table, and at its end the move `G`. -/
theorem portFree_nextStep {G : State → State} (hG : PortFree G) (n : Nat) :
    PortFree fun s => if s.seq.step < n then s.atStep (s.seq.step + 1) else G s :=
  .ite (p := fun s => s.seq.step < n) (fun _ _ => rfl) hG fun _ _ => Iff.rfl

theorem portFree_advance : PortFree advance := by
  intro h s
  have hseq : (s.withPort h).seq = s.seq := rfl
  cases hs : s.seq.rt <;> simp only [advance, hseq, hs]
  case start => exact portFree_nextStep portFree_afterStart 6 h s
  case stop => exact portFree_nextStep portFree_afterStop 7 h s
  case initSeq => exact portFree_nextStep portFree_finishCommand 2 h s
  case sendByte =>
    rw [portFree_afterByte h s]
    simp only [apply_ite (State.withPort h)]
    split
    · split <;> rfl
    · rfl
  case waitAck =>
    have hret : (s.withPort h).ret = s.ret := rfl
    have hac : (s.withPort h).ac = s.ac := rfl
    rw [portFree_raise .ackTimeout h s, hret, hac]
    simp only [apply_ite (State.withPort h)]
    rfl

/-- A line action whose draw decides between going on from `F` and raising LineFault in `G`. -/
theorem portFree_drawn {F : Bool → State → State} {G : ErrVal → State → State} (hF : ∀ b, PortFree (F b))
    (hG : ∀ e, PortFree (G e)) :
    PortFree fun s => (match s.drawAt 0 with
      | .ok b => Flow.go (F b s)
      | .err e => .raise (.lineFault e) (G e s)).after advance := by
  intro h s
  have hdraw : (s.withPort h).drawAt 0 = s.drawAt 0 := rfl
  simp only [hdraw]
  cases s.drawAt 0 with
  | ok b => exact (congrArg advance (hF b h s)).trans (portFree_advance h _)
  | err e => exact (congrArg (raise (.lineFault e)) (hG e h s)).trans (portFree_raise _ h _)

/-- A line action and the sequencer's move after it. -/
theorem portFree_perform (a : Act) : PortFree fun s => (a.perform s).after advance := by
  cases a with
  | clkLo | clkHi | dioLo | dioHi | dioSample => exact portFree_drawn (fun _ _ _ => rfl) fun _ _ _ => rfl
  | waitHalf => exact fun h s => portFree_advance h (s.logTok .wh)
  | waitFull => exact fun h s => portFree_advance h (s.logTok .wf)

/-- A busy engine whose `SEQ` is in no step table stops. -/
theorem step_lost {s : State} (hc : s.seq.cmd ≠ .idle) (ha : currentAct s = none) : step s = .fault .sequencerLost := by
  rw [step, stepEngine, if_neg hc, lineStep, ha]

/-- Settles O50: neither the line action that `SEQ` names nor what follows it depends on the port. -/
theorem portUnseenWhenBusy : Obligations.PortUnseenWhenBusy := by
  intro s h hc
  cases ha : currentAct s with
  | none =>
    have hport : step { s with host := h } = .fault .sequencerLost := step_lost (s := s.withPort h) hc ha
    rw [step_lost hc ha, hport]
  | some a =>
    have hport : step { s with host := h } = .next (((a.perform s).after advance).withPort h) := by
      rw [← portFree_perform a h s]
      exact step_busy (s := s.withPort h) hc ha
    rw [step_busy hc ha, hport]
    rfl

end Sys2Proof.Machine
end

section
/-!
SUPPORT. The memory family (spec/20_memory.md R64, R79): what a host command leaves of `BR`, of the payload registers and of the
lines.
-/
namespace Sys2Proof.Machine

/-! ### What the line actions of a command leave of the payload registers -/

/-- The payload registers are as they were, unless the command is TEARDOWN, whose end writes them (44_lifecycle.md R215); no other
command turns into it. -/
def SparesPayload (s t : State) : Prop := s.seq.cmd ≠ .teardown → t.seq.cmd ≠ .teardown ∧ keepsPayload s t

theorem SparesPayload.refl (s : State) : SparesPayload s s := fun hc => ⟨hc, rfl, rfl, rfl⟩

theorem keepsPayload.trans {s t u : State} (h : keepsPayload s t) (h' : keepsPayload t u) : keepsPayload s u := by
  obtain ⟨hpb, hplen, hpi⟩ := h
  obtain ⟨hpb', hplen', hpi'⟩ := h'
  exact ⟨hpb'.trans hpb, hplen'.trans hplen, hpi'.trans hpi⟩

theorem SparesPayload.trans {s t u : State} (h : SparesPayload s t) (h' : SparesPayload t u) : SparesPayload s u := by
  intro hc
  obtain ⟨hct, hst⟩ := h hc
  obtain ⟨hcu, htu⟩ := h' hct
  exact ⟨hcu, hst.trans htu⟩

theorem SparesPayload.bind {s : State} {f : Flow} {k : State → Flow} (hf : SparesPayload s f.state)
    (hk : ∀ t, SparesPayload t (k t).state) : SparesPayload s (f.bind k).state := by
  cases f with
  | go t => exact hf.trans (hk t)
  | ended t => exact hf

theorem sparesPayload_raise (x : Exn) (s : State) : SparesPayload s (raise x s) := by
  intro hc
  cases x with
  | lineFault e => rw [raise, if_neg hc]; exact ⟨nofun, rfl, rfl, rfl⟩
  | ackTimeout => rw [raise, if_neg hc]; exact ⟨nofun, rfl, rfl, rfl⟩
  | badBrightness | badDigit | badLength | badLifecycle => exact ⟨nofun, rfl, rfl, rfl⟩

theorem sparesPayload_finishCommand (s : State) : SparesPayload s (finishCommand s) := by
  intro hc
  cases hs : s.seq.cmd <;> simp only [finishCommand, hs]
  case teardown => exact absurd hs hc
  all_goals exact ⟨nofun, rfl, rfl, rfl⟩

/-- A line action whose draw decides between going on with `F` and raising LineFault in `G`. -/
theorem sparesPayload_drawn {s : State} {F : Bool → State} {G : ErrVal → State} (hF : ∀ b, SparesPayload s (F b))
    (hG : ∀ e, SparesPayload s (G e)) :
    SparesPayload s (match s.drawAt 0 with
      | .ok b => Flow.go (F b)
      | .err e => .raise (.lineFault e) (G e)).state := by
  cases s.drawAt 0 with
  | ok b => exact hF b
  | err e => exact (hG e).trans (sparesPayload_raise (.lineFault e) (G e))

theorem sparesPayload_perform (a : Act) (s : State) : SparesPayload s (a.perform s).state := by
  cases a with
  | clkLo | clkHi | dioLo | dioHi | dioSample => exact sparesPayload_drawn (fun _ => .refl s) fun _ => .refl s
  | waitHalf | waitFull => exact .refl s

theorem sparesPayload_performAll (as : List Act) (s : State) : SparesPayload s (performAll as s).state := by
  induction as generalizing s with
  | nil => exact .refl s
  | cons a as ih => exact .bind (sparesPayload_perform a s) ih

theorem sparesPayload_sendBits (n : Nat) (s : State) : SparesPayload s (sendBits n s).state := by
  induction n generalizing s with
  | zero => exact .refl s
  | succ n ih => exact .bind (sparesPayload_performAll _ s) fun t => ih (shiftOut t)

theorem sparesPayload_poll (n : Nat) (s : State) : SparesPayload s (poll n s).state := by
  induction n generalizing s with
  | zero => exact sparesPayload_raise .ackTimeout s
  | succ n ih =>
    refine .bind (sparesPayload_perform .dioSample s) fun t => ?_
    dsimp only
    split
    · exact .bind (sparesPayload_perform .waitFull (countSample t)) ih
    · exact sparesPayload_performAll ackActs (countSample t)

theorem sparesPayload_sendByte (v : Byte) (s : State) : SparesPayload s (sendByte v s).state :=
  .bind (sparesPayload_sendBits 8 (loadByte v s)) fun t => .bind (sparesPayload_perform .dioHi t) fun u =>
    .bind (sparesPayload_poll _ (clearPoll u)) (sparesPayload_perform .waitHalf)

theorem sparesPayload_phaseC (c : Byte) (s : State) : SparesPayload s (phaseC c s).state :=
  .bind (sparesPayload_performAll startActs (s.inPhase .c)) fun t =>
    .bind (sparesPayload_sendByte c t) (sparesPayload_performAll stopActs)

/-! ### The payload registers -/

/-- The commands that are neither a send nor TEARDOWN. -/
def leavesPayload (i : Instr) : Prop := i = .init ∨ i = .enable ∨ i = .disable ∨ ∃ b, i = .setBrightness b

theorem sparesPayload_commandBody {i : Instr} (hi : leavesPayload i) (s : State) :
    SparesPayload s (commandBody i s).state := by
  rcases hi with rfl | rfl | rfl | ⟨b, rfl⟩
  · exact sparesPayload_performAll initActs s
  · exact sparesPayload_phaseC (ctrl s.cfg s.br) s
  · exact sparesPayload_phaseC s.cfg.ctrlOff s
  · exact .refl s

theorem Begun.payload_kept {i : Instr} {s : State} {f : Flow} (hb : Begun i s f) (hi : leavesPayload i) :
    f.state.seq.cmd ≠ .teardown ∧ keepsPayload s f.state := by
  cases hb with
  | refused | brightness | init => exact ⟨nofun, rfl, rfl, rfl⟩
  | send c bs hc =>
    rcases hc with ⟨_, _, rfl, _⟩ | ⟨_, _, _, rfl, _⟩ | ⟨_, rfl, _⟩ <;> simp [leavesPayload] at hi
  | control c hc =>
    rcases hc with ⟨_, rfl⟩ | ⟨_, rfl⟩ | ⟨rfl, _⟩
    · exact ⟨nofun, rfl, rfl, rfl⟩
    · exact ⟨nofun, rfl, rfl, rfl⟩
    · simp [leavesPayload] at hi

/-- INIT, ENABLE, DISABLE and SET_BRIGHTNESS leave the payload registers (20_memory.md R64). -/
theorem command_keepsPayload {i : Instr} {s : State} {f : Flow} (hb : Begun i s f) (hi : leavesPayload i) :
    keepsPayload s ((f.bind (commandBody i)).bind finish).state := by
  obtain ⟨hc, hbegun⟩ := hb.payload_kept hi
  have hrest : SparesPayload f.state ((f.bind (commandBody i)).bind finish).state :=
    .bind (.bind (.refl f.state) (sparesPayload_commandBody hi)) sparesPayload_finishCommand
  exact hbegun.trans (hrest hc).2

/-! ### BR -/

theorem Kept.commandBody {R E : State → State → Prop} (h : Kept R E) (i : Instr) (s : State) :
    (commandBody i s).Leaves R E s := by
  cases i <;> simp only [Machine.commandBody]
  case init => exact h.performAll initActs s
  case sendBytes | sendDigits | sendNumber => exact h.frame s
  case enable | disable | teardown => exact h.phaseC _ s
  all_goals exact h.refl s

/-- A command's end leaves `BR`, but for INIT's and TEARDOWN's (10_state.md R34). -/
theorem finishCommand_br {s : State} (hinit : s.seq.cmd ≠ .init) (hdown : s.seq.cmd ≠ .teardown) :
    (finishCommand s).br = s.br := by
  cases hs : s.seq.cmd <;> simp only [finishCommand, hs]
  case init => exact absurd hs hinit
  case teardown => exact absurd hs hdown
  all_goals rfl

/-- From a command's first line action on only the ends of INIT and TEARDOWN write `BR` (10_state.md R34). -/
theorem commandBody_br (i : Instr) {s : State} (hinit : s.seq.cmd ≠ .init) (hdown : s.seq.cmd ≠ .teardown) :
    ((commandBody i s).bind finish).state.br = s.br := by
  have hbody := kept_steady.commandBody i s
  cases hr : commandBody i s with
  | go u =>
    rw [hr] at hbody
    obtain ⟨-, hbr, -, -, -, -, -, hcmd, -⟩ := hbody
    exact (finishCommand_br (hcmd ▸ hinit) (hcmd ▸ hdown)).trans hbr
  | ended u =>
    rw [hr] at hbody
    obtain ⟨-, -, -, hanswered, -⟩ := hbody
    obtain ⟨-, hbr, -⟩ := hanswered hdown
    exact hbr

/-- A send, ENABLE and DISABLE leave `BR` (10_state.md R34). -/
theorem command_br {i : Instr} {s : State} {f : Flow} (hb : Begun i s f) (hinit : i ≠ .init) (hdown : i ≠ .teardown)
    (hset : ∀ b, i ≠ .setBrightness b) : ((f.bind (commandBody i)).bind finish).state.br = s.br := by
  cases hb with
  | refused => rfl
  | brightness b hi => exact absurd hi (hset b)
  | init hi => exact absurd hi hinit
  | send c bs hc =>
    have hcmd : c ≠ .init ∧ c ≠ .teardown := by
      rcases hc with ⟨_, _, _, rfl⟩ | ⟨_, _, _, _, rfl⟩ | ⟨_, _, rfl⟩ <;> exact ⟨nofun, nofun⟩
    exact commandBody_br i hcmd.1 hcmd.2
  | control c hc =>
    rcases hc with ⟨_, rfl⟩ | ⟨_, rfl⟩ | ⟨hi, _⟩
    · exact commandBody_br i nofun nofun
    · exact commandBody_br i nofun nofun
    · exact absurd hi hdown

/-! ### SET_BRIGHTNESS -/

/-- SET_BRIGHTNESS, refused or done, performs no line action and leaves `LF` and `EN` (44_lifecycle.md R213). -/
theorem setBrightness_keepsLines {b : Byte} {s t : State} (h : exec (.setBrightness b) s = .next t) :
    keepsLines s t ∧ t.lf = s.lf ∧ t.en = s.en := by
  obtain ⟨f, hf, hb⟩ := begun (i := .setBrightness b) rfl s
  rw [exec_of_beginCommand hf] at h
  cases h
  cases hb with
  | refused | brightness => exact ⟨⟨rfl, rfl, rfl, rfl, rfl, rfl, rfl, rfl, rfl, rfl⟩, rfl, rfl⟩
  | init hi => cases hi
  | send _ _ hc => simp at hc
  | control _ hc => simp at hc

/-- Settles O41: a command's begin, its line actions and its end each leave what the statement says. -/
theorem commandFrames : Obligations.CommandFrames := by
  intro i s t hi h
  obtain ⟨f, hf, hb⟩ := begun hi s
  have ht : ((f.bind (commandBody i)).bind finish).state = t :=
    Host.Outcome.next.inj ((exec_of_beginCommand hf).symm.trans h)
  refine ⟨ht ▸ command_br hb, ht ▸ command_keepsPayload hb, ?_⟩
  rintro b rfl
  exact setBrightness_keepsLines h

end Sys2Proof.Machine
end

section
/-!
SUPPORT. The encoding family, the words (spec/30_encoding.md R90 to R101): which operations have a code, that decoding undoes
encoding, the fields of the host word, and the bytes of each wire format.
-/
namespace Sys2Proof.Laws.Coding

/-! ### Decoding an encoded operation -/

/-- The law of every operation of the table. -/
theorem statement_all (i : Instr) : Statement i :=
  match i with
  | .init => init
  | .sendBytes len arg => sendBytes len arg
  | .sendDigits bit len arg => sendDigits bit len arg
  | .sendNumber v => sendNumber v
  | .enable => enable
  | .disable => disable
  | .setBrightness b => setBrightness b
  | .teardown => teardown
  | .clkLo => clkLo
  | .clkHi => clkHi
  | .dioLo => dioLo
  | .dioHi => dioHi
  | .dioSample => dioSample
  | .waitHalf => waitHalf
  | .waitFull => waitFull
  | .start => start
  | .stop => stop
  | .sendByte v => sendByte v
  | .waitAck => waitAck
  | .dataCmd => dataCmd
  | .addrCmd => addrCmd
  | .ctrlOn b => ctrlOn b
  | .ctrlOff => ctrlOff
  | .seg0 bit => seg0 bit
  | .seg1 bit => seg1 bit
  | .seg2 bit => seg2 bit
  | .seg3 bit => seg3 bit
  | .seg4 bit => seg4 bit
  | .seg5 bit => seg5 bit
  | .seg6 bit => seg6 bit
  | .seg7 bit => seg7 bit
  | .seg8 bit => seg8 bit
  | .seg9 bit => seg9 bit
  | .seg d => seg d
  | .ind b bit => ind b bit
  | .enc ds bit => enc ds bit
  | .dec v => dec v
  | .ctrl => ctrl
  | .frame => frame
  | .phaseC c => phaseC c

/-- The operations that have no code (30_encoding.md R101). -/
def Codeless (i : Instr) : Prop :=
  (∃ d, i = .seg d) ∨ (∃ b bit, i = .ind b bit) ∨ (∃ ds bit, i = .enc ds bit) ∨ (∃ v, i = .dec v) ∨ i = .ctrl ∨
    i = .frame ∨ ∃ c, i = .phaseC c

theorem encode_eq_none_iff (p : Params) (i : Instr) : encode p i = none ↔ Codeless i := by
  constructor
  · intro h
    cases i
    case seg | ind | enc | dec | ctrl | frame | phaseC => simp [Codeless]
    all_goals cases h
  · rintro (⟨_, rfl⟩ | ⟨_, _, rfl⟩ | ⟨_, _, rfl⟩ | ⟨_, rfl⟩ | rfl | rfl | ⟨_, rfl⟩) <;> rfl

theorem Codeless.not_hostCommand {i : Instr} (h : Codeless i) : i.isHostCommand = false := by
  rcases h with ⟨_, rfl⟩ | ⟨_, _, rfl⟩ | ⟨_, _, rfl⟩ | ⟨_, rfl⟩ | rfl | rfl | ⟨_, rfl⟩ <;> rfl

/-- Settles O1: the law of each operation, and the encoder's own table of the operations without a code. -/
theorem decodeOfEncode : Obligations.DecodeOfEncode :=
  ⟨fun p i c => statement_all i p c, fun p i =>
    ⟨encode_eq_none_iff p i, fun h => ((encode_eq_none_iff p i).mp h).not_hostCommand⟩⟩

/-! ### The host word -/

theorem decode_hostWord_tooWide {p : Params} {n : Nat} (h : 2 ^ (8 + p.argBits) ≤ n) :
    decode p ⟨.hostw, n⟩ = .error .tooWide :=
  if_neg fun hlt => absurd hlt.1 (Nat.not_lt.mpr h)

/-- Settles O2: the places of the fields, what a packed word decodes to, and the width check of `decode`. -/
theorem hostWordFields : Obligations.HostWordFields := by
  refine ⟨hostWord_toNat, fun bit len arg => ?_, fun p w =>
    ⟨Machine.decodeHost_isHostCommand w, decode_hostWord p w, decode_hostWord_tooWide⟩⟩
  simp only [decodeHost_hostWord]
  exact ⟨rfl, rfl, rfl, rfl, rfl, rfl, rfl, rfl⟩

/-! ### The bytes of the wire -/

/-- The command bytes (30_encoding.md R98). -/
theorem isWireCode_cmdb (p : Params) (b : Byte) : isWireCode p .cmdb b.toNat = true ↔ b = p.dataCmd ∨ b = p.addrCmd := by
  simp only [isWireCode, decode, if_pos b.isLt, BitVec.ofNat_toNat, BitVec.setWidth_eq, decodeCmdb]
  by_cases hdata : b = p.dataCmd
  · rw [if_pos hdata]; exact iff_of_true rfl (.inl hdata)
  · rw [if_neg hdata]
    by_cases haddr : b = p.addrCmd
    · rw [if_pos haddr]; exact iff_of_true rfl (.inr haddr)
    · rw [if_neg haddr]; exact iff_of_false Bool.false_ne_true (not_or.mpr ⟨hdata, haddr⟩)

/-- The display-control bytes (30_encoding.md R97). -/
theorem isWireCode_ctrlb (p : Params) (b : Byte) :
    isWireCode p .ctrlb b.toNat = true ↔ b = p.ctrlOff ∨ b &&& 0xF8 = p.ctrlOnMask := by
  simp only [isWireCode, decode, if_pos b.isLt, BitVec.ofNat_toNat, BitVec.setWidth_eq, decodeCtrlb]
  by_cases hoff : b = p.ctrlOff
  · rw [if_pos hoff]; exact iff_of_true rfl (.inl hoff)
  · rw [if_neg hoff]
    by_cases hon : b &&& 0xF8 = p.ctrlOnMask
    · rw [if_pos hon]; exact iff_of_true rfl (.inr hon)
    · rw [if_neg hon]; exact iff_of_false Bool.false_ne_true (not_or.mpr ⟨hoff, hon⟩)

/-- The segment bytes (30_encoding.md R95, R96). -/
theorem isWireCode_segb (p : Params) (b : Byte) :
    isWireCode p .segb b.toNat = true ↔ ∃ d : Digit, b &&& 0x7F = p.segTable[d] := by
  simp only [isWireCode, decode, if_pos b.isLt, BitVec.ofNat_toNat, BitVec.setWidth_eq, decodeSegb]
  cases hf : (List.finRange 10).find? (fun d => p.segTable[d] == b &&& 0x7F) with
  | none =>
    refine iff_of_false Bool.false_ne_true fun ⟨d, hd⟩ => ?_
    exact absurd hd.symm (by simpa using List.find?_eq_none.mp hf d (List.mem_finRange d))
  | some d =>
    have hd : p.segTable[d] = b &&& 0x7F := by simpa using List.find?_some hf
    exact iff_of_true rfl ⟨d, hd.symm⟩

/-- No default pattern is one of 0, 0x08 to 0x0F and 0x40, which are what the low seven bits of a default control or command byte
can be. -/
theorem default_pattern (d : Digit) :
    Params.default.segTable[d] ≠ 0 ∧ Params.default.segTable[d] &&& 0x78 ≠ 0x08 ∧ Params.default.segTable[d] ≠ 0x40 := by
  decide +revert

/-- A default command byte is no default display-control byte. -/
theorem default_command_not_control {b : Byte} (hcmd : b = Params.default.dataCmd ∨ b = Params.default.addrCmd) :
    ¬ (b = Params.default.ctrlOff ∨ b &&& 0xF8 = Params.default.ctrlOnMask) := by
  rcases hcmd with rfl | rfl <;> decide

theorem default_command_not_segment {b : Byte} (hcmd : b = Params.default.dataCmd ∨ b = Params.default.addrCmd) :
    ¬ ∃ d : Digit, b &&& 0x7F = Params.default.segTable[d] := by
  rintro ⟨d, hd⟩
  refine (default_pattern d).2.2 (hd.symm.trans ?_)
  rcases hcmd with rfl | rfl <;> rfl

theorem default_control_not_segment {b : Byte}
    (hctrl : b = Params.default.ctrlOff ∨ b &&& 0xF8 = Params.default.ctrlOnMask) :
    ¬ ∃ d : Digit, b &&& 0x7F = Params.default.segTable[d] := by
  rintro ⟨d, hd⟩
  obtain ⟨hzero, hlow, -⟩ := default_pattern d
  rw [← hd] at hzero hlow
  rcases hctrl with rfl | hon
  · exact hzero rfl
  · refine hlow ?_
    calc b &&& 0x7F &&& 0x78 = b &&& 0xF8 &&& 0x78 := by rw [BitVec.and_assoc, BitVec.and_assoc]; rfl
      _ = 0x08 := by rw [hon]; rfl

/-- Settles O4: what each of the three byte decoders accepts; the default bytes differ in their low seven bits. -/
theorem wireBytesDisjoint : Obligations.WireBytesDisjoint := by
  refine ⟨isWireCode_cmdb, isWireCode_ctrlb, isWireCode_segb, fun b => ?_⟩
  simp only [isWireCode_cmdb, isWireCode_ctrlb, isWireCode_segb]
  exact ⟨fun h => default_command_not_control h.1 h.2, fun h => default_command_not_segment h.1 h.2,
    fun h => default_control_not_segment h.1 h.2⟩

end Sys2Proof.Laws.Coding
end

section
/-!
SUPPORT. The encoding family, the operations: a byte of the wire as its slot (spec/30_encoding.md R94 to R98), and the data line
inside a slot (R94).
-/
namespace Sys2Proof.Machine

/-! ### A byte of the wire -/

/-- A wire row is SEND_BYTE of its byte (log 14). -/
theorem exec_of_wireByteOf {i : Instr} {v : Byte} {s : State} (h : wireByteOf s.cfg i = some v) :
    exec i s = exec (.sendByte v) s := by
  cases i
  case dataCmd | addrCmd | ctrlOn | ctrlOff => cases h; rfl
  case seg0 | seg1 | seg2 | seg3 | seg4 | seg5 | seg6 | seg7 | seg8 | seg9 => cases h; rfl
  all_goals cases h

theorem exec_sendByte_acked {v : Byte} {k : Nat} {s : State} (h : s.ackedSlot 0 k) :
    exec (.sendByte v) s = .next (s.slotSent v k) := by
  change execSendByte v s = _
  rw [execSendByte, sendByte_acked h, Flow.go_state]

theorem exec_sendByte_unacked {v : Byte} {s : State} (h : s.unackedSlot 0) (hc : s.seq.cmd ≠ .teardown) :
    ∃ ev, exec (.sendByte v) s = .next ((s.slotUnacked v).timedOut ev) := by
  have hc' : (s.slotUnacked v).seq.cmd ≠ .teardown := hc
  refine ⟨anyErr s.cfg (Config.freeNat s.fresh 0), ?_⟩
  change execSendByte v s = _
  rw [execSendByte, sendByte_unacked h, Flow.raise, Flow.ended_state, raise_ackTimeout hc']
  rfl

/-- Settles O22: a wire row is SEND_BYTE of its byte, whose slot and whose timeout are laws of the transport. -/
theorem wireByteSlots : Obligations.WireByteSlots := by
  intro i v s h
  rw [exec_of_wireByteOf h]
  exact ⟨rfl, fun _ => exec_sendByte_acked, exec_sendByte_unacked⟩

/-! ### The data line inside a byte slot -/

/-- The actions on the data line. -/
def Act.onData (a : Act) : Prop := a = .dioLo ∨ a = .dioHi ∨ a = .dioSample

/-- Inside a bit cell only its first action is on the data line (41_transport.md R152). -/
theorem byteAct_onData {b : Bool} {n : Nat} {a : Act} (h : byteAct b n = some a) (hn : n < 48) (hdata : a.onData) :
    n % 6 ≠ 3 ∧ n % 6 ≠ 4 := by
  have hcell := cell_facts h hn
  refine ⟨fun hm => ?_, fun hm => ?_⟩ <;> simp only [hm] at hcell <;> simp [hcell, Act.onData] at hdata

/-- WAIT_ACK samples at its first step and drives the data line nowhere (41_transport.md R153). -/
theorem ackAct_onData {n : Nat} {a : Act} (h : ackAct n = some a) (hdata : a.onData) : n = 0 := by
  match n with
  | 0 => rfl
  | 1 | 2 | 3 | 4 | 5 => cases h; simp [Act.onData] at hdata
  | n + 6 => cases h

/-- In SEND_BYTE and WAIT_ACK an action on the data line finds the clock low (30_encoding.md R94). -/
theorem clk_lo_of_onData {s : State} {a : Act} (hlines : s.linesOk) (hrt : s.seq.rt = .sendByte ∨ s.seq.rt = .waitAck)
    (ha : currentAct s = some a) (hdata : a.onData) : s.clk = .lo := by
  rcases hrt with hr | hr <;> simp only [State.linesOk, hr] at hlines <;> simp only [currentAct, hr] at ha
  · obtain ⟨hclk, -, -⟩ := hlines
    refine hclk.trans (if_neg fun ⟨hn, hhigh⟩ => ?_)
    obtain ⟨h3, h4⟩ := byteAct_onData ha hn hdata
    exact hhigh.elim h3 h4
  · obtain ⟨hclk, -⟩ := hlines
    exact hclk.trans (if_pos (by rw [ackAct_onData ha hdata]; decide))

/-- A line action that is not on the data line leaves it. -/
theorem perform_keeps_dio {a : Act} {s u : State} (h : a.perform s = .go u) (hdata : ¬ a.onData) :
    u.dio = s.dio ∧ u.dioO = s.dioO := by
  cases a
  case dioLo | dioHi | dioSample => simp [Act.onData] at hdata
  case waitHalf | waitFull => cases h; exact ⟨rfl, rfl⟩
  case clkLo | clkHi =>
    simp only [Act.perform, driveClk] at h
    split at h
    · cases h; exact ⟨rfl, rfl⟩
    · cases h

/-- The end of a command in progress leaves the engine idle. -/
theorem finishCommand_idle {s : State} (hc : s.seq.cmd ≠ .idle) : (finishCommand s).seq = Seq.idle := by
  cases hs : s.seq.cmd <;> simp only [finishCommand, hs]
  case idle => exact absurd hs hc
  all_goals rfl

/-- The sequencer's move leaves the data line while the command goes on. -/
theorem advance_keeps_dio {u : State} (hc : u.seq.cmd ≠ .idle) (hgo : (advance u).seq.cmd ≠ .idle) :
    (advance u).dio = u.dio ∧ (advance u).dioO = u.dioO := by
  rcases advance_cases u with ⟨hm, -⟩ | hraise | hfin
  · rw [hm]; exact ⟨rfl, rfl⟩
  · exact absurd (congrArg Seq.cmd (hraise ▸ raise_ackTimeout_idle u)) hgo
  · exact absurd (congrArg Seq.cmd (hfin ▸ finishCommand_idle hc)) hgo

/-- Settles O53: where the clock is high, the action is none on the data line, and the sequencer's move drives nothing. -/
theorem dataStableWhileClockHigh : Obligations.DataStableWhileClockHigh := by
  intro s a hinv hc hrt ha
  obtain ⟨-, -, -, hlines, -⟩ := hinv
  have hlo : a.onData → s.clk = .lo := clk_lo_of_onData hlines hrt ha
  refine ⟨hlo, fun t hhi h hgo => ?_⟩
  have hdata : ¬ a.onData := fun hd => by simp [hlo hd] at hhi
  rw [step_busy hc ha] at h
  cases h
  cases hp : a.perform s with
  | ended u => rw [hp] at hgo; exact absurd (congrArg Seq.cmd (perform_ended hp)) hgo
  | go u =>
    rw [hp] at hgo
    have hu : u.seq.cmd ≠ .idle := by rwa [(perform_go hp).1]
    obtain ⟨hdio, hdioO⟩ := perform_keeps_dio hp hdata
    obtain ⟨hdio', hdioO'⟩ := advance_keeps_dio hu hgo
    exact ⟨hdio'.trans hdio, hdioO'.trans hdioO⟩

end Sys2Proof.Machine
end

section
/-!
SUPPORT. The encoding family: SEND_NUMBER as SEND_DIGITS of its digits (spec/30_encoding.md R107). The two load one payload; from
there on they differ in `SEQ.cmd`, which the rules of a frame read only to tell whether the command is TEARDOWN.
-/
namespace Sys2Proof.Machine

/-! ### One state inside SEND_NUMBER and inside SEND_DIGITS -/

/-- The state with `c` as the command in progress. -/
def State.running (c : CmdName) (s : State) : State := { s with seq := { s.seq with cmd := c } }

theorem State.position_running (c d : CmdName) (p : Phase) (r : Routine) (s : State) :
    (s.position d p r).running c = s.position c p r := rfl

/-- Both go on in one state but for the command in progress, or both have ended in one state. -/
inductive Flow.Twins : Flow → Flow → Prop where
  | go (u : State) : Flow.Twins (.go (u.running .sendNumber)) (.go (u.running .sendDigits))
  | ended (s : State) : Flow.Twins (.ended s) (.ended s)

/-- A piece of a rule that does the same inside SEND_NUMBER and inside SEND_DIGITS. -/
def NameFree (k : State → Flow) : Prop := ∀ u : State, (k (u.running .sendNumber)).Twins (k (u.running .sendDigits))

/-- An update that neither reads nor writes `SEQ.cmd`. -/
def KeepsName (F : State → State) : Prop := ∀ c u, F (u.running c) = (F u).running c

theorem Flow.Twins.bind {f g : Flow} {k : State → Flow} (h : f.Twins g) (hk : NameFree k) :
    (f.bind k).Twins (g.bind k) := by
  cases h with
  | go u => exact hk u
  | ended s => exact .ended s

theorem NameFree.bind {k l : State → Flow} (hk : NameFree k) (hl : NameFree l) : NameFree fun s => (k s).bind l :=
  fun u => (hk u).bind hl

theorem NameFree.go {F : State → State} (hF : KeepsName F) : NameFree fun s => .go (F s) := by
  intro u
  change Flow.Twins (.go (F _)) (.go (F _))
  rw [hF, hF]
  exact .go (F u)

/-- After an update. -/
theorem NameFree.after {k : State → Flow} {F : State → State} (hk : NameFree k) (hF : KeepsName F) :
    NameFree fun s => k (F s) := by
  intro u
  change (k (F _)).Twins (k (F _))
  rw [hF, hF]
  exact hk (F u)

/-- With an argument that is read from the state. -/
theorem NameFree.read {α : Type} {k : α → State → Flow} {g : State → α} (hk : ∀ a, NameFree (k a))
    (hg : ∀ c u, g (u.running c) = g u) : NameFree fun s => k (g s) s := by
  intro u
  simpa only [hg] using hk (g u) u

theorem NameFree.ite {k l : State → Flow} {p : State → Prop} [DecidablePred p] (hk : NameFree k) (hl : NameFree l)
    (hp : ∀ c u, p (u.running c) ↔ p u) : NameFree fun s => if p s then k s else l s := by
  intro u
  by_cases h : p u
  · simpa only [hp, h, if_true] using hk u
  · simpa only [hp, h, if_false] using hl u

/-- Neither command is TEARDOWN, so a LineFault or an AckTimeout ends both alike (60_exceptions.md R240). -/
theorem nameFree_raise (x : Exn) : NameFree (Flow.raise x) := by
  intro u
  have hsame : raise x (u.running .sendNumber) = raise x (u.running .sendDigits) := by cases x <;> rfl
  rw [Flow.raise, Flow.raise, hsame]
  exact .ended _

/-! ### The rules of a frame -/

/-- A line action whose draw decides between going on from `F` and raising LineFault in `G`. -/
theorem nameFree_drawn {F : Bool → State → State} {G : ErrVal → State → State} (hF : ∀ b, KeepsName (F b))
    (hG : ∀ e, KeepsName (G e)) :
    NameFree fun s => match s.drawAt 0 with
      | .ok b => .go (F b s)
      | .err e => .raise (.lineFault e) (G e s) := by
  intro u
  have hdraw : ∀ c, (u.running c).drawAt 0 = u.drawAt 0 := fun _ => rfl
  simp only [hdraw]
  cases u.drawAt 0 with
  | ok b => exact NameFree.go (hF b) u
  | err e => exact (nameFree_raise (.lineFault e)).after (hG e) u

theorem nameFree_perform (a : Act) : NameFree a.perform := by
  cases a with
  | clkLo | clkHi | dioLo | dioHi | dioSample => exact nameFree_drawn (fun _ _ _ => rfl) fun _ _ _ => rfl
  | waitHalf | waitFull => exact .go fun _ _ => rfl

theorem nameFree_performAll (as : List Act) : NameFree (performAll as) := by
  induction as with
  | nil => exact .go (F := id) fun _ _ => rfl
  | cons a as ih => exact (nameFree_perform a).bind ih

theorem nameFree_sendBits (n : Nat) : NameFree (sendBits n) := by
  induction n with
  | zero => exact .go (F := id) fun _ _ => rfl
  | succ n ih =>
    have hcell : NameFree fun s => performAll (cellActs (s.sr.getLsbD 0)) s :=
      .read (k := fun b => performAll (cellActs b)) (fun _ => nameFree_performAll _) fun _ _ => rfl
    exact hcell.bind (ih.after fun _ _ => rfl)

theorem nameFree_poll (n : Nat) : NameFree (poll n) := by
  induction n with
  | zero => exact nameFree_raise .ackTimeout
  | succ n ih =>
    have hsampled : NameFree fun s => if s.ret = .bit true then (pauseFull s).bind (poll n) else performAll ackActs s :=
      .ite (p := fun s => s.ret = .bit true) ((nameFree_perform .waitFull).bind ih) (nameFree_performAll ackActs)
        fun _ _ => Iff.rfl
    exact (nameFree_perform .dioSample).bind (hsampled.after (F := countSample) fun _ _ => rfl)

theorem nameFree_sendByte (v : Byte) : NameFree (sendByte v) := by
  have hack : NameFree waitAck := (nameFree_poll Config.ackPollMax).after fun _ _ => rfl
  exact ((nameFree_sendBits 8).after (F := loadByte v) fun _ _ => rfl).bind
    ((nameFree_perform .dioHi).bind (hack.bind (nameFree_perform .waitHalf)))

/-- A byte that is read from the state. -/
theorem nameFree_sendByteOf {g : State → Byte} (hg : ∀ c u, g (u.running c) = g u) : NameFree fun s => sendByte (g s) s :=
  .read (k := sendByte) nameFree_sendByte hg

theorem nameFree_sendPayload (n : Nat) : NameFree (sendPayload n) := by
  induction n with
  | zero => exact .go (F := id) fun _ _ => rfl
  | succ n ih => exact (nameFree_sendByteOf fun _ _ => rfl).bind (ih.after fun _ _ => rfl)

theorem nameFree_startIn (p : Phase) : NameFree fun s => startCondition (s.inPhase p) :=
  (nameFree_performAll startActs).after fun _ _ => rfl

theorem nameFree_phaseC (c : Byte) : NameFree (phaseC c) :=
  (nameFree_startIn .c).bind ((nameFree_sendByte c).bind (nameFree_performAll stopActs))

theorem nameFree_frame : NameFree frame := by
  have hpayload : NameFree fun s => sendPayload s.plen.toNat (clearIndex s) :=
    .read (k := fun n s => sendPayload n (clearIndex s)) (fun n => (nameFree_sendPayload n).after fun _ _ => rfl) fun _ _ => rfl
  have hcontrol : NameFree fun s => phaseC (ctrl s.cfg s.br) s := .read (k := phaseC) nameFree_phaseC fun _ _ => rfl
  have hstop := nameFree_performAll stopActs
  have haddr := (nameFree_sendByteOf (g := fun s => s.cfg.addrCmd) fun _ _ => rfl).bind (hpayload.bind (hstop.bind hcontrol))
  have hdata := (nameFree_sendByteOf (g := fun s => s.cfg.dataCmd) fun _ _ => rfl).bind
    (hstop.bind ((nameFree_startIn .b).bind haddr))
  exact (nameFree_startIn .a).bind hdata

/-! ### The two sends -/

/-- Both sends end alike (43_framing.md R194, R195). -/
theorem Flow.Twins.finish {f g : Flow} (h : f.Twins g) : (f.bind finish).state = (g.bind finish).state := by
  cases h with
  | go u => rfl
  | ended s => rfl

/-- With the indicator 0 ENC is SEG of each digit (42_encoders.md R171, R172). -/
theorem enc_false (p : Params) (ds : List Digit) : enc p ds false = ds.map (seg p) :=
  List.map_congr_left fun _ _ => BitVec.or_zero

/-- A command that needs `LIFE` LIVE is refused without it (60_exceptions.md R234). -/
theorem requireLive_refused {s : State} (h : s.life ≠ .live) (k : State → Flow) :
    requireLive s k = .raise .badLifecycle s := if_neg h

/-- Settles O29: with `LIFE` LIVE both load the digits' patterns and send one frame; with `LIFE` UNBUILT both are refused. -/
theorem sendNumberIsSendDigits : Obligations.SendNumberIsSendDigits := by
  intro v arg s hok hv hitems
  change execSendNumber v s = execSendDigits false _ arg s
  rw [execSendNumber, execSendDigits]
  refine congrArg Host.Outcome.next ?_
  by_cases hlive : s.life = .live
  · have hn : (dec v).length ≤ s.cfg.payloadMax := (dec_fits hok v).mpr hv
    obtain ⟨-, -, -, -, -, hmax⟩ := params_ok_iff.mp hok
    have h15 : (dec v).length ≤ 15 := hn.trans hmax
    have hlen : (BitVec.ofNat 4 (dec v).length).toNat ≤ s.cfg.payloadMax := (Nat.mod_le _ _).trans hn
    rw [beginSendNumber_ok hlive hn, beginSendDigits_ok hlive hlen (digits_items (dec v) arg h15 hitems), enc_false,
      Flow.go_bind, Flow.go_bind]
    have htwins := (nameFree_frame ((loadPayload ((dec v).map (seg s.cfg)) s).position .sendNumber .a .start)).finish
    rwa [State.position_running, State.position_running] at htwins
  · rw [beginSendNumber, beginSendDigits, requireLive_refused hlive, requireLive_refused hlive]

end Sys2Proof.Machine
end

section
/-!
SUPPORT. The line-action family (spec/40_line_actions.md R130 to R138): what each of the seven actions does, done and failed, what
all of them leave alone, and where the engine samples.
-/
namespace Sys2Proof.Machine

/-! ### The meaning of one line action -/

/-- A line action as an operation, from what performing it does. -/
theorem exec_of_perform {a : Act} {s : State} {f : Flow} (h : a.perform s = f) : exec a.instr s = .next f.state := by
  rw [exec_instr, h]

/-- Settles O10: both clock drives are `driveClk`, whose done and failed outcomes are laws of the transport. -/
theorem clockDrives : Obligations.ClockDrives := by
  refine ⟨fun _ => ⟨rfl, rfl⟩, fun s => ⟨fun hok => ⟨?_, ?_⟩, fun e herr hc => ⟨Config.freeNat s.fresh 1 % 2 == 1, ?_, ?_⟩⟩⟩
  · exact exec_of_perform (a := .clkLo) (driveClk_ok hok)
  · exact exec_of_perform (a := .clkHi) (driveClk_ok hok)
  · exact exec_of_perform (a := .clkLo) (driveClk_err herr hc)
  · exact exec_of_perform (a := .clkHi) (driveClk_err herr hc)

/-- Settles O11: both data drives are `driveDio`, whose done and failed outcomes are laws of the transport. -/
theorem dataDrives : Obligations.DataDrives := by
  refine ⟨fun _ => ⟨rfl, rfl⟩, fun s => ⟨fun hok => ⟨?_, ?_⟩, fun e herr hc => ⟨Config.freeNat s.fresh 2 % 2 == 1, ?_, ?_⟩⟩⟩
  · exact exec_of_perform (a := .dioLo) (driveDio_ok hok)
  · exact exec_of_perform (a := .dioHi) (driveDio_ok hok)
  · exact exec_of_perform (a := .dioLo) (driveDio_err herr hc)
  · exact exec_of_perform (a := .dioHi) (driveDio_err herr hc)

/-- Settles O12: the done and failed outcomes of `sampleDio` are laws of the transport. -/
theorem dataSample : Obligations.DataSample := by
  refine ⟨fun _ => rfl, fun s => ⟨fun b hok => ?_, fun e herr hc => ?_⟩⟩
  · exact exec_of_perform (a := .dioSample) (sampleDio_ok hok)
  · exact exec_of_perform (a := .dioSample) (sampleDio_err herr hc)

/-- The waits alone call the delay primitive (10_state.md R23). -/
theorem delayUs_eq_none (p : Params) {a : Act} (hhalf : a ≠ .waitHalf) (hfull : a ≠ .waitFull) : a.delayUs p = none := by
  cases a
  case waitHalf => exact absurd rfl hhalf
  case waitFull => exact absurd rfl hfull
  case clkLo | clkHi | dioLo | dioHi | dioSample => rfl

/-- Settles O13: a wait logs its token and goes on, whatever the draws. -/
theorem waits : Obligations.Waits := by
  refine ⟨fun _ => ⟨rfl, rfl⟩, fun s => ⟨?_, ?_⟩, fun p => ⟨rfl, rfl, fun _ => delayUs_eq_none p⟩⟩
  · exact exec_of_perform (a := .waitHalf) (f := .go (s.logTok .wh)) rfl
  · exact exec_of_perform (a := .waitFull) (f := .go (s.logTok .wf)) rfl

/-! ### What every line action leaves alone -/

/-- The entries a line action can make: its own, done or failed (40_line_actions.md R138). -/
def Act.logs : Act → Tok → Prop
  | .clkLo, tok => tok = .c0 ∨ ∃ e, tok = .c0e e
  | .clkHi, tok => tok = .c1 ∨ ∃ e, tok = .c1e e
  | .dioLo, tok => tok = .d0 ∨ ∃ e, tok = .d0e e
  | .dioHi, tok => tok = .d1 ∨ ∃ e, tok = .d1e e
  | .dioSample, tok => tok = .s0 ∨ tok = .s1 ∨ ∃ e, tok = .se e
  | .waitHalf, tok => tok = .wh
  | .waitFull, tok => tok = .wf

/-- `LIFE`, `BR`, `EN`, the transport's registers and the payload's are as they were. -/
def keepsDatapath (s t : State) : Prop :=
  t.life = s.life ∧ t.br = s.br ∧ t.en = s.en ∧ t.sr = s.sr ∧ t.bc = s.bc ∧ t.ac = s.ac ∧ keepsPayload s t

/-- One entry of the action has been made, and `CMD`, the port, `SEQ` and the datapath are as they were. -/
structure Act.Entered (a : Act) (s u : State) (tok : Tok) : Prop where
  own : a.logs tok
  tr : u.tr = s.tr ++ [tok]
  cmd : u.cmd = s.cmd
  host : u.host = s.host
  seq : u.seq = s.seq
  datapath : keepsDatapath s u

/-- Beside its entry a line action changes the lines, `LF`, the draws, the event counter and the returned bit only, so it is
`Entered`. -/
theorem Act.entered_of_eq {a : Act} {s u : State} {tok : Tok} (hown : a.logs tok)
    (hu : u = { s with
      tr := s.tr ++ [tok], clk := u.clk, dio := u.dio, clkO := u.clkO, dioO := u.dioO, lf := u.lf, draws := u.draws,
      drawn := u.drawn, fresh := u.fresh, ret := u.ret }) : a.Entered s u tok := by
  rw [hu]
  exact ⟨hown, rfl, rfl, rfl, rfl, rfl, rfl, rfl, rfl, rfl, rfl, rfl, rfl, rfl⟩

/-- A line action makes its entry and goes on, or makes its entry and raises. -/
inductive Act.Completes (a : Act) (s : State) : Flow → Prop where
  | done (u : State) (tok : Tok) (hu : a.Entered s u tok) : Act.Completes a s (.go u)
  | failed (e : ErrVal) (u : State) (tok : Tok) (hu : a.Entered s u tok) : Act.Completes a s (.raise (.lineFault e) u)

theorem Act.completes (a : Act) (s : State) : a.Completes s (a.perform s) := by
  have entered {u : State} {tok : Tok} := @Act.entered_of_eq a s u tok
  cases a <;> simp only [Act.perform, driveClk, driveDio, sampleDio, pauseHalf, pauseFull]
  case waitHalf | waitFull => exact .done _ _ (entered rfl rfl)
  case dioSample =>
    cases s.drawAt 0 with
    | ok b => exact .done _ _ (entered (by cases b <;> simp [Act.logs, sampleTok]) rfl)
    | err e => exact .failed e _ _ (entered (.inr (.inr ⟨e, rfl⟩)) rfl)
  case clkLo | clkHi | dioLo | dioHi =>
    cases s.drawAt 0 with
    | ok _ => exact .done _ _ (entered (.inl rfl) rfl)
    | err e => exact .failed e _ _ (entered (.inr ⟨e, rfl⟩) rfl)

/-- Outside TEARDOWN a LineFault leaves the datapath (60_exceptions.md R240, R241). -/
theorem raise_lineFault_keepsDatapath (e : ErrVal) {u : State} (hc : u.seq.cmd ≠ .teardown) :
    keepsDatapath u (raise (.lineFault e) u) := by
  rw [raise, if_neg hc]
  exact ⟨rfl, rfl, rfl, rfl, rfl, rfl, rfl, rfl, rfl⟩

theorem keepsDatapath.trans {s u t : State} (h : keepsDatapath s u) (h' : keepsDatapath u t) : keepsDatapath s t := by
  obtain ⟨hlife, hbr, hen, hsr, hbc, hac, hpay⟩ := h
  obtain ⟨hlife', hbr', hen', hsr', hbc', hac', hpay'⟩ := h'
  exact ⟨hlife'.trans hlife, hbr'.trans hbr, hen'.trans hen, hsr'.trans hsr, hbc'.trans hbc, hac'.trans hac, hpay.trans hpay'⟩

/-- What a line action leaves as an operation, the exception of a failed one taken. -/
theorem Act.Completes.state {a : Act} {s : State} {f : Flow} (h : a.Completes s f) :
    ∃ tok, f.state.tr = s.tr ++ [tok] ∧ a.logs tok ∧ f.state.cmd = s.cmd ∧ f.state.host = s.host ∧
      (s.seq.cmd ≠ .teardown → keepsDatapath s f.state) := by
  cases h with
  | done u tok hu => exact ⟨tok, hu.tr, hu.own, hu.cmd, hu.host, fun _ => hu.datapath⟩
  | failed e u tok hu =>
    obtain ⟨-, -, htr, hcmd, hhost⟩ := raise_responded (.lineFault e) u
    refine ⟨tok, htr.trans hu.tr, hu.own, hcmd.trans hu.cmd, hhost.trans hu.host, fun hc => ?_⟩
    exact hu.datapath.trans (raise_lineFault_keepsDatapath e (hu.seq ▸ hc))

/-- Settles O14: an action makes its entry and leaves the rest, and so does the exception of a failed one. -/
theorem lineActionFrame : Obligations.LineActionFrame := by
  intro a s
  obtain ⟨tok, htr, hown, hrest⟩ := (a.completes s).state
  refine ⟨_, tok, exec_instr a s, htr, ?_, hrest⟩
  cases a <;> exact hown

/-! ### Where the engine samples -/

/-- SEND_BYTE's table holds no sample (41_transport.md R152). -/
theorem byteAct_ne_sample (b : Bool) (n : Nat) : byteAct b n ≠ some .dioSample := by
  by_cases hcell : n < 48
  · rw [byteAct, if_pos hcell]
    intro h
    have hmem : Act.dioSample ∈ cellActs b := List.mem_of_getElem? h
    cases b <;> exact absurd hmem (by decide)
  · rw [byteAct, if_neg hcell]
    split
    · decide
    · split <;> decide

/-- Of the step tables only WAIT_ACK's holds a sample, at its first step (40_line_actions.md R134; 41_transport.md R153). -/
theorem position_of_sample {s : State} (h : currentAct s = some .dioSample) : s.seq.rt = .waitAck ∧ s.seq.step = 0 := by
  have notIn {L : List Act} {n : Nat} (hL : Act.dioSample ∉ L) : L[n]? ≠ some .dioSample :=
    fun hn => hL (List.mem_of_getElem? hn)
  cases hr : s.seq.rt <;> simp only [currentAct, hr] at h
  case none => cases h
  case start | stop | initSeq => exact absurd h (notIn (by decide))
  case sendByte => exact absurd h (byteAct_ne_sample _ _)
  case waitAck => exact ⟨rfl, ackAct_onData h (.inr (.inr rfl))⟩

/-- Settles O52: a sample is the first step of WAIT_ACK, where the invariant knows the lines, the wires and the count. -/
theorem sampleDiscipline : Obligations.SampleDiscipline := by
  intro s hinv _ ha
  obtain ⟨hrt, hstep⟩ := position_of_sample ha
  obtain ⟨-, -, hcounters, hlines, hclkO, hdioO⟩ := hinv
  simp only [State.linesOk, hrt, hstep] at hlines
  simp only [State.countersOk, hrt] at hcounters
  obtain ⟨hclk, hdio⟩ := hlines
  obtain ⟨-, -, -, -, -, -, hcount, -⟩ := hcounters
  have hac : s.ac.toNat < 255 := hcount hstep
  exact ⟨hrt, hclk, hdio, hclkO false hclk, hdioO true hdio, fun h => by rw [h] at hac; exact absurd hac (by decide)⟩

end Sys2Proof.Machine
end

section
/-!
SUPPORT. The transport family (spec/41_transport.md R150 to R153): what START, STOP, SEND_BYTE and WAIT_ACK leave when they run
through, and where a line action that fails cuts them short.
-/
namespace Sys2Proof.Machine

/-! ### Sequences of drives and waits -/

/-- A line action that samples nothing: a drive of the clock or of the data line, or a wait. -/
inductive Output where
  | clk (hi : Bool)
  | dio (hi : Bool)
  | half
  | full

/-- The line action it is (40_line_actions.md R130 to R136). -/
def Output.act : Output → Act
  | .clk hi => if hi then .clkHi else .clkLo
  | .dio hi => if hi then .dioHi else .dioLo
  | .half => .waitHalf
  | .full => .waitFull

/-- The draws it makes (40_line_actions.md R137). -/
def Output.drawCount : Output → Nat
  | .clk _ | .dio _ => 1
  | .half | .full => 0

/-- Its entry when it is done (00_scope.md R16). -/
def Output.entry : Output → Tok
  | .clk hi => clkTok hi
  | .dio hi => dioTok hi
  | .half => .wh
  | .full => .wf

/-- The two lines: what the shadow registers know and what is driven (10_state.md R22, R24). -/
structure Lines where
  clk : Level
  dio : Level
  clkO : Bool
  dioO : Bool

/-- What stands on the two lines now. -/
def State.lines (s : State) : Lines := ⟨s.clk, s.dio, s.clkO, s.dioO⟩

/-- The lines after it is done. -/
def Output.on : Output → Lines → Lines
  | .clk hi, l => { l with clk := levelOf hi, clkO := hi }
  | .dio hi, l => { l with dio := levelOf hi, dioO := hi }
  | .half, l | .full, l => l

/-- The lines after a drive that failed: the shadow register knows nothing, the wire is unspecified (40_line_actions.md R137).
A wait cannot fail. -/
def Output.lost (event : Nat) : Output → Lines → Lines
  | .clk _, l => { l with clk := .x, clkO := Config.freeNat event 1 % 2 == 1 }
  | .dio _, l => { l with dio := .x, dioO := Config.freeNat event 2 % 2 == 1 }
  | .half, l | .full, l => l

/-- The lines after a sequence of them, all done. -/
def linesAfter (as : List Output) (l : Lines) : Lines := as.foldl (fun l a => a.on l) l

/-- The draws a sequence of them makes. -/
def outputDraws (as : List Output) : Nat := (as.map Output.drawCount).sum

/-- The state after `n` draws, with these lines and these entries more. -/
def State.driven (n : Nat) (l : Lines) (toks : List Tok) (s : State) : State :=
  { s.skipDraws n with clk := l.clk, dio := l.dio, clkO := l.clkO, dioO := l.dioO, tr := s.tr ++ toks }

theorem State.driven_zero (s : State) : s.driven 0 s.lines [] = s := by
  apply State.ext <;> simp [State.driven, State.lines]

@[simp] theorem State.driven_drawAt (n : Nat) (l : Lines) (toks : List Tok) (s : State) (i : Nat) :
    (s.driven n l toks).drawAt i = s.drawAt (n + i) :=
  State.drawAt_skipDraws n s i

/-- One more draw, new lines, and one more entry. -/
theorem State.driven_next (n : Nat) (l l' : Lines) (toks : List Tok) (tok : Tok) (s : State) :
    { (s.driven n l toks).skipDraws 1 with
      clk := l'.clk, dio := l'.dio, clkO := l'.clkO, dioO := l'.dioO, tr := (s.driven n l toks).tr ++ [tok] } =
    s.driven (n + 1) l' (toks ++ [tok]) := by
  apply State.ext <;> simp [State.driven, Nat.add_assoc]

/-- One more entry. -/
theorem State.driven_log (n : Nat) (l : Lines) (toks : List Tok) (tok : Tok) (s : State) :
    (s.driven n l toks).logTok tok = s.driven n l (toks ++ [tok]) := by
  apply State.ext <;> simp [State.driven]

theorem Output.act_clk (hi : Bool) : (Output.clk hi).act.perform = driveClk hi := by cases hi <;> rfl

theorem Output.act_dio (hi : Bool) : (Output.dio hi).act.perform = driveDio hi := by cases hi <;> rfl

/-- A drive or a wait that is done. -/
theorem Output.perform_ok {a : Output} {n : Nat} {l : Lines} {toks : List Tok} {s : State} (h : s.okAt n a.drawCount) :
    a.act.perform (s.driven n l toks) = .go (s.driven (n + a.drawCount) (a.on l) (toks ++ [a.entry])) := by
  cases a with
  | clk hi =>
    rw [Output.act_clk, driveClk_ok (by simpa using h 0 Nat.one_pos)]
    exact congrArg Flow.go (State.driven_next n l ((Output.clk hi).on l) toks (clkTok hi) s)
  | dio hi =>
    rw [Output.act_dio, driveDio_ok (by simpa using h 0 Nat.one_pos)]
    exact congrArg Flow.go (State.driven_next n l ((Output.dio hi).on l) toks (dioTok hi) s)
  | half => exact congrArg Flow.go (State.driven_log n l toks .wh s)
  | full => exact congrArg Flow.go (State.driven_log n l toks .wf s)

/-- A drive that fails, outside TEARDOWN (60_exceptions.md R241). -/
theorem Output.perform_err {a : Output} {n : Nat} {l : Lines} {toks : List Tok} {e : ErrVal} {s : State}
    (ha : a.drawCount = 1) (herr : s.drawAt n = .err e) (hc : s.seq.cmd ≠ .teardown) :
    a.act.perform (s.driven n l toks) =
      .ended (State.faulted e (s.driven (n + 1) (a.lost s.fresh l) (toks ++ [Tok.failed e a.entry]))) := by
  have hd : (s.driven n l toks).drawAt 0 = .err e := by simpa using herr
  rw [← State.driven_next]
  cases a with
  | clk hi =>
    rw [Output.act_clk, driveClk_err (s := s.driven n l toks) hd hc]
    cases hi <;> rfl
  | dio hi =>
    rw [Output.act_dio, driveDio_err (s := s.driven n l toks) hd hc]
    cases hi <;> rfl
  | half | full => cases ha

/-- A sequence of drives and waits that are done. -/
theorem performAll_driven {as : List Output} {rest : List Act} {n : Nat} {l : Lines} {toks : List Tok} {s : State}
    (h : s.okAt n (outputDraws as)) :
    performAll (as.map Output.act ++ rest) (s.driven n l toks) =
      performAll rest (s.driven (n + outputDraws as) (linesAfter as l) (toks ++ as.map Output.entry)) := by
  induction as generalizing n l toks with
  | nil => simp [outputDraws, linesAfter]
  | cons a as ih =>
    have hsum : outputDraws (a :: as) = a.drawCount + outputDraws as := List.sum_cons
    rw [hsum] at h
    have htail : s.okAt (n + a.drawCount) (outputDraws as) := fun i hi => by
      simpa [Nat.add_assoc] using h (a.drawCount + i) (by omega)
    rw [List.map_cons, List.cons_append, performAll, Output.perform_ok fun i hi => h i (by omega), Flow.go_bind, ih htail,
      hsum, Nat.add_assoc, List.map_cons, List.append_assoc]
    rfl

/-- A drive that fails after `as`, outside TEARDOWN, ends the sequence there (60_exceptions.md R241). -/
theorem performAll_cut {as : List Output} {a : Output} {rest : List Act} {e : ErrVal} {s : State} (ha : a.drawCount = 1)
    (hok : s.okAt 0 (outputDraws as)) (herr : s.drawAt (outputDraws as) = .err e) (hc : s.seq.cmd ≠ .teardown) :
    performAll (as.map Output.act ++ a.act :: rest) s = .ended (State.faulted e (s.driven (outputDraws as + 1)
      (a.lost s.fresh (linesAfter as s.lines)) (as.map Output.entry ++ [Tok.failed e a.entry]))) := by
  have hdone := performAll_driven (rest := a.act :: rest) (l := s.lines) (toks := []) hok
  rw [State.driven_zero, Nat.zero_add, List.nil_append] at hdone
  rw [hdone, performAll, Output.perform_err ha herr hc, Flow.ended_bind]

/-- A LineFault taken in equal states. -/
theorem next_faulted {e : ErrVal} {u t : State} (h : u = t) :
    (Host.Outcome.next (State.faulted e u) : Host.Outcome State Fault Refusal) = .next (State.faulted e t) := by rw [h]

/-! ### The start and the stop condition -/

/-- START as an operation, from what its table does (41_transport.md R150). -/
theorem exec_start_of {s : State} {f : Flow} (h : startCondition s = f) : exec .start s = .next f.state := by rw [← h]; rfl

theorem exec_stop_of {s : State} {f : Flow} (h : stopCondition s = f) : exec .stop s = .next f.state := by rw [← h]; rfl

theorem okAt_nil (s : State) : s.okAt 0 (outputDraws []) := fun _ hi => absurd hi (Nat.not_lt_zero _)

/-- Settles O15: START's table, done or cut at each of its four drives. -/
theorem startCondition_holds : Obligations.StartCondition := by
  refine ⟨fun _ => rfl, fun s => ⟨fun hok => exec_start_of (startCondition_ok hok), fun e hc =>
    ⟨Config.freeNat s.fresh 1 % 2 == 1, Config.freeNat s.fresh 2 % 2 == 1, fun herr => ?_, fun hok herr => ?_,
      fun hok herr => ?_, fun hok herr => ?_⟩⟩⟩
  · exact exec_start_of (performAll_cut (as := []) (a := .clk true) rfl (okAt_nil s) herr hc)
  · exact exec_start_of (performAll_cut (as := [.clk true]) (a := .dio true) rfl hok herr hc)
  · exact exec_start_of (performAll_cut (as := [.clk true, .dio true, .full]) (a := .dio false) rfl hok herr hc)
  · exact exec_start_of
      (performAll_cut (as := [.clk true, .dio true, .full, .dio false, .full]) (a := .clk false) rfl hok herr hc)

/-- Settles O16: STOP's table, done or cut at each of its four drives. -/
theorem stopCondition_holds : Obligations.StopCondition := by
  refine ⟨fun _ => rfl, fun s => ⟨fun hok => exec_stop_of (stopCondition_ok hok), fun e hc =>
    ⟨Config.freeNat s.fresh 1 % 2 == 1, Config.freeNat s.fresh 2 % 2 == 1, fun herr => ?_, fun hok herr => ?_,
      fun hok herr => ?_, fun hok herr => ?_⟩⟩⟩
  · exact exec_stop_of (performAll_cut (as := []) (a := .clk false) rfl (okAt_nil s) herr hc)
  · exact exec_stop_of (performAll_cut (as := [.clk false, .full]) (a := .dio false) rfl hok herr hc)
  · exact exec_stop_of (performAll_cut (as := [.clk false, .full, .dio false, .full]) (a := .clk true) rfl hok herr hc)
  · exact exec_stop_of
      (performAll_cut (as := [.clk false, .full, .dio false, .full, .clk true, .full]) (a := .dio true) rfl hok herr hc)

/-! ### WAIT_ACK -/

theorem exec_waitAck_of {s : State} {f : Flow} (h : waitAck s = f) : exec .waitAck s = .next f.state := by rw [← h]; rfl

/-- WAIT_ACK after `k` samples that read 1, with `left` samples still allowed (41_transport.md R153). -/
theorem waitAck_highs {k left : Nat} {s : State} (hk : k + left = 255) (h : ∀ i, i < k → s.drawAt i = .ok true) :
    waitAck s = poll left ((clearPoll s).highsSeen k) := by
  rw [waitAck, show Config.ackPollMax = k + left from hk.symm, poll_highs (s := clearPoll s) h]

/-- The state when `k` samples have read 1 and the next one 0 (41_transport.md R153). -/
def State.lowSeen (k : Nat) (s : State) : State :=
  { s.skipDraws (k + 1) with
    ac := BitVec.ofNat 8 (k + 1), ret := .bit false, tr := s.tr ++ (Wire.highs k ++ [.s0]) }

@[simp] theorem State.lowSeen_drawAt (k : Nat) (s : State) (i : Nat) : (s.lowSeen k).drawAt i = s.drawAt (k + 1 + i) :=
  State.drawAt_skipDraws (k + 1) s i

/-- A sample that reads 0 ends the poll; the clock pulse follows (41_transport.md R153). -/
theorem waitAck_low {k : Nat} {s : State} (hk : k < 255) (h : ∀ i, i < k → s.drawAt i = .ok true)
    (h0 : s.drawAt k = .ok false) : waitAck s = performAll ackActs (s.lowSeen k) := by
  have hsample : ((clearPoll s).highsSeen k).drawAt 0 = .ok false := by simpa using h0
  rw [waitAck_highs (left := 254 - k + 1) (by omega) h, poll, sampleDio_ok hsample]
  refine congrArg (performAll ackActs) ?_
  apply State.ext <;> simp [State.lowSeen, State.highsSeen, sampleTok, BitVec.ofNat_add, Nat.add_assoc]

/-- A sample that fails, outside TEARDOWN, ends the poll. -/
theorem poll_err {left : Nat} {e : ErrVal} {s : State} (h : s.drawAt 0 = .err e) (hc : s.seq.cmd ≠ .teardown) :
    poll (left + 1) s = .ended (State.faulted e { s.skipDraws 1 with tr := s.tr ++ [.se e] }) := by
  rw [poll, sampleDio_err h hc, Flow.ended_bind]

/-- Settles O21: the samples that read 1 come first; then one reads 0, or fails, or none is left. -/
theorem waitAckRuns : Obligations.WaitAckRuns := by
  refine ⟨fun _ => rfl, fun s => ⟨fun k hk hhi hlo hok => ?_, fun hc hhi => ?_, fun hc k e hk hhi =>
    ⟨Config.freeNat s.fresh 1 % 2 == 1, fun herr => ?_, fun hlo herr => ?_, fun hlo hrise herr => ?_⟩⟩⟩
  · have hpulse := ackActs_ok (s := s.lowSeen k) fun i hi => by simpa [Nat.add_assoc] using hok i hi
    refine (exec_waitAck_of ((waitAck_low hk hhi hlo).trans hpulse)).trans (congrArg Host.Outcome.next ?_)
    apply State.ext <;> simp [State.lowSeen, Nat.add_assoc]
  · have htimeout := raise_ackTimeout (s := (clearPoll s).highsSeen 255) hc
    refine ⟨anyErr s.cfg (Config.freeNat s.fresh 0), (exec_waitAck_of (waitAck_highs (left := 0) rfl hhi)).trans ?_⟩
    refine congrArg Host.Outcome.next (htimeout.trans (congrArg (State.timedOut _) ?_))
    apply State.ext <;> simp [State.highsSeen]
  · have hsample := poll_err (left := 254 - k) (s := (clearPoll s).highsSeen k) (by simpa using herr) hc
    refine (exec_waitAck_of ((waitAck_highs (by omega) hhi).trans hsample)).trans (next_faulted ?_)
    apply State.ext <;> simp [State.highsSeen, Nat.add_assoc]
  · have hrise := ackActs_err_rise (s := s.lowSeen k) (by simpa using herr) hc
    refine (exec_waitAck_of ((waitAck_low hk hhi hlo).trans hrise)).trans (next_faulted ?_)
    apply State.ext <;> simp [State.lowSeen, Nat.add_assoc]
  · have hfall := ackActs_err_fall (s := s.lowSeen k) (by simpa using hrise) (by simpa using herr) hc
    refine (exec_waitAck_of ((waitAck_low hk hhi hlo).trans hfall)).trans (next_faulted ?_)
    apply State.ext <;> simp [State.lowSeen, Nat.add_assoc]

/-! ### SEND_BYTE -/

theorem exec_sendByte_of {v : Byte} {s : State} {f : Flow} (h : sendByte v s = f) : exec (.sendByte v) s = .next f.state := by
  rw [← h]; rfl

/-- Settles O17: the acknowledged slot is a law of the transport. -/
theorem sendByteAcknowledged : Obligations.SendByteAcknowledged :=
  fun _ _ _ hslot => exec_sendByte_of (sendByte_acked hslot)

/-- Settles O18: the slot that is never acknowledged ends in AckTimeout, taken outside TEARDOWN. -/
theorem sendByteUnacknowledged : Obligations.SendByteUnacknowledged :=
  fun _ _ hslot hc =>
    ⟨_, (exec_sendByte_of (sendByte_unacked hslot)).trans (congrArg Host.Outcome.next (raise_ackTimeout hc))⟩

/-- A line action that ends the command inside cell `i` ends the byte. -/
theorem sendByte_cell_ended {v : Byte} {i : Nat} {s u : State} (hi : i < 8) (hok : s.okAt 0 (3 * i))
    (h : performAll (cellActs (v.getLsbD i)) ((loadByte v s).cellsSent i) = .ended u) : sendByte v s = .ended u := by
  have hbit : (v >>> i).getLsbD 0 = v.getLsbD i := by simp
  have hcells := sendBits_ended (s := loadByte v s) hi hok (hbit ▸ h)
  rw [sendByte, hcells, Flow.ended_bind]

/-- The release of the data line fails, outside TEARDOWN. -/
theorem sendByte_release_err {v : Byte} {e : ErrVal} {s : State} (hok : s.okAt 0 24) (herr : s.drawAt 24 = .err e)
    (hc : s.seq.cmd ≠ .teardown) :
    sendByte v s = .ended (State.faulted e
      { ((loadByte v s).cellsSent 8).skipDraws 1 with
        dio := .x, dioO := Config.freeNat s.fresh 2 % 2 == 1, tr := ((loadByte v s).cellsSent 8).tr ++ [.d1e e] }) := by
  rw [sendByte, sendBits_ok (n := 8) (s := loadByte v s) hok, Flow.go_bind,
    driveDio_err (s := (loadByte v s).cellsSent 8) (by simpa using herr) hc, Flow.ended_bind]
  rfl

theorem dioErrTok_eq_failed (b : Bool) (e : ErrVal) : dioErrTok b e = Tok.failed e (if b then .d1 else .d0) := by
  cases b <;> rfl

/-- Settles O19: the cells before cell `i` are complete, then a drive of cell `i` fails; or all eight are, then the release. -/
theorem sendByteFaults : Obligations.SendByteFaults := by
  intro v e s hc
  refine ⟨Config.freeNat s.fresh 1 % 2 == 1, Config.freeNat s.fresh 2 % 2 == 1, fun i hi => ?_, fun hok herr => ?_⟩
  · have hdraw (j : Nat) : ((loadByte v s).cellsSent i).drawAt j = s.drawAt (3 * i + j) := by simp
    have hcells {n : Nat} (hok : s.okAt 0 (3 * i + n)) : s.okAt 0 (3 * i) := fun j hj => hok j (by omega)
    have hdone {n : Nat} (hok : s.okAt 0 (3 * i + n)) {j : Nat} (hj : j < n) :
        (((loadByte v s).cellsSent i).drawAt j).isOk = true := by
      simpa using hok (3 * i + j) (by omega)
    refine ⟨fun hok herr => ?_, fun hok herr => ?_, fun hok herr => ?_⟩
    · have hcut := cell_err_data (b := v.getLsbD i) ((hdraw 0).trans herr) hc
      refine (exec_sendByte_of (sendByte_cell_ended hi hok hcut)).trans (next_faulted ?_)
      apply State.ext <;> simp [State.cellsSent, dioErrTok_eq_failed, Nat.add_assoc]
    · have hcut := cell_err_rise (b := v.getLsbD i) (hdone hok (j := 0) (by omega)) ((hdraw 1).trans herr) hc
      refine (exec_sendByte_of (sendByte_cell_ended hi (hcells hok) hcut)).trans (next_faulted ?_)
      apply State.ext <;> simp [State.cellsSent, dioTok, Nat.add_assoc]
    · have hcut := cell_err_fall (b := v.getLsbD i) (hdone hok (j := 0) (by omega)) (hdone hok (j := 1) (by omega))
        ((hdraw 2).trans herr) hc
      refine (exec_sendByte_of (sendByte_cell_ended hi (hcells hok) hcut)).trans (next_faulted ?_)
      apply State.ext <;> simp [State.cellsSent, dioTok, Nat.add_assoc]
  · refine (exec_sendByte_of (sendByte_release_err hok herr hc)).trans (next_faulted ?_)
    apply State.ext <;> simp [State.cellsSent]
    case sr => exact BitVec.ushiftRight_eq_zero (by omega)

/-- An exception raised in a routine leaves the engine idle (60_exceptions.md R240). -/
theorem Answered.seq_idle {s t : State} (h : Answered s t) : t.seq = Seq.idle := by
  obtain ⟨-, -, -, hout, hin⟩ := h
  by_cases hc : s.seq.cmd = .teardown
  · obtain ⟨⟨-, -, -, hseq⟩, -⟩ := hin hc
    exact hseq
  · obtain ⟨-, -, -, -, -, ⟨⟨-, -, -, hseq⟩, -⟩ | ⟨_, ⟨-, -, -, hseq⟩, -⟩⟩ := hout hc
    · exact hseq
    · exact hseq

/-- After the release SEND_BYTE is WAIT_ACK and the tail wait (41_transport.md R152). -/
theorem sendByte_released {v : Byte} {s : State} (h : s.okAt 0 25) :
    sendByte v s = (waitAck (s.released v)).bind pauseHalf := by
  rw [sendByte, ← Flow.bind_assoc, bits_released h, Flow.go_bind]

/-- Settles O20: WAIT_ACK that returned leaves `SEQ` and is followed by the tail wait, one that raised leaves it idle. -/
theorem sendByteTail : Obligations.SendByteTail := by
  intro v s hok hc
  have hbusy : s.seq ≠ Seq.idle := fun h => hc (congrArg Seq.cmd h)
  have hreleased := sendByte_released (v := v) hok
  have hleaves := kept_steady.waitAck (s.released v)
  rw [List.append_assoc]
  cases hw : waitAck (s.released v) with
  | go t =>
    obtain ⟨hseq, -⟩ := poll_go hw
    rw [hw] at hreleased
    exact ⟨t, exec_waitAck_of hw, fun _ => exec_sendByte_of hreleased, fun h => absurd hseq h⟩
  | ended t =>
    rw [hw] at hreleased hleaves
    have hseq : t.seq = Seq.idle := hleaves.seq_idle
    exact ⟨t, exec_waitAck_of hw, fun h => absurd (h.symm.trans hseq) hbusy, fun _ => ⟨hseq, exec_sendByte_of hreleased⟩⟩

end Sys2Proof.Machine
end

section
/-!
SUPPORT. The encoder family (spec/42_encoders.md R170 to R178): what each encoder returns as an operation, and the bits of a byte with
the indicator or the brightness merged in.
-/
namespace Sys2Proof.Machine

/-! ### The encoders as operations

Each returns its function's value and leaves the rest of the state alone. -/

theorem exec_seg (d : Digit) (s : State) : exec (.seg d) s = .next { s with ret := .byte (seg s.cfg d) } := rfl

theorem exec_ind (b : Byte) (bit : Bool) (s : State) : exec (.ind b bit) s = .next { s with ret := .byte (ind b bit) } := rfl

theorem exec_enc (ds : List Digit) (bit : Bool) (s : State) :
    exec (.enc ds bit) s = .next { s with ret := .bytes (enc s.cfg ds bit) } := rfl

theorem exec_dec (v : Word32) (s : State) : exec (.dec v) s = .next { s with ret := .digits (dec v) } := rfl

theorem exec_ctrl (s : State) : exec .ctrl s = .next { s with ret := .byte (ctrl s.cfg s.br) } := rfl

/-- Settles O8: the loop of DEC builds the minimal list of digits, a law of the encoders. -/
theorem decimalDigits : Obligations.DecimalDigits :=
  fun v s => ⟨dec v, exec_dec v s, dec_spec v⟩

/-- Settles O5: SEG is the table's entry, whose bit 7 is clear under R11. -/
theorem segmentByte : Obligations.SegmentByte := by
  refine fun d s => ⟨exec_seg d s, fun hok => ?_⟩
  obtain ⟨-, -, htable, -⟩ := params_ok_iff.mp hok
  exact htable d

/-! ### The indicator bit -/

/-- `IND_MASK` is bit 7 alone (00_scope.md R9). -/
theorem indMask_getLsbD (i : Nat) : Config.indMask.getLsbD i = decide (i = 7) := by
  rw [show Config.indMask = BitVec.twoPow 8 7 from rfl, BitVec.getLsbD_twoPow]
  simp [eq_comm]

/-- Every bit of IND: the indicator is ORed into bit 7 alone (42_encoders.md R171). -/
theorem ind_getLsbD (b : Byte) (bit : Bool) (i : Nat) :
    (ind b bit).getLsbD i = (b.getLsbD i || (bit && decide (i = 7))) := by
  cases bit with
  | false => simp [ind]
  | true => rw [ind, if_pos rfl, BitVec.getLsbD_or, indMask_getLsbD, Bool.true_and]

/-- Settles O6: bit by bit, IND ORs the indicator into bit 7. -/
theorem indicatorMerge : Obligations.IndicatorMerge := by
  refine fun b bit s => ⟨ind b bit, exec_ind b bit s, rfl, ?_, fun i hi => ?_⟩
  · rw [ind_getLsbD, decide_eq_true rfl, Bool.and_true]
  · rw [ind_getLsbD, decide_eq_false hi.ne, Bool.and_false, Bool.or_false]

/-- Settles O7: ENC is the map of SEG with the indicator over the digits. -/
theorem digitsEncoded : Obligations.DigitsEncoded := by
  refine fun ds bit s => ⟨enc s.cfg ds bit, exec_enc ds bit s, List.length_map _, fun i d hd => ?_⟩
  rw [enc, List.getElem?_map, hd]
  rfl

/-! ### The control byte -/

/-- A brightness has no bit above bit 2 (10_state.md R34). -/
theorem brightness_bits (br : BitVec 3) : br.setWidth 8 &&& 0x07 = br.setWidth 8 ∧ br.setWidth 8 &&& 0xF8 = 0#8 := by
  decide +revert

/-- A mask with bits 2 to 0 clear, as R11 has the on-mask, is its bits 7 to 3 (00_scope.md R11). -/
theorem onMask_high {m : Byte} (h : m &&& 0x07 = 0#8) : m &&& 0xF8 = m := by
  calc m &&& 0xF8 = m &&& 0x07 ||| m &&& 0xF8 := by rw [h, BitVec.zero_or]
    _ = m &&& (0x07 ||| 0xF8) := BitVec.and_or_distrib_left.symm
    _ = m := BitVec.and_allOnes

/-- Such a mask shares no bit with a brightness. -/
theorem onMask_and_brightness {m : Byte} (h : m &&& 0x07 = 0#8) (br : BitVec 3) : m &&& br.setWidth 8 = 0#8 := by
  rw [← (brightness_bits br).1, BitVec.and_comm (br.setWidth 8), ← BitVec.and_assoc, h, BitVec.zero_and]

/-- Settles O9: the mask and the brightness share no bit, so each is read back and OR is addition. (In the namespace
itself `controlByte` is the sequencer's byte of phase (c).) -/
theorem Encoders.controlByte : Obligations.ControlByte := by
  refine fun s => ⟨ctrl s.cfg s.br, exec_ctrl s, rfl, fun hok => ?_⟩
  obtain ⟨-, -, -, hmask, -, -⟩ := params_ok_iff.mp hok
  obtain ⟨hlow, hhigh⟩ := brightness_bits s.br
  have hdisjoint := onMask_and_brightness hmask s.br
  rw [ctrl]
  refine ⟨?_, ?_, ?_⟩
  · rw [BitVec.and_or_distrib_right, hlow, hmask]
    exact BitVec.zero_or
  · rw [BitVec.and_or_distrib_right, hhigh, onMask_high hmask, BitVec.or_zero]
  · rw [← BitVec.add_eq_or_of_and_eq_zero _ _ hdisjoint, BitVec.toNat_add_of_and_eq_zero hdisjoint,
      BitVec.toNat_setWidth_of_le (by decide)]

end Sys2Proof.Machine
end

section
/-!
SUPPORT. The framing family (spec/43_framing.md R190 to R197): a byte that is never acknowledged ends a transmission and so the frame,
and each of the three sends is its resolved payload, then the frame, then the end of the command.
-/
namespace Sys2Proof.Machine

/-! ### A transmission whose byte is never acknowledged -/

theorem State.unackedSlot_congr {s t : State} {off off' : Nat} (h : ∀ i, t.drawAt (off' + i) = s.drawAt (off + i))
    (hs : s.unackedSlot off) : t.unackedSlot off' := by
  obtain ⟨hok, hhigh⟩ := hs
  refine ⟨State.okAt_congr h hok, fun i hi => ?_⟩
  rw [Nat.add_assoc, h, ← Nat.add_assoc]
  exact hhigh i hi

@[simp] theorem Flow.raise_bind (x : Exn) (s : State) (k : State → Flow) : (Flow.raise x s).bind k = .raise x s := rfl

/-- The state in which a transmission gives up whose first byte is never acknowledged (60_exceptions.md R242). -/
def State.firstByteUnacked (v : Byte) (s : State) : State :=
  { s.skipDraws 284 with
    sr := 0, bc := 8, ac := 255, clk := .lo, clkO := false, dio := .hi, dioO := true, ret := .bit true,
    tr := s.tr ++ Wire.start ++ Wire.unacked v }

theorem State.started_slotUnacked (v : Byte) (s : State) : s.started.slotUnacked v = s.firstByteUnacked v := by
  apply State.ext <;> simp [State.started, State.slotUnacked, State.firstByteUnacked]

/-- Nothing follows the byte: no stop condition, no other byte (60_exceptions.md R242). -/
theorem transmission_unacked {v : Byte} {s : State} {k : State → Flow} (hok : s.okAt 0 4) (h : s.unackedSlot 4) :
    (startCondition s).bind (fun t => (sendByte v t).bind k) = .raise .ackTimeout (s.firstByteUnacked v) := by
  have hslot : s.started.unackedSlot 0 := State.unackedSlot_congr (fun i => by simp) h
  rw [startCondition_ok hok, Flow.go_bind, sendByte_unacked hslot, Flow.raise_bind, State.started_slotUnacked]

/-- In whatever phase the transmission is, AckTimeout clears `SEQ` (60_exceptions.md R240). -/
theorem raise_firstByteUnacked {v : Byte} {p : Phase} {s : State} (hc : s.seq.cmd ≠ .teardown) :
    raise .ackTimeout ((s.inPhase p).firstByteUnacked v) =
      (s.firstByteUnacked v).timedOut (anyErr s.cfg (Config.freeNat s.fresh 0)) :=
  raise_ackTimeout (s := (s.inPhase p).firstByteUnacked v) hc

/-! ### PHASE_C -/

theorem exec_phaseC_of {c : Byte} {s : State} {f : Flow} (h : phaseC c s = f) : exec (.phaseC c) s = .next f.state := by
  rw [← h]; rfl

theorem phaseC_unacked {c : Byte} {s : State} (hok : s.okAt 0 4) (h : s.unackedSlot 4) :
    phaseC c s = .raise .ackTimeout ((s.inPhase .c).firstByteUnacked c) :=
  transmission_unacked (State.okAt_congr (fun _ => rfl) hok) (State.unackedSlot_congr (fun _ => rfl) h)

/-- Settles O23: phase (c) is one transmission of one byte, run through or given up at that byte. -/
theorem phaseCRuns : Obligations.PhaseCRuns := by
  refine fun c s => ⟨fun k h => exec_phaseC_of (phaseC_acked h), fun hok h hc => ?_⟩
  exact ⟨_, (exec_phaseC_of (phaseC_unacked hok h)).trans (congrArg Host.Outcome.next (raise_firstByteUnacked hc))⟩

/-! ### FRAME -/

theorem exec_frame_of {s : State} {f : Flow} (h : frame s = f) : exec .frame s = .next f.state := by rw [← h]; rfl

/-- A device that is absent ends the frame with the data command (70_reset_and_hazards.md R284). -/
theorem frame_unacked {s : State} (hok : s.okAt 0 4) (h : s.unackedSlot 4) :
    frame s = .raise .ackTimeout ((s.inPhase .a).firstByteUnacked s.cfg.dataCmd) := by
  have hfirst := transmission_unacked (v := s.cfg.dataCmd) (s := s.inPhase .a) (k := stopCondition)
    (State.okAt_congr (fun _ => rfl) hok) (State.unackedSlot_congr (fun _ => rfl) h)
  rw [frame_eq, hfirst, Flow.raise_bind]

/-- Settles O24: the frame is its three transmissions, or is given up at the first byte of the first. -/
theorem frameRuns : Obligations.FrameRuns := by
  refine ⟨fun w s hl h => exec_frame_of (frame_acked hl h), fun s hok h hc => ?_⟩
  exact ⟨_, (exec_frame_of (frame_unacked hok h)).trans (congrArg Host.Outcome.next (raise_firstByteUnacked hc))⟩

/-! ### A frame that times out inside its payload -/

/-- The payload loop after its first `m` bytes. -/
theorem sendPayload_add (m n : Nat) (s : State) : sendPayload (m + n) s = (sendPayload m s).bind (sendPayload n) := by
  induction m generalizing s with
  | zero => rw [Nat.zero_add]; rfl
  | succ m ih =>
    rw [Nat.add_right_comm, sendPayload, sendPayload, Flow.bind_assoc]
    exact Flow.bind_congr fun t _ => ih (nextIndex t)

/-- The payload loop whose bytes `bs` are acknowledged and whose next one is not (43_framing.md R197). -/
theorem sendPayload_unacked {bs : List Byte} {ks : List Nat} {n : Nat} {s : State} (hl : bs.length = ks.length)
    (hn : bs.length < n) (hb : ∀ i (hi : i < bs.length), s.pbAt ((s.pi + BitVec.ofNat 4 i).toNat) = bs[i])
    (h : s.ackedSlots 0 ks) (hu : s.unackedSlot (slotsDraws ks)) :
    sendPayload n s = .raise .ackTimeout
      ((s.slotsSent bs ks).slotUnacked (s.pbAt (s.pi + BitVec.ofNat 4 bs.length).toNat)) := by
  obtain ⟨left, rfl⟩ := Nat.exists_eq_add_of_lt hn
  have hslot : (s.slotsSent bs ks).unackedSlot 0 := State.unackedSlot_congr (fun i => by simp) hu
  rw [Nat.add_assoc, sendPayload_add, sendPayload_acked hl hb h, Flow.go_bind, sendPayload, sendByte_unacked hslot,
    Flow.raise_bind]
  rfl

/-- Phase (b) up to its payload loop. -/
def State.burstOpened (kb : Nat) (s : State) : State :=
  clearIndex (((s.inPhase .b).started).slotSent s.cfg.addrCmd kb)

@[simp] theorem State.burstOpened_drawAt (kb : Nat) (s : State) (i : Nat) :
    (s.burstOpened kb).drawAt i = s.drawAt (4 + slotDraws kb + i) := by
  simp [State.burstOpened, Nat.add_assoc]

/-- The start condition and the address command of phase (b) (43_framing.md R190). -/
theorem phaseB_opened {s : State} {kb : Nat} {k : State → Flow} (hok : s.okAt 0 4) (h : s.ackedSlot 4 kb) :
    (startCondition (s.inPhase .b)).bind (fun t => (sendByte s.cfg.addrCmd t).bind fun t =>
      (sendPayload t.plen.toNat (clearIndex t)).bind k) =
    (sendPayload s.plen.toNat (s.burstOpened kb)).bind k := by
  rw [startCondition_ok (s := s.inPhase .b) (State.okAt_congr (fun _ => rfl) hok), Flow.go_bind,
    sendByte_acked (State.ackedSlot_congr (fun i => by simp) h), Flow.go_bind]
  rfl

/-- Byte `i` of the payload, as the payload loop reads it. -/
theorem State.pbAt_index {s : State} {i : Nat} (hi : i < 16) : s.pbAt (0 + BitVec.ofNat 4 i).toNat = s.pbAt i := by
  rw [show (0 : BitVec 4) + BitVec.ofNat 4 i = BitVec.ofNat 4 i from BitVec.zero_add _, BitVec.toNat_ofNat, Nat.mod_eq_of_lt hi]

/-- The state in which phase (b) gives up at payload byte `kp.length`, the bytes before it acknowledged with the high-sample counts
`kp` (43_framing.md R197). -/
def State.burstUnacked (kb : Nat) (kp : List Nat) (s : State) : State :=
  ((s.burstOpened kb).slotsSent (s.payload.take kp.length) kp).slotUnacked (s.pbAt kp.length)

theorem State.burstUnacked_tr (kb : Nat) (kp : List Nat) (s : State) :
    (s.burstUnacked kb kp).tr = s.tr ++ Wire.start ++
      Wire.slots (s.cfg.addrCmd :: s.payload.take kp.length) (kb :: kp) ++ Wire.unacked (s.pbAt kp.length) := by
  simp [State.burstUnacked, State.slotUnacked, State.slotsSent, State.burstOpened, State.slotSent, State.started, Wire.slots]

theorem State.payload_take_length {n : Nat} {s : State} (h : n ≤ s.plen.toNat) : (s.payload.take n).length = n := by
  rw [List.length_take, State.payload_length, Nat.min_eq_left h]

theorem State.burstUnacked_pi {kb : Nat} {kp : List Nat} {s : State} (h : kp.length ≤ s.plen.toNat) :
    (s.burstUnacked kb kp).pi = BitVec.ofNat 4 kp.length := by
  change 0#4 + BitVec.ofNat 4 (s.payload.take kp.length).length = _
  rw [State.payload_take_length h, BitVec.zero_add]

theorem State.burstUnacked_cmdName (kb : Nat) (kp : List Nat) (s : State) :
    (s.burstUnacked kb kp).seq.cmd = s.seq.cmd := by
  simp [State.burstUnacked, State.slotUnacked, State.slotsSent, State.burstOpened, State.slotSent, State.started]

/-- Phase (b) when its payload byte number `kp.length` is the first that is never acknowledged (43_framing.md R197). -/
theorem phaseB_unacked {s : State} {kb : Nat} {kp : List Nat} {k : State → Flow} (hn : kp.length < s.plen.toNat)
    (hok : s.okAt 0 4) (h : s.ackedSlots 4 (kb :: kp)) (hu : s.unackedSlot (4 + slotsDraws (kb :: kp))) :
    (startCondition (s.inPhase .b)).bind (fun t => (sendByte s.cfg.addrCmd t).bind fun t =>
      (sendPayload t.plen.toNat (clearIndex t)).bind k) =
    .raise .ackTimeout (s.burstUnacked kb kp) := by
  obtain ⟨haddr, hpay⟩ := h
  have hplen : s.plen.toNat < 16 := s.plen.isLt
  have hlen := State.payload_take_length hn.le
  have hbytes : ∀ i (hi : i < (s.payload.take kp.length).length),
      (s.burstOpened kb).pbAt (((s.burstOpened kb).pi + BitVec.ofNat 4 i).toNat) = (s.payload.take kp.length)[i] := by
    intro i hi
    have hbyte : (s.payload.take kp.length)[i] = s.pbAt i := by simp [State.payload]
    rw [hbyte]
    exact State.pbAt_index (s := s) (by omega)
  have hloop := sendPayload_unacked hlen (hlen ▸ hn) hbytes
    (State.ackedSlots_congr (fun i => by simp) hpay)
    (State.unackedSlot_congr (fun i => by simp [slotsDraws, Nat.add_assoc]) hu)
  rw [phaseB_opened hok haddr, hloop, Flow.raise_bind, hlen]
  have hbyte : (s.burstOpened kb).pbAt ((s.burstOpened kb).pi + BitVec.ofNat 4 kp.length).toNat = s.pbAt kp.length :=
    State.pbAt_index (s := s) (by omega)
  rw [hbyte, State.burstUnacked]

/-- FRAME when the data command, the address command and `kp.length` payload bytes are acknowledged and the next is not. -/
theorem frame_burstUnacked {s : State} {ka kb : Nat} {kp : List Nat} (hn : kp.length < s.plen.toNat)
    (ha : s.ackedTransmission 0 [ka]) (hok : s.okAt (transmissionDraws [ka]) 4)
    (h : s.ackedSlots (transmissionDraws [ka] + 4) (kb :: kp))
    (hu : s.unackedSlot (transmissionDraws [ka] + 4 + slotsDraws (kb :: kp))) :
    frame s = .raise .ackTimeout (((s.inPhase .a).byteTransmitted s.cfg.dataCmd ka).burstUnacked kb kp) := by
  have hA := transmit_byte (v := s.cfg.dataCmd) (s := s.inPhase .a) (State.ackedTransmission_congr (fun _ => rfl) ha)
  rw [frame_eq, hA, Flow.go_bind]
  exact phaseB_unacked (s := (s.inPhase .a).byteTransmitted s.cfg.dataCmd ka) hn
    (State.okAt_congr (fun i => by simp) hok) (State.ackedSlots_congr (fun i => by simp [Nat.add_assoc]) h)
    (State.unackedSlot_congr (fun i => by simp [Nat.add_assoc]) hu)

/-- An AckTimeout that ends a frame outside TEARDOWN is answered, and leaves what no rule of a frame writes (60_exceptions.md R240,
R242). -/
theorem frame_ackTimeout_keeps {s u t : State} (h : frame s = .raise .ackTimeout u) (hu : u.seq.cmd ≠ .teardown)
    (hc : s.seq.cmd ≠ .teardown) (ht : raise .ackTimeout u = t) :
    responded s t ⟨.ackTimeout, none⟩ ∧ t.lf = s.lf ∧ t.en = s.en ∧ t.plen = s.plen ∧ t.pb = s.pb ∧ keepsControl s t := by
  subst ht
  have hleft := kept_steady.frame s
  rw [h] at hleft
  obtain ⟨-, hcmd, hhost, hout, -⟩ := hleft
  obtain ⟨hlife, hbr, hen, hpb, hplen, hend⟩ := hout hc
  have hstatus : (raise .ackTimeout u).st = .ackTimeout := by rw [raise_ackTimeout hu]; rfl
  obtain ⟨hresp, hlf⟩ := hend.resolve_right fun ⟨_, ⟨hst, _⟩, _⟩ => Status.noConfusion (hstatus.symm.trans hst)
  exact ⟨hresp, hlf, hen, hplen, hpb, hlife, hbr, hcmd, hhost⟩

/-- Settles O25: phase (a) whole, phase (b) up to the byte that is not acknowledged, and then AckTimeout. -/
theorem partialProgress : Obligations.PartialProgress := by
  intro ka kb kp s hn _ hc ha hok h hu
  have hframe := frame_burstUnacked hn ha hok h hu
  have hpi := State.burstUnacked_pi (kb := kb) (s := (s.inPhase .a).byteTransmitted s.cfg.dataCmd ka) hn.le
  have htr := State.burstUnacked_tr kb kp ((s.inPhase .a).byteTransmitted s.cfg.dataCmd ka)
  have hcT := (State.burstUnacked_cmdName kb kp ((s.inPhase .a).byteTransmitted s.cfg.dataCmd ka)).trans_ne hc
  generalize ((s.inPhase .a).byteTransmitted s.cfg.dataCmd ka).burstUnacked kb kp = T at hframe hpi htr hcT
  have hraise := raise_ackTimeout hcT
  refine ⟨raise .ackTimeout T, s.pbAt kp.length, exec_frame_of hframe, by simp [State.payload, hn], ?_, ?_,
    frame_ackTimeout_keeps hframe hcT hc rfl⟩
  · rw [hraise]; exact hpi
  · rw [hraise]; exact htr

/-! ### The three sends as a payload, a frame and an end -/

/-- A send from its first line action on, its payload resolved to `bs` (43_framing.md R192). -/
def State.resolved (c : CmdName) (bs : List Byte) (s : State) : State := (loadPayload bs s).position c .a .start

theorem exec_sendBytes_resolved {len : BitVec 4} {arg : HostArg} {s : State} (hlive : s.life = .live)
    (hn : len.toNat ≤ s.cfg.payloadMax) :
    exec (.sendBytes len arg) s = .next ((frame (s.resolved .sendBytes (items len arg))).bind finish).state := by
  change execSendBytes len arg s = _
  rw [execSendBytes, beginSendBytes_ok hlive hn, Flow.go_bind, State.resolved]

theorem exec_sendDigits_resolved {bit : Bool} {ds : List Digit} {arg : HostArg} {s : State} (hlive : s.life = .live)
    (hok : s.cfg.ok = true) (hn : ds.length ≤ s.cfg.payloadMax)
    (hitems : ∀ i d, ds[i]? = some d → (arg.extractLsb' (8 * i) 8).toNat = d.val) :
    exec (.sendDigits bit (BitVec.ofNat 4 ds.length) arg) s =
      .next ((frame (s.resolved .sendDigits (enc s.cfg ds bit))).bind finish).state := by
  have hlen : (BitVec.ofNat 4 ds.length).toNat ≤ s.cfg.payloadMax := (Nat.mod_le _ _).trans hn
  obtain ⟨-, -, -, -, -, hmax⟩ := params_ok_iff.mp hok
  change execSendDigits bit _ arg s = _
  rw [execSendDigits, beginSendDigits_ok hlive hlen (digits_items ds arg (hn.trans hmax) hitems), Flow.go_bind, State.resolved]

theorem exec_sendNumber_resolved {v : Word32} {s : State} (hlive : s.life = .live)
    (hn : (dec v).length ≤ s.cfg.payloadMax) :
    exec (.sendNumber v) s = .next ((frame (s.resolved .sendNumber ((dec v).map (seg s.cfg)))).bind finish).state := by
  change execSendNumber v s = _
  rw [execSendNumber, beginSendNumber_ok hlive hn, Flow.go_bind, State.resolved]

theorem items_length (len : BitVec 4) (arg : HostArg) : (items len arg).length = len.toNat := by simp [items]

theorem items_getElem? {len : BitVec 4} {arg : HostArg} {i : Nat} (hi : i < len.toNat) :
    (items len arg)[i]? = some (arg.extractLsb' (8 * i) 8) := by
  simp [items, itemAt, hi]

theorem enc_getElem? {p : Params} {ds : List Digit} {bit : Bool} {i : Nat} {d : Digit} (h : ds[i]? = some d) :
    (enc p ds bit)[i]? = some (p.segTable[d] ||| (if bit then 0x80 else 0x00)) := by
  rw [enc, List.getElem?_map, h]; rfl

/-- Settles O26: the items of the operand are loaded and sent. -/
theorem sendBytesRuns : Obligations.SendBytesRuns := by
  intro len arg w s hlive hn hw h
  have hlen := items_length len arg
  obtain ⟨t, ht, htr, hpb, hplen, hpi, hrest⟩ :=
    send_runs .sendBytes (.inl rfl) (items len arg) w s (hlen ▸ hn) (by omega) (hw.trans hlen.symm) h
  rw [hlen, BitVec.ofNat_toNat, BitVec.setWidth_eq] at hplen hpi
  exact ⟨t, (exec_sendBytes_resolved hlive hn).trans (congrArg _ ht), htr,
    fun i hi hlt => hpb i hi _ (items_getElem? hlt), hplen, hpi, hrest⟩

/-- Settles O27: ENC of the digits is loaded and sent. -/
theorem sendDigitsRuns : Obligations.SendDigitsRuns := by
  intro bit ds arg w s hlive hok hn hitems hw h
  obtain ⟨-, -, -, -, -, hmax⟩ := params_ok_iff.mp hok
  have hlen : (enc s.cfg ds bit).length = ds.length := List.length_map _
  obtain ⟨t, ht, htr, hpb, hplen, hpi, hrest⟩ := send_runs .sendDigits (.inr (.inl rfl)) (enc s.cfg ds bit) w s
    (hlen ▸ hn) (hlen ▸ hn.trans hmax) (hw.trans hlen.symm) h
  exact ⟨t, (exec_sendDigits_resolved hlive hok hn hitems).trans (congrArg _ ht), htr,
    fun i hi d hd => hpb i hi _ (enc_getElem? hd), hlen ▸ hplen, hpi.trans hplen.symm, hrest⟩

/-- Settles O28: SEG of each decimal digit is loaded and sent. -/
theorem sendNumberRuns : Obligations.SendNumberRuns := by
  intro v w s hlive hok hv hw h
  have hn : (dec v).length ≤ s.cfg.payloadMax := (dec_fits hok v).mpr hv
  obtain ⟨-, -, -, -, -, hmax⟩ := params_ok_iff.mp hok
  have hlen : ((dec v).map (seg s.cfg)).length = (dec v).length := List.length_map _
  obtain ⟨t, ht, htr, hpb, hplen, hpi, hrest⟩ := send_runs .sendNumber (.inr (.inr rfl)) ((dec v).map (seg s.cfg)) w s
    (hlen ▸ hn) (hlen ▸ hn.trans hmax) (hw.trans hlen.symm) h
  refine ⟨t, (exec_sendNumber_resolved hlive hn).trans (congrArg _ ht), htr, fun i hi d hd => hpb i hi _ ?_, ?_,
    hpi.trans hplen.symm, hrest⟩
  · rw [List.getElem?_map, hd]; rfl
  · rw [hplen, hlen, BitVec.toNat_ofNat, Nat.mod_eq_of_lt (by omega)]

/-! ### A send cut at its first line action -/

/-- The state when the first line action of a frame has failed with `e`: the clock drive of the start condition
(60_exceptions.md R240, R241). -/
def State.firstDriveFailed (e : ErrVal) (s : State) : State :=
  State.faulted e
    { s.skipDraws 1 with clk := .x, clkO := Config.freeNat s.fresh 1 % 2 == 1, tr := s.tr ++ [.c1e e] }

theorem frame_err_first {e : ErrVal} {s : State} (herr : s.drawAt 0 = .err e) (hc : s.seq.cmd ≠ .teardown) :
    frame s = .ended (s.firstDriveFailed e) := by
  have hstart : startCondition (s.inPhase .a) = .ended ((s.inPhase .a).firstDriveFailed e) :=
    performAll_cut (s := s.inPhase .a) (as := []) (a := .clk true) rfl (okAt_nil _) herr hc
  rw [frame, hstart]
  rfl

/-- What a send whose payload is `bs` leaves when its first line action fails: the payload is loaded, nothing is sent. -/
theorem resolved_firstDriveFailed {c : CmdName} {bs : List Byte} {e : ErrVal} {s t : State} (hl : bs.length ≤ 15)
    (ht : (s.resolved c bs).firstDriveFailed e = t) :
    t.tr = s.tr ++ [.c1e e] ∧
      t.plen.toNat = bs.length ∧ (∀ j (h : j < 15) b, bs[j]? = some b → t.pb[j] = b) ∧
      responded s t ⟨.lineFault, some e⟩ ∧ t.errv = e ∧ t.lf = true ∧ t.clk = .x ∧ t.dio = s.dio ∧ t.dioO = s.dioO ∧
      t.en = s.en ∧ t.sr = s.sr ∧ t.bc = s.bc ∧ t.ac = s.ac ∧ t.pi = s.pi ∧ keepsControl s t := by
  subst ht
  have hplen : bs.length % 16 = bs.length := Nat.mod_eq_of_lt (by omega)
  have hpb (j : Nat) (hj : j < 15) (b : Byte) (hb : bs[j]? = some b) : (loadPayload bs s).pb[j] = b := by
    simp [loadPayload, hb]
  simpa [State.firstDriveFailed, State.faulted, State.resolved, responded, keepsControl, hplen] using hpb

/-- Settles O31: each send loads its payload before the frame, whose first line action fails. -/
theorem resolveBeforeTransmit : Obligations.ResolveBeforeTransmit := by
  intro i bs e s hlive hok herr hl hsend
  obtain ⟨-, -, -, -, -, hmax⟩ := params_ok_iff.mp hok
  suffices hexec : ∃ c, c ≠ .teardown ∧ exec i s = .next ((frame (s.resolved c bs)).bind finish).state by
    obtain ⟨c, hc, hexec⟩ := hexec
    rw [frame_err_first (s := s.resolved c bs) (by simpa [State.resolved] using herr) (by simpa [State.resolved] using hc),
      Flow.ended_bind, Flow.ended_state] at hexec
    exact ⟨_, hexec, resolved_firstDriveFailed (hl.trans hmax) rfl⟩
  rcases hsend with ⟨len, arg, rfl, rfl⟩ | ⟨bit, ds, arg, rfl, hitems, rfl⟩ | ⟨v, rfl, rfl⟩
  · exact ⟨.sendBytes, nofun, exec_sendBytes_resolved hlive (by simpa using hl)⟩
  · exact ⟨.sendDigits, nofun, exec_sendDigits_resolved hlive hok (by simpa using hl) hitems⟩
  · exact ⟨.sendNumber, nofun, exec_sendNumber_resolved hlive (by simpa using hl)⟩

end Sys2Proof.Machine
end

section
/-!
SUPPORT. The encoding family: words written out from the spec (spec/43_framing.md R193 to R195, spec/30_encoding.md R96 to R101).
-/
namespace Sys2Proof.Laws.Coding

/-- Settles O3: each word is decoded by computation at the default parameters; that no default pattern is 0 is `default_pattern`. -/
theorem specWordsDecode : Obligations.SpecWordsDecode :=
  ⟨by decide, by decide, by decide, by decide, by decide, rfl, rfl, rfl, by decide, by decide, by decide, by decide, by decide,
    by decide, by decide, fun d => (default_pattern d).1⟩

end Sys2Proof.Laws.Coding
end

section
/-!
SUPPORT. The lifecycle family (spec/44_lifecycle.md R210 to R216): INIT as its two drives, ENABLE, DISABLE and TEARDOWN as phase (c)
with one control byte, what TEARDOWN discards, and what every host command leaves of `LIFE`, `EN` and `BR`.
-/
namespace Sys2Proof.Machine

theorem requireLive_live {s : State} (h : s.life = .live) (k : State → Flow) : requireLive s k = k s := if_pos h

/-- Settles O36: with `LIFE` LIVE and a brightness in range SET_BRIGHTNESS is its write of `BR` and `respond(OK)`. -/
theorem setBrightnessRuns : Obligations.SetBrightnessRuns := by
  intro b s hlive hb
  refine ⟨anyErr s.cfg (Config.freeNat s.fresh 0), ?_⟩
  change execSetBrightness b s = _
  rw [execSetBrightness, beginSetBrightness, requireLive_live hlive, if_neg hb.not_gt]
  rfl

/-! ### INIT -/

/-- The state in which INIT performs its first line action (44_lifecycle.md R210). -/
def State.initBegun (s : State) : State := s.clearFault.position .init .none .initSeq

/-- INIT with `LIFE` UNBUILT, from what its line actions do. -/
theorem exec_init_of {s : State} {f : Flow} (hlife : s.life = .unbuilt) (h : performAll initActs s.initBegun = f) :
    exec .init s = .next (f.bind finish).state := by
  have hlive : ¬ s.life = .live := by rw [hlife]; decide
  have hbegin : beginCommand .init s = some (.go s.initBegun) := congrArg some (if_neg hlive)
  rw [exec_of_beginCommand hbegin, ← h]
  rfl

theorem initActs_ok {s : State} (h : s.okAt 0 2) : performAll initActs s = .go s.linesRaised := by
  have hdone := performAll_driven (as := [.clk true, .dio true, .full]) (rest := []) (l := s.lines) (toks := []) h
  rw [State.driven_zero] at hdone
  exact hdone

/-- Settles O33: INIT's two drives, done or cut at either, and the end of INIT. -/
theorem initRuns : Obligations.InitRuns := by
  refine fun s hlife => ⟨fun hok => ⟨anyErr s.cfg (Config.freeNat s.fresh 0), ?_⟩, fun e =>
    ⟨Config.freeNat s.fresh 1 % 2 == 1, Config.freeNat s.fresh 2 % 2 == 1, fun herr => ?_, fun hok herr => ?_⟩⟩
  · exact (exec_init_of hlife (initActs_ok hok)).trans
      (congrArg Host.Outcome.next (finishCommand_init (s := s.initBegun.linesRaised) rfl))
  · exact exec_init_of hlife
      (performAll_cut (s := s.initBegun) (as := []) (a := .clk true) rfl (okAt_nil _) herr nofun)
  · exact exec_init_of hlife
      (performAll_cut (s := s.initBegun) (as := [.clk true]) (a := .dio true) rfl hok herr nofun)

/-! ### ENABLE, DISABLE and TEARDOWN as phase (c) -/

/-- The three commands that are phase (c) alone, with the names `SEQ` has for them. -/
inductive Controls : Instr → CmdName → Prop where
  | enable : Controls .enable .enable
  | disable : Controls .disable .disable
  | teardown : Controls .teardown .teardown

/-- The byte each of them sends (44_lifecycle.md R211, R212, R215). -/
def controlSent (i : Instr) (s : State) : Byte :=
  if i = .enable then s.cfg.ctrlOnMask ||| s.br.setWidth 8 else s.cfg.ctrlOff

/-- The state in which one of them performs its first line action (10_state.md R33). -/
def State.controlBegun (c : CmdName) (s : State) : State := s.position c .c .start

theorem exec_control {i : Instr} {c : CmdName} {s : State} (h : Controls i c) (hlive : s.life = .live) :
    exec i s = .next ((phaseC (controlSent i s) (s.controlBegun c)).bind finish).state := by
  have hbegin : beginCommand i s = some (.go (s.controlBegun c)) := by
    cases h <;> exact congrArg some (requireLive_live hlive _)
  have hbody : commandBody i (s.controlBegun c) = phaseC (controlSent i s) (s.controlBegun c) := by cases h <;> rfl
  rw [exec_of_beginCommand hbegin, Flow.go_bind, hbody]

/-- With `LIFE` UNBUILT they are refused (60_exceptions.md R234, R243). -/
theorem exec_control_unbuilt {i : Instr} {c : CmdName} {s : State} (h : Controls i c) (hlife : s.life = .unbuilt) :
    exec i s = .next (refusedWith .badLifecycle s) := by
  have hlive : s.life ≠ .live := by rw [hlife]; decide
  have hbegin : beginCommand i s = some (.raise .badLifecycle s) := by
    cases h <;> exact congrArg some (requireLive_refused hlive _)
  exact exec_of_beginCommand hbegin

theorem exec_control_acked {i : Instr} {c : CmdName} {k : Nat} {s : State} (h : Controls i c) (hlive : s.life = .live)
    (hack : s.ackedTransmission 0 [k]) :
    exec i s = .next (finishCommand (((s.controlBegun c).inPhase .c).byteTransmitted (controlSent i s) k)) := by
  have hphase := phaseC_acked (c := controlSent i s) (s := s.controlBegun c)
    (State.ackedTransmission_congr (fun _ => rfl) hack)
  rw [exec_control h hlive, hphase]
  rfl

theorem exec_control_unacked {i : Instr} {c : CmdName} {s : State} (h : Controls i c) (hlive : s.life = .live)
    (hok : s.okAt 0 4) (hun : s.unackedSlot 4) :
    exec i s = .next (raise .ackTimeout (((s.controlBegun c).inPhase .c).firstByteUnacked (controlSent i s))) := by
  have hphase := phaseC_unacked (c := controlSent i s) (s := s.controlBegun c)
    (State.okAt_congr (fun _ => rfl) hok) (State.unackedSlot_congr (fun _ => rfl) hun)
  rw [exec_control h hlive, hphase]
  rfl

/-- Settles O34: phase (c) run through, and the end of ENABLE and of DISABLE. -/
theorem onAndOffRun : Obligations.OnAndOffRun := by
  refine fun k s hlive hack => ⟨⟨anyErr s.cfg (Config.freeNat s.fresh 0), ?_⟩, anyErr s.cfg (Config.freeNat s.fresh 0), ?_⟩
  · rw [exec_control_acked .enable hlive hack, finishCommand_on (.inr (.inr (.inr rfl)))]
    rfl
  · rw [exec_control_acked .disable hlive hack, finishCommand_off rfl]
    rfl

/-! ### ENABLE and DISABLE without success -/

theorem finishCommand_control_ok {i : Instr} {c : CmdName} {s : State} (h : Controls i c) (hs : s.seq.cmd = c) :
    (finishCommand s).st = .ok := by
  cases h <;> simp only [finishCommand, hs] <;> rfl

/-- With `LIFE` LIVE, one of them that does not answer OK was ended by an exception in its phase (c). -/
theorem control_unsuccessful {i : Instr} {c : CmdName} {s t : State} (h : Controls i c) (hlive : s.life = .live)
    (ht : exec i s = .next t) (hst : t.st ≠ .ok) : Answered (s.controlBegun c) t := by
  have hphase := kept_steady.phaseC (controlSent i s) (s.controlBegun c)
  rw [exec_control h hlive] at ht
  cases hr : phaseC (controlSent i s) (s.controlBegun c) with
  | go u =>
    rw [hr] at ht hphase
    cases ht
    obtain ⟨-, -, -, -, -, -, -, hcmd, -⟩ := hphase
    exact absurd (finishCommand_control_ok h hcmd) hst
  | ended u =>
    rw [hr] at ht hphase
    cases ht
    exact hphase

/-- Outside TEARDOWN phase (c) ends with its first line action when that one fails (60_exceptions.md R241). -/
theorem phaseC_err_first {v : Byte} {e : ErrVal} {s : State} (herr : s.drawAt 0 = .err e) (hc : s.seq.cmd ≠ .teardown) :
    phaseC v s = .ended (s.firstDriveFailed e) := by
  have hstart : startCondition (s.inPhase .c) = .ended ((s.inPhase .c).firstDriveFailed e) :=
    performAll_cut (s := s.inPhase .c) (as := []) (a := .clk true) rfl (okAt_nil _) herr hc
  rw [phaseC, hstart]
  rfl

/-- Settles O35: an end without success is a refusal or an exception of phase (c), which leaves `EN` as it was. -/
theorem controlCommandsFail : Obligations.ControlCommandsFail := by
  intro i s hi
  obtain ⟨c, h, hdown, hhost, hpay⟩ :
      ∃ c, Controls i c ∧ c ≠ .teardown ∧ i.isHostCommand = true ∧ leavesPayload i := by
    rcases hi with rfl | rfl
    · exact ⟨_, .enable, nofun, rfl, .inr (.inl rfl)⟩
    · exact ⟨_, .disable, nofun, rfl, .inr (.inr (.inl rfl))⟩
  refine ⟨?_, fun hlive hok hun => ?_, fun e hlive herr => ⟨Config.freeNat s.fresh 1 % 2 == 1, ?_⟩⟩
  · cases hlife : s.life with
    | unbuilt =>
      exact ⟨_, exec_control_unbuilt h hlife, fun _ =>
        ⟨rfl, ⟨rfl, rfl, rfl⟩, ⟨rfl, rfl, rfl, rfl⟩, .inl ⟨rfl, rfl⟩⟩⟩
    | live =>
      refine ⟨_, exec_control h hlife, fun hst => ?_⟩
      have hexec := exec_control h hlife
      obtain ⟨hgrew, hcmd, hport, hout, -⟩ := control_unsuccessful h hlife hexec hst
      obtain ⟨hkept, hbr, hen, -, -, hend⟩ := hout hdown
      obtain ⟨-, hpayload, -⟩ := commandFrames i s _ hhost hexec
      exact ⟨hen, hpayload hpay, ⟨hkept, hbr, hcmd, hport⟩, .inr ⟨rfl, hgrew, hend⟩⟩
  · refine ⟨_, exec_control_unacked h hlive hok hun, ?_⟩
    rw [raise_firstByteUnacked (s := s.controlBegun c) hdown]
    exact ⟨rfl, ⟨rfl, rfl, rfl, rfl⟩, rfl, rfl, ⟨rfl, rfl, rfl⟩, ⟨rfl, rfl, rfl, rfl⟩⟩
  · rw [exec_control h hlive, phaseC_err_first (s := s.controlBegun c) herr hdown]
    rfl

/-! ### TEARDOWN -/

/-- What TEARDOWN leaves whatever the lines did (44_lifecycle.md R215). -/
def TornDown (s t : State) : Prop :=
  responded s t ⟨.ok, none⟩ ∧ t.life = .unbuilt ∧ t.lf = false ∧ t.en = false ∧ t.clk = .x ∧ t.dio = .x

/-- A piece of TEARDOWN's disable either leaves TEARDOWN in progress or completes it (60_exceptions.md R245). -/
theorem Flow.Leaves.inTeardown {s : State} {f : Flow} (h : f.Leaves Steady Answered s) (hc : s.seq.cmd = .teardown) :
    s.traceGrew f.state ∧ (f.state.seq.cmd = .teardown ∧ f.state.responses = s.responses ∧ f.state.life = s.life ∧
      f.state.lf = s.lf ∨ TornDown s f.state) := by
  cases f with
  | go t =>
    obtain ⟨hlife, -, -, -, -, -, -, hcmd, hlf, hresp, -, hgrew⟩ := h
    exact ⟨hgrew, .inl ⟨hcmd.trans hc, hresp, hlife, hlf⟩⟩
  | ended t =>
    obtain ⟨hgrew, -, -, -, hdown⟩ := h
    exact ⟨hgrew, .inr (hdown hc)⟩

/-- Settles O38: each of these operations is made of actions that keep `Steady` or leave `Answered`. -/
theorem teardownDiscards : Obligations.TeardownDiscards := by
  intro i s hc hi
  suffices hexec : ∃ f : Flow, exec i s = .next f.state ∧ f.Leaves Steady Answered s by
    obtain ⟨f, hexec, hleaves⟩ := hexec
    exact ⟨f.state, hexec, hleaves.inTeardown hc⟩
  rcases hi with ⟨a, rfl⟩ | rfl | rfl | rfl | ⟨v, rfl⟩ | ⟨c, rfl⟩
  · exact ⟨_, exec_instr a s, kept_steady.act a s⟩
  · exact ⟨_, rfl, kept_steady.startCondition s⟩
  · exact ⟨_, rfl, kept_steady.stopCondition s⟩
  · exact ⟨_, rfl, kept_steady.waitAck s⟩
  · exact ⟨_, rfl, kept_steady.sendByte v s⟩
  · exact ⟨_, rfl, kept_steady.phaseC c s⟩

/-- A response is one more than there were before, from wherever they are counted. -/
theorem responded.of_responses {s u t : State} {r : Response} (h : responded u t r) (hu : u.responses = s.responses) :
    responded s t r := by
  rwa [responded, ← hu]

/-- TEARDOWN's disable and its end, whatever the draws. -/
theorem Flow.Leaves.finishTeardown {s : State} {f : Flow} (h : f.Leaves Steady Answered s) (hc : s.seq.cmd = .teardown) :
    TornDown s (f.bind finish).state ∧ s.traceGrew (f.bind finish).state ∧ (f.bind finish).state.cmd = s.cmd ∧
      (f.bind finish).state.host = s.host := by
  cases f with
  | go u =>
    obtain ⟨-, -, -, -, -, hcmd, hhost, hname, -, hresp, -, hgrew⟩ := h
    have hend : ((Flow.go u).bind finish).state = teardownEnd u := finishCommand_teardown (hname.trans hc)
    obtain ⟨hanswer, hlife, hlf, hen, hclk, hdio, htr, hcmd', hhost'⟩ := teardownEnd_spec u
    rw [hend, State.traceGrew, htr]
    exact ⟨⟨hanswer.of_responses hresp, hlife, hlf, hen, hclk, hdio⟩, hgrew, hcmd'.trans hcmd, hhost'.trans hhost⟩
  | ended u =>
    obtain ⟨hgrew, hcmd, hhost, -, hdown⟩ := h
    exact ⟨hdown hc, hgrew, hcmd, hhost⟩

theorem exec_teardown_tornDown {s t : State} (hlive : s.life = .live) (ht : exec .teardown s = .next t) :
    TornDown s t ∧ s.traceGrew t ∧ t.cmd = s.cmd ∧ t.host = s.host := by
  rw [exec_control .teardown hlive] at ht
  cases ht
  exact (kept_steady.phaseC s.cfg.ctrlOff (s.controlBegun .teardown)).finishTeardown rfl

theorem raise_teardown_tr {x : Exn} {s : State} (hx : (∃ e, x = .lineFault e) ∨ x = .ackTimeout)
    (hc : s.seq.cmd = .teardown) : (raise x s).tr = s.tr := by
  rw [raise_teardown hx hc]
  rfl

/-- Inside TEARDOWN phase (c) ends with its first line action too when that one fails, the failure discarded. -/
theorem phaseC_err_first_tr {v : Byte} {e : ErrVal} {s : State} {k : State → Flow} (herr : s.drawAt 0 = .err e)
    (hc : s.seq.cmd = .teardown) : ((phaseC v s).bind k).state.tr = s.tr ++ [.c1e e] := by
  have hdraw : (s.inPhase .c).drawAt 0 = .err e := herr
  rw [phaseC, startCondition, startActs, performAll, Act.perform, driveClk, hdraw]
  exact raise_teardown_tr (.inl ⟨e, rfl⟩) hc

/-- Settles O37: the disable ends or is cut short, and either way `teardownEnd` follows, which keeps the trace. -/
theorem teardownRuns : Obligations.TeardownRuns := by
  intro s hlive
  have hexec := exec_control .teardown hlive
  obtain ⟨⟨hresp, hlife, hlf, hen, hclk, hdio⟩, hgrew, hcmd, hhost⟩ := exec_teardown_tornDown hlive hexec
  refine ⟨_, hexec, hresp, hlife, hen, hlf, hclk, hdio, hgrew, hcmd, hhost, fun k hack => ?_, fun hok hun => ?_,
    fun e herr => phaseC_err_first_tr (s := s.controlBegun .teardown) herr rfl⟩
  · rw [Host.Outcome.next.inj (hexec.symm.trans (exec_control_acked .teardown hlive hack)), finishCommand_teardown rfl]
    rfl
  · rw [Host.Outcome.next.inj (hexec.symm.trans (exec_control_unacked .teardown hlive hok hun))]
    exact raise_teardown_tr (.inr rfl) rfl

/-! ### The lifecycle as a whole -/

/-- How a command that is not TEARDOWN goes from `s` to its end `t`: `LIFE`, `EN` and `BR`, where `builds` says whether the command
is INIT (44_lifecycle.md R216). -/
structure LifecycleKept (builds : Prop) (s t : State) : Prop where
  unsuccessful : t.st ≠ .ok → t.life = s.life ∧ t.en = s.en ∧ t.br = s.br
  other : ¬ builds → t.life = s.life
  built : builds → t.st = .ok → t.life = .live

/-- It may be counted from any earlier state with the same `LIFE`, `EN` and `BR`. -/
theorem LifecycleKept.of_eq {p q : Prop} {s u t : State} (h : LifecycleKept p u t) (hpq : p ↔ q) (hlife : u.life = s.life)
    (hen : u.en = s.en) (hbr : u.br = s.br) : LifecycleKept q s t where
  unsuccessful := by rw [← hlife, ← hen, ← hbr]; exact h.unsuccessful
  other := by rw [← hlife, ← hpq]; exact h.other
  built := by rw [← hpq]; exact h.built

theorem finishCommand_lifecycle {s : State} (hdown : s.seq.cmd ≠ .teardown) :
    LifecycleKept (s.seq.cmd = .init) s (finishCommand s) := by
  cases hs : s.seq.cmd <;> simp only [finishCommand, hs]
  case teardown => exact absurd hs hdown
  case init => exact ⟨fun h => absurd rfl h, fun h => absurd trivial h, fun _ _ => rfl⟩
  case idle => exact ⟨fun _ => ⟨rfl, rfl, rfl⟩, fun _ => rfl, nofun⟩
  all_goals exact ⟨fun h => absurd rfl h, fun _ => rfl, nofun⟩

theorem Answered.lifecycle {p : Prop} {s t : State} (h : Answered s t) (hdown : s.seq.cmd ≠ .teardown) :
    LifecycleKept p s t := by
  obtain ⟨-, -, -, hout, -⟩ := h
  obtain ⟨hlife, hbr, hen, -, -, hend⟩ := hout hdown
  have hst : t.st ≠ .ok := by
    rcases hend with ⟨⟨hst, -⟩, -⟩ | ⟨e, ⟨hst, -⟩, -⟩ <;> rw [hst] <;> exact nofun
  exact ⟨fun _ => ⟨hlife, hen, hbr⟩, fun _ => hlife, fun _ hok => absurd hok hst⟩

/-- The line actions and the end of a command that is not TEARDOWN. -/
theorem commandBody_lifecycle (i : Instr) {s : State} (hdown : s.seq.cmd ≠ .teardown) :
    LifecycleKept (s.seq.cmd = .init) s ((commandBody i s).bind finish).state := by
  have hbody := kept_steady.commandBody i s
  cases hr : commandBody i s with
  | go u =>
    rw [hr] at hbody
    obtain ⟨hlife, hbr, hen, -, -, -, -, hcmd, -⟩ := hbody
    exact (finishCommand_lifecycle (s := u) (hcmd ▸ hdown)).of_eq (by rw [hcmd]) hlife hen hbr
  | ended u =>
    rw [hr] at hbody
    exact hbody.lifecycle hdown

theorem refusedWith_st_ne_ok (x : Exn) (s : State) : (refusedWith x s).st ≠ .ok := by cases x <;> exact nofun

/-- A host command that is not TEARDOWN, from acceptance to its end. -/
theorem command_lifecycle {i : Instr} {s : State} {f : Flow} (hb : Begun i s f) (hdown : i ≠ .teardown) :
    LifecycleKept (i = .init) s ((f.bind (commandBody i)).bind finish).state := by
  cases hb with
  | refused x => exact ⟨fun _ => ⟨rfl, rfl, rfl⟩, fun _ => rfl, fun _ hok => absurd hok (refusedWith_st_ne_ok x s)⟩
  | brightness b hi => exact ⟨fun hst => absurd rfl hst, fun _ => rfl, fun hinit => nomatch hi.symm.trans hinit⟩
  | init hi => exact (commandBody_lifecycle i (s := s.initBegun) nofun).of_eq (iff_of_true rfl hi) rfl rfl rfl
  | send c bs hc =>
    have hname : (c = .init ↔ i = .init) ∧ c ≠ .teardown := by
      rcases hc with ⟨_, _, rfl, rfl⟩ | ⟨_, _, _, rfl, rfl⟩ | ⟨_, rfl, rfl⟩ <;> simp
    have hrest := commandBody_lifecycle i (s := (loadPayload bs s).position c .a .start) hname.2
    exact hrest.of_eq hname.1 (by simp) (by simp) (by simp)
  | control c hc =>
    have hname : (c = .init ↔ i = .init) ∧ c ≠ .teardown := by
      rcases hc with ⟨rfl, rfl⟩ | ⟨rfl, rfl⟩ | ⟨hi, -⟩
      · simp
      · simp
      · exact absurd hi hdown
    exact (commandBody_lifecycle i (s := s.controlBegun c) hname.2).of_eq hname.1 rfl rfl rfl

/-- TEARDOWN leaves `LIFE` UNBUILT; refused, it changes neither `EN` nor `BR`. -/
theorem teardown_lifecycle {s t : State} (ht : exec .teardown s = .next t) :
    t.life = .unbuilt ∧ (t.st ≠ .ok → t.en = s.en ∧ t.br = s.br) := by
  cases hlife : s.life with
  | unbuilt =>
    rw [exec_control_unbuilt .teardown hlife] at ht
    cases ht
    exact ⟨hlife, fun _ => ⟨rfl, rfl⟩⟩
  | live =>
    obtain ⟨⟨⟨hst, -⟩, hdown, -⟩, -⟩ := exec_teardown_tornDown hlife ht
    exact ⟨hdown, fun hbad => absurd hst hbad⟩

/-- Settles O40: TEARDOWN by itself; every other command by its begin, its line actions and its end. -/
theorem lifecycleTransitions : Obligations.LifecycleTransitions := by
  intro i s t hi ht
  by_cases hdown : i = .teardown
  · subst hdown
    obtain ⟨hlife, hkept⟩ := teardown_lifecycle ht
    exact ⟨nofun, fun _ => hlife, fun _ h => absurd rfl h, hkept⟩
  · obtain ⟨f, hf, hb⟩ := begun hi s
    obtain ⟨hbad, hother, hbuilt⟩ := command_lifecycle hb hdown
    rw [Host.Outcome.next.inj ((exec_of_beginCommand hf).symm.trans ht)] at hbad hother hbuilt
    refine ⟨fun hinit => ?_, fun h => absurd h hdown, fun hinit _ => hother hinit, fun hst => (hbad hst).2⟩
    by_cases hst : t.st = .ok
    · rw [if_neg fun h => h.2 hst]
      exact hbuilt hinit hst
    · rw [(hbad hst).1]
      cases s.life <;> simp [hst]

end Sys2Proof.Machine
end

section
/-!
SUPPORT. The exception family (spec/60_exceptions.md R230 to R245): what each check refuses, what a send does against an absent
device, and how every host command ends.
-/
namespace Sys2Proof.Machine

/-! ### Refused commands -/

/-- A command that a check refuses changes `ST`, `SEQ` and the response port only (60_exceptions.md R243). -/
theorem exec_of_refused {i : Instr} {s : State} {x : Exn}
    (hx : x = .badBrightness ∨ x = .badDigit ∨ x = .badLength ∨ x = .badLifecycle)
    (hbegin : beginCommand i s = some (.raise x s)) : exec i s = .next (refusedWith x s) := by
  rw [exec_of_beginCommand hbegin, refused_eq s hx]
  rfl

/-- Every command but INIT checks the lifecycle first (60_exceptions.md R234, R237). -/
theorem beginCommand_unbuilt {i : Instr} {s : State} (hlife : s.life = .unbuilt) (hi : i.isHostCommand = true)
    (hinit : i ≠ .init) : beginCommand i s = some (.raise .badLifecycle s) := by
  have hlive : s.life ≠ .live := by rw [hlife]; decide
  cases i <;> simp only [Instr.isHostCommand, Bool.false_eq_true] at hi
  case init => exact absurd rfl hinit
  all_goals exact congrArg some (requireLive_refused hlive _)

theorem beginSendBytes_badLength {len : BitVec 4} {arg : HostArg} {s : State} (hlive : s.life = .live)
    (hn : s.cfg.payloadMax < len.toNat) : beginSendBytes len arg s = .raise .badLength s := by
  rw [beginSendBytes, requireLive_live hlive, if_pos hn]

theorem beginSendDigits_badLength {bit : Bool} {len : BitVec 4} {arg : HostArg} {s : State} (hlive : s.life = .live)
    (hn : s.cfg.payloadMax < len.toNat) : beginSendDigits bit len arg s = .raise .badLength s := by
  rw [beginSendDigits, requireLive_live hlive, if_pos hn]

/-- The digits are checked after the length (60_exceptions.md R237). -/
theorem beginSendDigits_badDigit {bit : Bool} {len : BitVec 4} {arg : HostArg} {s : State} (hlive : s.life = .live)
    (hn : len.toNat ≤ s.cfg.payloadMax) (hbad : ∃ b ∈ items len arg, 9 < b.toNat) :
    beginSendDigits bit len arg s = .raise .badDigit s := by
  rw [beginSendDigits, requireLive_live hlive, if_neg hn.not_gt, digitsOf_bad hbad]

theorem beginSendNumber_badLength {v : Word32} {s : State} (hlive : s.life = .live)
    (hn : s.cfg.payloadMax < (dec v).length) : beginSendNumber v s = .raise .badLength s := by
  rw [beginSendNumber, requireLive_live hlive, if_pos hn]

theorem beginSetBrightness_badBrightness {b : Byte} {s : State} (hlive : s.life = .live) (hb : 7 < b.toNat) :
    beginSetBrightness b s = .raise .badBrightness s := by
  rw [beginSetBrightness, requireLive_live hlive, if_pos hb]

/-- Settles O30: each check, in the order in which a command makes them, raises its exception in the state of acceptance. -/
theorem refusedCommands : Obligations.RefusedCommands := by
  intro s
  refine ⟨fun hlive => ?_, fun i hlife hi hinit => ?_, fun hlive len arg bit hn => ⟨?_, ?_⟩,
    fun hlive len arg bit j hn hj hbad => ?_, fun hlive v hok hv => ?_, fun hlive b hb => ?_⟩
  · exact exec_of_refused (by simp) (congrArg some (if_pos hlive))
  · exact exec_of_refused (by simp) (beginCommand_unbuilt hlife hi hinit)
  · exact exec_of_refused (by simp) (congrArg some (beginSendBytes_badLength hlive hn))
  · exact exec_of_refused (by simp) (congrArg some (beginSendDigits_badLength hlive hn))
  · have hitem := List.mem_of_getElem? (items_getElem? (arg := arg) hj)
    exact exec_of_refused (by simp) (congrArg some (beginSendDigits_badDigit hlive hn ⟨_, hitem, hbad⟩))
  · have hn : s.cfg.payloadMax < (dec v).length := not_le.mp ((dec_fits hok v).not.mpr hv.not_gt)
    exact exec_of_refused (by simp) (congrArg some (beginSendNumber_badLength hlive hn))
  · exact exec_of_refused (by simp) (congrArg some (beginSetBrightness_badBrightness hlive hb))

/-! ### Sends against an absent device -/

/-- Items of at most 9 are digits (30_encoding.md R104). -/
theorem digitsOf_good {bs : List Byte} (h : ∀ b ∈ bs, b.toNat ≤ 9) : ∃ ds, digitsOf bs = some ds := by
  induction bs with
  | nil => exact ⟨[], rfl⟩
  | cons b bs ih =>
    obtain ⟨ds, hds⟩ := ih fun c hc => h c (List.mem_cons_of_mem b hc)
    have hb : b.toNat < 10 := Nat.lt_succ_of_le (h b List.mem_cons_self)
    exact ⟨⟨b.toNat, hb⟩ :: ds, by rw [digitsOf, digitOf, dif_pos hb, hds]⟩

/-- SEND_DIGITS whose items are all digits, the items above `len` not looked at (43_framing.md R194). -/
theorem exec_sendDigits_items {bit : Bool} {len : BitVec 4} {arg : HostArg} {s : State} (hlive : s.life = .live)
    (hn : len.toNat ≤ s.cfg.payloadMax) (hitems : ∀ j, j < len.toNat → (arg.extractLsb' (8 * j) 8).toNat ≤ 9) :
    ∃ bs, exec (.sendDigits bit len arg) s = .next ((frame (s.resolved .sendDigits bs)).bind finish).state := by
  have hgood : ∀ b ∈ items len arg, b.toNat ≤ 9 := by
    intro b hb
    obtain ⟨j, hj, rfl⟩ := List.mem_map.mp hb
    exact hitems j (List.mem_range.mp hj)
  obtain ⟨ds, hds⟩ := digitsOf_good hgood
  refine ⟨enc s.cfg ds bit, ?_⟩
  change execSendDigits bit len arg s = _
  rw [execSendDigits, beginSendDigits_ok hlive hn hds, Flow.go_bind, State.resolved]

@[simp] theorem State.resolved_drawAt (c : CmdName) (bs : List Byte) (s : State) (i : Nat) :
    (s.resolved c bs).drawAt i = s.drawAt i := by
  rw [State.resolved, State.position_drawAt, loadPayload_drawAt]

/-- A resolved send is given up at the data command, and taking AckTimeout there leaves the rest (60_exceptions.md R242). -/
theorem resolved_unacked {c : CmdName} {bs : List Byte} {s t : State} (hc : c ≠ .teardown) (hok : s.okAt 0 4)
    (hun : s.unackedSlot 4) (ht : ((frame (s.resolved c bs)).bind finish).state = t) :
    t.tr = s.tr ++ Wire.start ++ Wire.unacked s.cfg.dataCmd ∧
      responded s t ⟨.ackTimeout, none⟩ ∧ t.clk = .lo ∧ t.dio = .hi ∧ t.ac = 255 ∧ t.sr = 0 ∧ t.bc = 8 ∧
      t.en = s.en ∧ t.lf = s.lf ∧ t.pi = s.pi ∧ keepsControl s t := by
  subst ht
  have hname : (s.resolved c bs).seq.cmd ≠ .teardown := hc
  have hstart : (s.resolved c bs).okAt 0 4 := State.okAt_congr (fun i => by simp) hok
  have hslot : (s.resolved c bs).unackedSlot 4 := State.unackedSlot_congr (fun i => by simp) hun
  rw [frame_unacked hstart hslot, Flow.raise_bind, Flow.raise, Flow.ended_state, raise_firstByteUnacked hname]
  simp [State.timedOut, State.firstByteUnacked, State.resolved, responded, keepsControl]

/-- Settles O32: each send that passes its checks is its payload and a frame, given up at the frame's first byte. -/
theorem sendUnacknowledged : Obligations.SendUnacknowledged := by
  intro i s hlive hok hstart hun hsend
  suffices hexec : ∃ c bs, c ≠ .teardown ∧ exec i s = .next ((frame (s.resolved c bs)).bind finish).state by
    obtain ⟨c, bs, hc, hexec⟩ := hexec
    exact ⟨_, hexec, resolved_unacked hc hstart hun rfl⟩
  rcases hsend with ⟨len, arg, rfl, hn⟩ | ⟨v, rfl, hv⟩ | ⟨bit, len, arg, rfl, hn, hitems⟩
  · exact ⟨.sendBytes, _, nofun, exec_sendBytes_resolved hlive hn⟩
  · exact ⟨.sendNumber, _, nofun, exec_sendNumber_resolved hlive ((dec_fits hok v).mpr hv)⟩
  · obtain ⟨bs, hexec⟩ := exec_sendDigits_items (bit := bit) hlive hn hitems
    exact ⟨.sendDigits, bs, nofun, hexec⟩

/-! ### The status a command ends in -/

/-- A check that answers at once answers with its exception's status, or what follows it does. -/
theorem check_ended_status {L : List Status} {x : Exn} {p : Prop} [Decidable p] {f : Flow} {s t : State}
    (h : (if p then Flow.raise x s else f) = .ended t) (hrow : (raise x s).st ∈ L) (hf : f = .ended t → t.st ∈ L) :
    t.st ∈ L := by
  split at h
  · cases h; exact hrow
  · exact hf h

theorem requireLive_ended_status {L : List Status} {k : State → Flow} {s t : State} (h : requireLive s k = .ended t)
    (hrow : .badLifecycle ∈ L) (hk : k s = .ended t → t.st ∈ L) : t.st ∈ L := by
  rw [requireLive] at h
  split at h
  · exact hk h
  · cases h; exact hrow

/-- A command that is over at its acceptance was refused for a reason its row of the table allows, or is SET_BRIGHTNESS, done
(60_exceptions.md R235). -/
theorem beginCommand_ended_status {i : Instr} {s t : State} (h : beginCommand i s = some (.ended t)) :
    t.st ∈ commandStatuses i := by
  cases i <;> simp only [beginCommand, Option.some.injEq, reduceCtorEq] at h
  case init => exact check_ended_status h (by simp [commandStatuses, raise, Exn.status]) nofun
  case sendBytes | sendNumber =>
    refine requireLive_ended_status h (by simp [commandStatuses]) fun h => ?_
    exact check_ended_status h (by simp [commandStatuses, raise, Exn.status]) nofun
  case sendDigits =>
    refine requireLive_ended_status h (by simp [commandStatuses]) fun h => ?_
    refine check_ended_status h (by simp [commandStatuses, raise, Exn.status]) fun h => ?_
    split at h
    · cases h; simp [commandStatuses, raise, Exn.status]
    · cases h
  case setBrightness =>
    refine requireLive_ended_status h (by simp [commandStatuses]) fun h => ?_
    refine check_ended_status h (by simp [commandStatuses, raise, Exn.status]) fun h => ?_
    cases h; simp [commandStatuses, respondOk]
  case enable | disable | teardown => exact requireLive_ended_status h (by simp [commandStatuses]) nofun

/-- A sequence of line actions polls for nothing, so outside TEARDOWN it is cut short by a LineFault only (60_exceptions.md
R231). -/
theorem performAll_ended_status {as : List Act} {s t : State} (hc : s.seq.cmd ≠ .teardown) (h : performAll as s = .ended t) :
    t.st = .lineFault := by
  induction as generalizing s with
  | nil => cases h
  | cons a as ih =>
    have hp := performed a s
    rw [performAll] at h
    cases hr : a.perform s with
    | go u =>
      rw [hr] at h hp
      cases hp with
      | done _ hu => exact ih (hu.seqCmd ▸ hc) h
    | ended u =>
      rw [hr] at h hp
      cases h
      cases hp with
      | failed e w _ hu =>
        have hw : w.seq.cmd ≠ .teardown := hu.seqCmd ▸ hc
        rw [raise, if_neg hw]
        rfl

theorem Answered.status {s t : State} (h : Answered s t) (hc : s.seq.cmd ≠ .teardown) :
    t.st = .ackTimeout ∨ t.st = .lineFault := by
  obtain ⟨-, -, -, hout, -⟩ := h
  obtain ⟨-, -, -, -, -, hend⟩ := hout hc
  exact hend.imp (fun ⟨⟨hst, _⟩, _⟩ => hst) fun ⟨_, ⟨hst, _⟩, _⟩ => hst

/-- An exception among a command's line actions is one its row allows (60_exceptions.md R235). -/
theorem commandBody_ended_status {i : Instr} {s u t : State} (hb : Begun i s (.go u)) (h : commandBody i u = .ended t) :
    t.st ∈ commandStatuses i := by
  have hleft : Flow.Leaves Steady Answered u (.ended t) := h ▸ kept_steady.commandBody i u
  cases hb with
  | init hi =>
    subst hi
    have hst : t.st = .lineFault := performAll_ended_status (as := initActs) (s := s.initBegun) nofun h
    simp [hst, commandStatuses]
  | send c bs hc =>
    rcases hc with ⟨_, _, rfl, rfl⟩ | ⟨_, _, _, rfl, rfl⟩ | ⟨_, rfl, rfl⟩ <;>
      rcases hleft.status nofun with hst | hst <;> simp [hst, commandStatuses]
  | control c hc =>
    rcases hc with ⟨rfl, rfl⟩ | ⟨rfl, rfl⟩ | ⟨rfl, rfl⟩
    · rcases hleft.status nofun with hst | hst <;> simp [hst, commandStatuses]
    · rcases hleft.status nofun with hst | hst <;> simp [hst, commandStatuses]
    · obtain ⟨-, -, -, -, hdown⟩ := hleft
      obtain ⟨⟨hst, -⟩, -⟩ := hdown rfl
      simp [hst, commandStatuses]

theorem ok_mem_commandStatuses {i : Instr} (hi : i.isHostCommand = true) : .ok ∈ commandStatuses i := by
  cases i <;> simp only [Instr.isHostCommand, Bool.false_eq_true] at hi
  all_goals simp [commandStatuses]

/-! ### How a command ends, whatever the draws -/

/-- The response of a command: LINE_FAULT with a value of `E`, or another status with none, and then `LF` was not set
(10_state.md R37, R40; 00_scope.md R12). -/
inductive Answer (s t : State) : Prop where
  | plain (st : Status) (hst : st ≠ .lineFault) (hr : responded s t ⟨st, none⟩) (hlf : t.lf = true → s.lf = true)
  | fault (e : ErrVal) (he : s.cfg.isErr e = true) (hr : responded s t ⟨.lineFault, some e⟩)

/-- A command, or a last piece of one, from `s` to its end `t`. -/
structure CommandEnd (s t : State) : Prop where
  answer : Answer s t
  cmd : t.cmd = s.cmd
  host : t.host = s.host
  grew : s.traceGrew t

/-- It may be counted from an earlier state that no response, no fault and no acceptance separates from `u`. -/
theorem CommandEnd.since {s u t : State} (h : CommandEnd u t) (hcfg : u.cfg = s.cfg) (hresp : u.responses = s.responses)
    (hlf : u.lf = true → s.lf = true) (hcmd : u.cmd = s.cmd) (hhost : u.host = s.host) (hgrew : s.traceGrew u) :
    CommandEnd s t where
  answer := by
    cases h.answer with
    | plain st hst hr hlf' => exact .plain st hst (hr.of_responses hresp) (hlf ∘ hlf')
    | fault e he hr => exact .fault e (hcfg ▸ he) (hr.of_responses hresp)
  cmd := h.cmd.trans hcmd
  host := h.host.trans hhost
  grew := traceGrew_trans hgrew h.grew

theorem finishCommand_end {s : State} (hc : s.seq.cmd ≠ .idle) :
    CommandEnd s (finishCommand s) ∧ (finishCommand s).st = .ok := by
  have ok {t : State} (hr : responded s t ⟨.ok, none⟩) (hlf : t.lf = true → s.lf = true) (hcmd : t.cmd = s.cmd)
      (hhost : t.host = s.host) (htr : t.tr = s.tr) : CommandEnd s t ∧ t.st = .ok :=
    ⟨⟨.plain .ok nofun hr hlf, hcmd, hhost, [], by rw [htr, List.append_nil]⟩, hr.1⟩
  cases hs : s.seq.cmd <;> simp only [finishCommand, hs]
  case idle => exact absurd hs hc
  case teardown => exact ok ⟨rfl, rfl, rfl, rfl⟩ nofun rfl rfl rfl
  all_goals exact ok ⟨rfl, rfl, rfl, rfl⟩ id rfl rfl rfl

/-- An exception raised among line actions: inside TEARDOWN it is discarded, outside it is answered. -/
theorem Answered.commandEnd {s t : State} (h : Answered s t) (hcarried : Carried s t) : CommandEnd s t := by
  obtain ⟨hgrew, hcmd, hhost, hout, hin⟩ := h
  refine ⟨?_, hcmd, hhost, hgrew⟩
  by_cases hc : s.seq.cmd = .teardown
  · obtain ⟨hr, -, hlf, -⟩ := hin hc
    exact .plain .ok nofun hr fun h1 => Bool.noConfusion (hlf.symm.trans h1)
  · obtain ⟨-, -, -, -, -, ⟨hr, hlf⟩ | ⟨e, hr, -⟩⟩ := hout hc
    · exact .plain .ackTimeout nofun hr hlf.symm.trans
    · obtain ⟨-, r, hresp, hisErr⟩ := hcarried
      have ⟨_, _, hresp', _⟩ := hr
      have hr_eq : r = ⟨.lineFault, some e⟩ := by simpa using hresp.symm.trans hresp'
      exact .fault e (hisErr e (by rw [hr_eq])) hr

/-- The line actions and the end of a command that goes on after its acceptance. -/
theorem commandBody_end (i : Instr) {s : State} (hc : s.seq.cmd ≠ .idle) :
    CommandEnd s ((commandBody i s).bind finish).state := by
  have hsteady := kept_steady.commandBody i s
  have hsilent := kept_silent.commandBody i s
  cases hr : commandBody i s with
  | go u =>
    rw [hr] at hsteady hsilent
    obtain ⟨-, -, -, -, -, hcmd, hhost, hname, hlf, hresp, -, hgrew⟩ := hsteady
    exact (finishCommand_end (hname ▸ hc)).1.since hsilent.1 hresp hlf.symm.trans hcmd hhost hgrew
  | ended u =>
    rw [hr] at hsteady hsilent
    exact hsteady.commandEnd hsilent

/-- A host command from acceptance to its end. -/
theorem Begun.commandEnd {i : Instr} {s : State} {f : Flow} (hb : Begun i s f) :
    CommandEnd s ((f.bind (commandBody i)).bind finish).state := by
  have hgrew := traceGrew_refl s
  cases f with
  | go u =>
    have hbody := commandBody_end i hb.go_busy
    cases hb with
    | init => exact hbody.since rfl rfl nofun rfl rfl hgrew
    | send => exact hbody.since (by simp) (by simp) (by simp) (by simp) (by simp) ⟨[], by simp⟩
    | control => exact hbody.since rfl rfl id rfl rfl hgrew
  | ended u =>
    cases hb with
    | refused x hx =>
      refine ⟨.plain x.status ?_ ⟨rfl, rfl, rfl, rfl⟩ id, rfl, rfl, hgrew⟩
      rcases hx with rfl | rfl | rfl | rfl <;> exact nofun
    | brightness => exact ⟨.plain .ok nofun ⟨rfl, rfl, rfl, rfl⟩ id, rfl, rfl, hgrew⟩

/-- The status a host command ends in is one its row allows (60_exceptions.md R235). -/
theorem Begun.status {i : Instr} {s : State} {f : Flow} (hi : i.isHostCommand = true) (hf : beginCommand i s = some f)
    (hb : Begun i s f) : ((f.bind (commandBody i)).bind finish).state.st ∈ commandStatuses i := by
  cases f with
  | ended t => exact beginCommand_ended_status hf
  | go u =>
    rw [Flow.go_bind]
    cases hr : commandBody i u with
    | ended t => exact commandBody_ended_status hb hr
    | go v =>
      have hname : v.seq.cmd = u.seq.cmd := by
        have hsteady := kept_steady.commandBody i u
        rw [hr] at hsteady
        obtain ⟨-, -, -, -, -, -, -, hname, -⟩ := hsteady
        exact hname
      rw [Flow.go_bind, finish, Flow.ended_state, (finishCommand_end (hname.trans_ne hb.go_busy)).2]
      exact ok_mem_commandStatuses hi

/-- Settles O39: a command's begin, its line actions and its end leave one response, with a status of its row. (In the namespace
itself `commandStatuses` is the table of those statuses.) -/
theorem Exceptions.commandStatuses : Obligations.CommandStatuses := by
  intro i s hi
  obtain ⟨f, hf, hb⟩ := begun hi s
  have hstatus := hb.status hi hf
  obtain ⟨hanswer, hcmd, hhost, hgrew⟩ := hb.commandEnd
  cases hanswer with
  | plain st hst hr hlf =>
    exact ⟨_, _, exec_of_beginCommand hf, hr, hr.1 ▸ hstatus, iff_of_false hst nofun, nofun, fun _ => ⟨hst, hlf⟩, hcmd,
      hhost, hgrew⟩
  | fault e he hr =>
    have hsome : s.cfg.errors ≠ some 0 := (outcome_err (outcome_of_isErr he)).2
    exact ⟨_, _, exec_of_beginCommand hf, hr, hr.1 ▸ hstatus, iff_of_true rfl rfl, fun _ h => Option.some.inj h ▸ he,
      fun hempty => absurd hempty hsome, hcmd, hhost, hgrew⟩

end Sys2Proof.Machine
end

section
/-!
SUPPORT. The reset family (spec/70_reset_and_hazards.md R271): before INIT the engine refuses every other command at its acceptance.
-/
namespace Sys2Proof.Machine

/-- An idle engine whose `LIFE` is UNBUILT refuses the word at its port, unless it is INIT, in one step (60_exceptions.md R234,
R243). -/
theorem step_accept_unbuilt {s : State} {w : HostWord} {rest : List HostWord} (hi : s.seq.cmd = .idle) (hh : s.host = w :: rest)
    (hlife : s.life = .unbuilt) (hinit : decodeHost (s.cfg.onPort w) ≠ .init) :
    step s = .next (refusedWith .badLifecycle (s.capture (s.cfg.onPort w) rest)) := by
  have hbegin := beginCommand_unbuilt (s := s.capture (s.cfg.onPort w) rest) hlife (decodeHost_isHostCommand _) hinit
  rw [step_accept hi hh hbegin, refused_eq _ (by simp), Flow.ended_state]

/-- Settles O59: power-on leaves the engine idle with `LIFE` UNBUILT, so the first word is refused unless it is INIT. -/
theorem onlyInitAtPowerOn : Obligations.OnlyInitAtPowerOn := by
  intro p w draws hinit
  exact step_accept_unbuilt rfl rfl rfl hinit

end Sys2Proof.Machine
end
